-- ==== Sys2Proof/Word.lean ====
section
/-! DEFINITION. The word types of the block (spec 00_scope.md R10, R13; 10_state.md R24, R29) and their plainest arithmetic.
Everything a test could show wrong (fields, sign extension, byte order) stands in Machine/Operands.lean instead. -/

namespace Sys2Proof

/-- One byte of a memory bank. -/
abbrev Byte := BitVec 8

/-- A 16-bit register, or one halfword of a memory bank (R29, R87). -/
abbrev Half := BitVec 16

/-- A 32-bit value: a bus address, a write's data, a reference point, an affine accumulator (R29, R46, R110). -/
abbrev Word := BitVec 32

/-- A timestamp of the scheduler: an unsigned `TS_BITS`-bit value (R24, R152). -/
abbrev Timestamp := BitVec 64

/-- A colour: red bits 4:0, green bits 9:5, blue bits 14:10 (R13). -/
abbrev Colour := BitVec 15

end Sys2Proof
end

