-- ==== Sys2Proof/Config.lean ====
section
/-! DEFINITION. What is fixed for the machine: the parameters of spec 00_scope.md R8, the sizes of R9, and the free values.
R8's parameters are arguments of the model ("taken as an argument of the model", 93_implementation_defined.md): all but the host's and the
initial contents are the fields of `Params`, which State carries unchanged, so that a statement over every state holds for every choice of
them. EXTERNAL_ACTION is the host's and stands in State beside its command stream. MEM_INIT and FB_INIT are arguments of
`Machine.State.resetWith`. -/

namespace Sys2Proof

namespace Config

/-- The bank sizes of R9, in bytes. -/
abbrev pramBytes : Nat := 0x400

/-- The bank sizes of R9, in bytes. -/
abbrev oamBytes : Nat := 0x400

/-- The bank sizes of R9, in bytes. -/
abbrev vramBytes : Nat := 0x18000

/-- FREE VALUE (R92, log entry 4): the halfword the host sees where the block does not drive the bus, one for each
draw. No body: nothing can be proved of it. -/
opaque freeHalf : Nat → Half

/-- FREE VALUE (R155, log entry 5): which of several due events with the least timestamp fires under `TIE_POLICY = ANY`,
one for each choice. No body: nothing can be proved of it. -/
opaque freeTie : Nat → Nat

end Config

/-- `TIE_POLICY` (R8, R155). -/
inductive TiePolicy where
  | any
  | heap
  deriving DecidableEq, Repr

/-- `OBJ_MODE3_POLICY` (R8, R274). -/
inductive ObjMode3Policy where
  | skip
  | normal
  deriving DecidableEq, Repr

/-- The parameters of R8, each under its name. No step changes them. -/
structure Params where
  schedCapacity : Nat
  tsBits : Nat
  tiePolicy : TiePolicy
  cyclesPerDot : Nat
  hVisible : Nat
  vVisible : Nat
  vTotal : Nat
  cyclesDraw : Nat
  cyclesHBlank : Nat
  objMode3Policy : ObjMode3Policy
  semiObjWindowGated : Bool
  deriving DecidableEq, Repr

/-- The defaults of R8. -/
def Params.default : Params where
  schedCapacity := 64
  tsBits := 64
  tiePolicy := .any
  cyclesPerDot := 4
  hVisible := 240
  vVisible := 160
  vTotal := 228
  cyclesDraw := 960
  cyclesHBlank := 272
  objMode3Policy := .skip
  semiObjWindowGated := true

/-- The "maximum representable timestamp", the sentinel's (R25): `2^TS_BITS - 1`. Timestamps stand in 64 bits, the width of the operands that
carry them (R22, R110), so a TS_BITS above 64 acts as 64 (log entry 8). -/
def Params.tsMax (p : Params) : Timestamp := BitVec.ofNat 64 (2 ^ p.tsBits - 1)

/-- `CYCLES_LINE` (R8). -/
def Params.cyclesLine (p : Params) : Nat := p.cyclesDraw + p.cyclesHBlank

/-- `CYCLES_FRAME` (R8). -/
def Params.cyclesFrame (p : Params) : Nat := p.cyclesLine * p.vTotal

/-- What parameters must meet for the spec's rules to make sense: R8's own condition on the draw phase, a dot that takes time, a frame with a visible part
and a blank, a line number that fits VCOUNT (R32), timestamps of at most 64 bits that hold a line, and room for the two events of reset (R360).
All but the first are the model's reading (log entry 8). -/
structure Params.Legal (p : Params) : Prop where
  draw : p.cyclesPerDot * p.hVisible ≤ p.cyclesDraw
  dot : 0 < p.cyclesPerDot
  visible : 0 < p.vVisible
  blank : p.vVisible < p.vTotal
  lines : p.vTotal ≤ 256
  bits : p.tsBits ≤ 64
  line : p.cyclesLine < 2 ^ p.tsBits - 1
  capacity : 2 ≤ p.schedCapacity

end Sys2Proof
end

