-- ==== Sys2Proof/Syntax.lean ====
section
/-! DEFINITION. The instructions of the block (spec 30_encoding.md Part 1): the commands of its public interface, one constructor
for each row of spec/opcode_table.json, and the command triple they are encoded in. The block is not a processor (R2): what the
task calls an instruction is a command, or the callback of a fired event. -/

namespace Sys2Proof

/-- A command as the host issues it (R110): the triple `(code, A, B)`. -/
structure Command where
  code : BitVec 16
  a : BitVec 64
  b : BitVec 32
  deriving DecidableEq, Repr

/-- The commands and callbacks (R112, R113, R115, R116), with the operands each takes. An operand that "must be 0" has no
field: `decode` refuses a command whose field is not 0 (R118). Addresses are 32 bits; data has the access width (R113). -/
inductive Instr where
  /-- SCHEDULE (R157): `A` the delay, `B` the callback tag. -/
  | schedule (delay : Timestamp) (k : Word)
  /-- CANCEL (R158): `A` the handle. -/
  | cancel (handle : BitVec 64)
  /-- ADVANCE (R159): `A` the cycles. -/
  | advance (cycles : Timestamp)
  /-- NOW (R160). -/
  | now
  /-- NEXT (R161). -/
  | next
  /-- REMAIN (R162). -/
  | remain
  /-- READ8.MMIO (R181). -/
  | read8Mmio (addr : Word)
  /-- READ16.MMIO (R182). -/
  | read16Mmio (addr : Word)
  /-- READ32.MMIO (R183). -/
  | read32Mmio (addr : Word)
  /-- READ8.PRAM (R184). -/
  | read8Pram (addr : Word)
  /-- READ16.PRAM (R185). -/
  | read16Pram (addr : Word)
  /-- READ32.PRAM (R186). -/
  | read32Pram (addr : Word)
  /-- READ8.VRAM (R187). -/
  | read8Vram (addr : Word)
  /-- READ16.VRAM (R188). -/
  | read16Vram (addr : Word)
  /-- READ32.VRAM (R189). -/
  | read32Vram (addr : Word)
  /-- READ8.OAM (R190). -/
  | read8Oam (addr : Word)
  /-- READ16.OAM (R191). -/
  | read16Oam (addr : Word)
  /-- READ32.OAM (R192). -/
  | read32Oam (addr : Word)
  /-- WRITE8.MMIO (R203). -/
  | write8Mmio (addr : Word) (data : Byte)
  /-- WRITE16.MMIO (R204). -/
  | write16Mmio (addr : Word) (data : Half)
  /-- WRITE32.MMIO (R205). -/
  | write32Mmio (addr : Word) (data : Word)
  /-- WRITE8.PRAM (R193). -/
  | write8Pram (addr : Word) (data : Byte)
  /-- WRITE16.PRAM (R194). -/
  | write16Pram (addr : Word) (data : Half)
  /-- WRITE32.PRAM (R195). -/
  | write32Pram (addr : Word) (data : Word)
  /-- WRITE8.VRAM (R196). -/
  | write8Vram (addr : Word) (data : Byte)
  /-- WRITE16.VRAM (R197). -/
  | write16Vram (addr : Word) (data : Half)
  /-- WRITE32.VRAM (R198). -/
  | write32Vram (addr : Word) (data : Word)
  /-- WRITE8.OAM (R199). -/
  | write8Oam (addr : Word) (data : Byte)
  /-- WRITE16.OAM (R200). -/
  | write16Oam (addr : Word) (data : Half)
  /-- WRITE32.OAM (R201). -/
  | write32Oam (addr : Word) (data : Word)
  /-- DRAW_END (R240), the callback of the PPU's event at the end of a draw phase. -/
  | drawEnd
  /-- HBLANK_END (R241), the callback of the PPU's event at the end of a horizontal blank. -/
  | hblankEnd
  /-- END_OF_TIME (R244), the sentinel's. -/
  | endOfTime
  /-- EXTERNAL (R245): `B` the tag of the event a collaborator scheduled. -/
  | external (k : Word)
  deriving DecidableEq, Repr

/-- CLASS EVENT (R111): the codes that name what a fired event executes. A host never issues one (R118). -/
def Instr.isEvent : Instr → Bool
  | .drawEnd | .hblankEnd | .endOfTime | .external _ => true
  | .schedule _ _ | .cancel _ | .advance _ | .now | .next | .remain => false
  | .read8Mmio _ | .read16Mmio _ | .read32Mmio _ | .read8Pram _ | .read16Pram _ | .read32Pram _ | .read8Vram _ | .read16Vram _ | .read32Vram _ | .read8Oam _ | .read16Oam _ | .read32Oam _ => false
  | .write8Mmio _ _ | .write16Mmio _ _ | .write32Mmio _ _ | .write8Pram _ _ | .write16Pram _ _ | .write32Pram _ _ | .write8Vram _ _ | .write16Vram _ _ | .write32Vram _ _ | .write8Oam _ _ | .write16Oam _ _ | .write32Oam _ _ => false

/-- READ and WRITE (R111): the bus entry points. -/
def Instr.isBus : Instr → Bool
  | .read8Mmio _ | .read16Mmio _ | .read32Mmio _ | .read8Pram _ | .read16Pram _ | .read32Pram _ | .read8Vram _ | .read16Vram _ | .read32Vram _ | .read8Oam _ | .read16Oam _ | .read32Oam _ => true
  | .write8Mmio _ _ | .write16Mmio _ _ | .write32Mmio _ _ | .write8Pram _ _ | .write16Pram _ _ | .write32Pram _ _ | .write8Vram _ _ | .write16Vram _ _ | .write32Vram _ _ | .write8Oam _ _ | .write16Oam _ _ | .write32Oam _ _ => true
  | .schedule _ _ | .cancel _ | .advance _ | .now | .next | .remain => false
  | .drawEnd | .hblankEnd | .endOfTime | .external _ => false

end Sys2Proof
end

