-- ==== Sys2Proof/WellFormed.lean ====
section
/-! DEFINITION. Which instructions are commands of this block (spec 20_memory.md R81, 30_encoding.md R113, R118): the address of a READ or
WRITE must decode to the space its SUB names. What a well-formed command does is in Machine/; the meaning of one that is not well
formed is the refusal of R118. -/

namespace Sys2Proof

/-- The four host-addressable spaces (R80). -/
inductive Space where
  | mmio
  | pram
  | vram
  | oam
  deriving DecidableEq, Repr

/-- The value of `addr[31:24]` that selects a space (R81). -/
def Space.topByte : Space → BitVec 8
  | .mmio => 0x04#8
  | .pram => 0x05#8
  | .vram => 0x06#8
  | .oam => 0x07#8

/-- The largest `addr[23:0]` of a space: the register bank ends at 0x57 (R81, R82); the other spaces fill their range (R83 to R85). -/
def Space.lastOffset : Space → Nat
  | .mmio => 0x57
  | .pram | .vram | .oam => 0xFFFFFF

/-- Whether a bus address decodes to a space of this block (R81). -/
def Space.holds (sp : Space) (addr : Word) : Bool :=
  addr.extractLsb' 24 8 == sp.topByte && decide ((addr.extractLsb' 0 24).toNat ≤ sp.lastOffset)

/-- The command is one of this block (R118): its address, if it has one, decodes to the space its code names (`A[31:28] = 0` and
`SUB = A[27:24]` follow from the top byte). The other conditions of R118 are `decode`'s. -/
def Instr.wf : Instr → Bool
  | .schedule _ _ | .cancel _ | .advance _ | .now | .next | .remain => true
  | .read8Mmio a | .read16Mmio a | .read32Mmio a => Space.mmio.holds a
  | .read8Pram a | .read16Pram a | .read32Pram a => Space.pram.holds a
  | .read8Vram a | .read16Vram a | .read32Vram a => Space.vram.holds a
  | .read8Oam a | .read16Oam a | .read32Oam a => Space.oam.holds a
  | .write8Mmio a _ | .write16Mmio a _ | .write32Mmio a _ => Space.mmio.holds a
  | .write8Pram a _ | .write16Pram a _ | .write32Pram a _ => Space.pram.holds a
  | .write8Vram a _ | .write16Vram a _ | .write32Vram a _ => Space.vram.holds a
  | .write8Oam a _ | .write16Oam a _ | .write32Oam a _ => Space.oam.holds a
  | .drawEnd | .hblankEnd | .endOfTime | .external _ => true

end Sys2Proof
end

