-- ==== Sys2Proof/Decode.lean ====
section
/-! DEFINITION. The decoder and the encoder of commands (spec 30_encoding.md R110 to R118), both written from the opcode map of R116.
`decode` is total on every triple and names what it refuses; that an address belongs to the space is `Instr.wf`. -/

namespace Sys2Proof

/-- Why a triple is not a command of this block (R118). Each is the refusal `BadCommand` when the command is issued. -/
inductive DecodeError where
  /-- The code is not one of the 34 legal codes (R116, R118). -/
  | reservedCode
  /-- An operand `A` that must be 0 is not (R112; for EVENT the opcode table's row, log entry 13). -/
  | operandANotZero
  /-- An operand `B` that must be 0 is not (R112; for READ and EVENT the opcode table's row, log entry 13). -/
  | operandBNotZero
  /-- `A[63:32]` of a READ or WRITE is not 0 (R113). -/
  | addressHighNotZero
  /-- The unused high bits of `B` of a WRITE are not 0 (R113). -/
  | dataTooWide
  deriving DecidableEq, Repr

/-- A command whose two operands must be 0 (R112; for DRAW_END, HBLANK_END and END_OF_TIME the opcode table's rows, log entry 13). -/
def decodeNone (c : Command) (i : Instr) : Except DecodeError Instr :=
  if c.a ≠ 0 then .error .operandANotZero
  else if c.b ≠ 0 then .error .operandBNotZero
  else .ok i

/-- A command of operand `A` only. -/
def decodeA (c : Command) (mk : BitVec 64 → Instr) : Except DecodeError Instr :=
  if c.b ≠ 0 then .error .operandBNotZero else .ok (mk c.a)

/-- A callback of operand `B` only (R115); that `A` must be 0 is the opcode table's row (log entry 13). -/
def decodeB (c : Command) (mk : Word → Instr) : Except DecodeError Instr :=
  if c.a ≠ 0 then .error .operandANotZero else .ok (mk c.b)

/-- A READ: the address is `A[31:0]` (R113); that `B` must be 0 is the opcode table's rows (log entry 13). -/
def decodeRead (c : Command) (mk : Word → Instr) : Except DecodeError Instr :=
  if c.a.extractLsb' 32 32 ≠ 0 then .error .addressHighNotZero
  else if c.b ≠ 0 then .error .operandBNotZero
  else .ok (mk (c.a.extractLsb' 0 32))

/-- A WRITE of width 8: the data is `B[7:0]` (R113). -/
def decodeWrite8 (c : Command) (mk : Word → Byte → Instr) : Except DecodeError Instr :=
  if c.a.extractLsb' 32 32 ≠ 0 then .error .addressHighNotZero
  else if c.b.extractLsb' 8 24 ≠ 0 then .error .dataTooWide
  else .ok (mk (c.a.extractLsb' 0 32) (c.b.extractLsb' 0 8))

/-- A WRITE of width 16: the data is `B[15:0]` (R113). -/
def decodeWrite16 (c : Command) (mk : Word → Half → Instr) : Except DecodeError Instr :=
  if c.a.extractLsb' 32 32 ≠ 0 then .error .addressHighNotZero
  else if c.b.extractLsb' 16 16 ≠ 0 then .error .dataTooWide
  else .ok (mk (c.a.extractLsb' 0 32) (c.b.extractLsb' 0 16))

/-- A WRITE of width 32: the data is `B` (R113). -/
def decodeWrite32 (c : Command) (mk : Word → Word → Instr) : Except DecodeError Instr :=
  if c.a.extractLsb' 32 32 ≠ 0 then .error .addressHighNotZero
  else .ok (mk (c.a.extractLsb' 0 32) c.b)

/-- The decoder (R110 to R118): the 34 legal codes of R116, every other code reserved. -/
def decode (c : Command) : Except DecodeError Instr :=
  match c.code.toNat with
  | 0x1000 => .ok (.schedule c.a c.b)
  | 0x1100 => decodeA c .cancel
  | 0x1200 => decodeA c .advance
  | 0x1300 => decodeNone c .now
  | 0x1400 => decodeNone c .next
  | 0x1500 => decodeNone c .remain
  | 0x2400 => decodeRead c .read8Mmio
  | 0x2401 => decodeRead c .read16Mmio
  | 0x2402 => decodeRead c .read32Mmio
  | 0x2500 => decodeRead c .read8Pram
  | 0x2501 => decodeRead c .read16Pram
  | 0x2502 => decodeRead c .read32Pram
  | 0x2600 => decodeRead c .read8Vram
  | 0x2601 => decodeRead c .read16Vram
  | 0x2602 => decodeRead c .read32Vram
  | 0x2700 => decodeRead c .read8Oam
  | 0x2701 => decodeRead c .read16Oam
  | 0x2702 => decodeRead c .read32Oam
  | 0x3400 => decodeWrite8 c .write8Mmio
  | 0x3401 => decodeWrite16 c .write16Mmio
  | 0x3402 => decodeWrite32 c .write32Mmio
  | 0x3500 => decodeWrite8 c .write8Pram
  | 0x3501 => decodeWrite16 c .write16Pram
  | 0x3502 => decodeWrite32 c .write32Pram
  | 0x3600 => decodeWrite8 c .write8Vram
  | 0x3601 => decodeWrite16 c .write16Vram
  | 0x3602 => decodeWrite32 c .write32Vram
  | 0x3700 => decodeWrite8 c .write8Oam
  | 0x3701 => decodeWrite16 c .write16Oam
  | 0x3702 => decodeWrite32 c .write32Oam
  | 0x4000 => decodeNone c .drawEnd
  | 0x4100 => decodeNone c .hblankEnd
  | 0x4200 => decodeNone c .endOfTime
  | 0x4300 => decodeB c .external
  | _ => .error .reservedCode

/-- The encoder: the triple of an instruction (R110 to R116). -/
def encode : Instr → Command
  | .schedule d k => ⟨0x1000#16, d, k⟩
  | .cancel h => ⟨0x1100#16, h, 0#32⟩
  | .advance n => ⟨0x1200#16, n, 0#32⟩
  | .now => ⟨0x1300#16, 0#64, 0#32⟩
  | .next => ⟨0x1400#16, 0#64, 0#32⟩
  | .remain => ⟨0x1500#16, 0#64, 0#32⟩
  | .read8Mmio a => ⟨0x2400#16, a.setWidth 64, 0#32⟩
  | .read16Mmio a => ⟨0x2401#16, a.setWidth 64, 0#32⟩
  | .read32Mmio a => ⟨0x2402#16, a.setWidth 64, 0#32⟩
  | .read8Pram a => ⟨0x2500#16, a.setWidth 64, 0#32⟩
  | .read16Pram a => ⟨0x2501#16, a.setWidth 64, 0#32⟩
  | .read32Pram a => ⟨0x2502#16, a.setWidth 64, 0#32⟩
  | .read8Vram a => ⟨0x2600#16, a.setWidth 64, 0#32⟩
  | .read16Vram a => ⟨0x2601#16, a.setWidth 64, 0#32⟩
  | .read32Vram a => ⟨0x2602#16, a.setWidth 64, 0#32⟩
  | .read8Oam a => ⟨0x2700#16, a.setWidth 64, 0#32⟩
  | .read16Oam a => ⟨0x2701#16, a.setWidth 64, 0#32⟩
  | .read32Oam a => ⟨0x2702#16, a.setWidth 64, 0#32⟩
  | .write8Mmio a d => ⟨0x3400#16, a.setWidth 64, d.setWidth 32⟩
  | .write16Mmio a d => ⟨0x3401#16, a.setWidth 64, d.setWidth 32⟩
  | .write32Mmio a d => ⟨0x3402#16, a.setWidth 64, d⟩
  | .write8Pram a d => ⟨0x3500#16, a.setWidth 64, d.setWidth 32⟩
  | .write16Pram a d => ⟨0x3501#16, a.setWidth 64, d.setWidth 32⟩
  | .write32Pram a d => ⟨0x3502#16, a.setWidth 64, d⟩
  | .write8Vram a d => ⟨0x3600#16, a.setWidth 64, d.setWidth 32⟩
  | .write16Vram a d => ⟨0x3601#16, a.setWidth 64, d.setWidth 32⟩
  | .write32Vram a d => ⟨0x3602#16, a.setWidth 64, d⟩
  | .write8Oam a d => ⟨0x3700#16, a.setWidth 64, d.setWidth 32⟩
  | .write16Oam a d => ⟨0x3701#16, a.setWidth 64, d.setWidth 32⟩
  | .write32Oam a d => ⟨0x3702#16, a.setWidth 64, d⟩
  | .drawEnd => ⟨0x4000#16, 0#64, 0#32⟩
  | .hblankEnd => ⟨0x4100#16, 0#64, 0#32⟩
  | .endOfTime => ⟨0x4200#16, 0#64, 0#32⟩
  | .external k => ⟨0x4300#16, 0#64, k⟩

/-- A command as one number (log entry 2, DESIGN CHOICE: the spec gives the triple and no layout of it): `code` in bits 15:0, `A` in bits
79:16, `B` in bits 111:80. -/
def Command.ofBits (w : Nat) : Command :=
  ⟨BitVec.ofNat 16 w, BitVec.ofNat 64 (w >>> 16), BitVec.ofNat 32 (w >>> 80)⟩

/-- The instruction the decoder reads from the opcode table's bits: `nbits` bits of `w`, and 0 above them. -/
def decodeTableWord (nbits w : Nat) : Option Instr :=
  match decode (Command.ofBits (w % 2 ^ nbits)) with
  | .ok i => some i
  | .error _ => none

end Sys2Proof
end

