-- ==== Sys2Proof/Machine/State.lean ====
section
/-! DEFINITION. The state of the block as plain data (spec 10_state.md R20 to R56), the reasons a step can stop, and the state after reset.
Grouped as the spec groups it: the scheduler (section 2), the register bank (section 3), the PPU's position and references (section 4,
R46 to R48), the per-scanline state (R49, R50), the three banks (section 5), the framebuffer (section 6), the trace (R7). Three groups are the
model's own and no state of the spec's: the parameters (R8), the host's inputs (R6, R21: "inputs of the step relation"), and the
count of free values drawn. -/

namespace Sys2Proof.Machine

/-- Data by index, sparse: the listed entries strictly rising in index, none equal to the value an unlisted index reads as
(`Sparse.wf`, Machine/Sparse.lean). -/
abbrev Sparse (α : Type) := List (Nat × α)

/-- A memory bank: bytes by offset, an unlisted offset reading as 0, the default `MEM_INIT` (R51 to R53, log entry 6). -/
abbrev Memory := Sparse Byte

/-- A frame: colours by row-major index `H_VISIBLE * y + x` (R54, R310), an unlisted pixel reading as 0, the default `FB_INIT`. -/
abbrev Frame := Sparse Colour

/-- One value for each background. -/
structure PerBg (α : Type) where
  bg0 : α
  bg1 : α
  bg2 : α
  bg3 : α
  deriving DecidableEq, Repr

/-- One value for each of the two affine sets, `k` in {2, 3}. -/
structure PerAff (α : Type) where
  k2 : α
  k3 : α
  deriving DecidableEq, Repr

/-- The background layers. -/
inductive Bg where
  | bg0
  | bg1
  | bg2
  | bg3
  deriving DecidableEq, Repr

/-- The affine sets. -/
inductive Aff where
  | k2
  | k3
  deriving DecidableEq, Repr

/-- The tag of an event names its callback (R22). -/
inductive Tag where
  | drawEnd
  | hblankEnd
  | endOfTime
  | external (k : Word)
  deriving DecidableEq, Repr

/-- An event (R22): when it is due, what it runs, and its current heap position. -/
structure Event where
  ts : Timestamp
  tag : Tag
  slot : Nat
  deriving DecidableEq, Repr

/-- The scheduler (R22 to R27). `heap` lists the live entries `heap[0..n-1]`, so `n` is its length (R23). `events` holds the live
events by handle. `target` is the model's own field: the target of the ADVANCE in progress, a local of R159's pseudocode. -/
structure Sched where
  now : Timestamp
  events : Sparse (Option Event)
  heap : List Nat
  nextHandle : Nat
  inAdvance : Bool
  target : Timestamp
  firing : Option Nat
  deriving DecidableEq, Repr

/-- The fatal errors with the value each records (R330 to R336). -/
inductive FatalReason where
  /-- Code 1 (R332): the tag that could not be inserted. -/
  | capacityExceeded (tag : Tag)
  /-- Code 2 (R333): the operand. -/
  | timestampOverflow (operand : Timestamp)
  /-- Code 3 (R330): `now`, which is the sentinel's timestamp. -/
  | endOfTime (at_ : Timestamp)
  /-- Code 4 (R335): the handle. -/
  | cancelWhileFiring (handle : Nat)
  /-- Code 5 (R336). -/
  | nestedAdvance
  deriving DecidableEq, Repr

/-- The refusals of a command (R334), codes 1 and 2. They are outputs of a run that goes on, not outcomes of a step. -/
inductive RefuseReason where
  | badCommand
  | badHandle
  deriving DecidableEq, Repr

/-- The register bank (R29 to R43), each register as it is stored; VCOUNT is the PPU's `vcount` (R48). -/
structure Regs where
  dispcnt : Half
  dispstat : Half
  bgcnt : PerBg Half
  hofs : PerBg Half
  vofs : PerBg Half
  pa : PerAff Half
  pb : PerAff Half
  pc : PerAff Half
  pd : PerAff Half
  refX : PerAff Word
  refY : PerAff Word
  win0h : Half
  win1h : Half
  win0v : Half
  win1v : Half
  winin : Half
  winout : Half
  mosaic : Half
  bldcnt : Half
  bldalpha : Half
  bldy : Half
  deriving DecidableEq, Repr

/-- The phase of a line (R48). -/
inductive Phase where
  | draw
  | hblank
  deriving DecidableEq, Repr

/-- The PPU's position and its per-frame references (R46 to R48); `next_x` is with the line (below). -/
structure Ppu where
  vcount : Nat
  phase : Phase
  ls : Timestamp
  ppuEv : Nat
  ix : PerAff Word
  iy : PerAff Word
  mx : PerAff Word
  my : PerAff Word
  deriving DecidableEq, Repr

/-- An entry of the object buffer (R50). -/
structure ObjEntry where
  opaque_ : Bool
  color : Colour
  prio : BitVec 2
  semi : Bool
  deriving DecidableEq, Repr

/-- The entry a line starts with (R263, R274). -/
def ObjEntry.clear : ObjEntry := ⟨false, 0#15, 3#2, false⟩

/-- The per-scanline state: `next_x` (R48), the renderer's (R49) and the compositor's (R50). A held sample `none` is TRANSPARENT. -/
structure Line where
  nextX : Nat
  hold : PerBg (Option Colour)
  ax : PerAff Word
  ay : PerAff Word
  objbuf : Sparse ObjEntry
  objwin : Sparse Bool
  win0 : Sparse Bool
  win1 : Sparse Bool
  deriving DecidableEq, Repr

/-- What a read shows of some bits: a value the block drives, or NOT_DRIVEN with what the host then sees, a free value (R92). -/
inductive Lane (w : Nat) where
  | driven (v : BitVec w)
  | notDriven (seen : BitVec w)
  deriving DecidableEq, Repr

/-- The result of a READ (R113): of the access width, NOT_DRIVEN by halfword. -/
inductive ReadResult where
  | r8 (v : Lane 8)
  | r16 (v : Lane 16)
  | r32 (lo hi : Lane 16)
  deriving DecidableEq, Repr

/-- The interrupt kinds (R339). -/
inductive Irq where
  | vblank
  | hblank
  | vcount
  deriving DecidableEq, Repr

/-- The DMA notification kinds (R343). -/
inductive Dma where
  | hblank
  | vblank
  deriving DecidableEq, Repr

/-- The outputs of a run (R7, R334). Those that 95_test_vectors.md writes with `@t` carry the `now` they are emitted at (log entry
12). The firing of an event is no output: R111's "they appear in the trace" of EVENT codes adds none to R7's list (log entry 26). -/
inductive Output where
  /-- The handle a SCHEDULE returns. -/
  | handle (h : Nat)
  /-- The timestamp a NOW, NEXT or REMAIN returns. -/
  | timestamp (t : Timestamp)
  /-- The value a READ returns. -/
  | read (r : ReadResult)
  | irqRequest (kind : Irq) (t : Timestamp)
  | dmaNotify (kind : Dma) (t : Timestamp)
  | present (frame : Frame) (t : Timestamp)
  | fatal (reason : FatalReason) (t : Timestamp)
  | refused (reason : RefuseReason)
  deriving DecidableEq, Repr

/-- The host's inputs (R6, R20: "inputs of the step relation"), the model's own fields: the commands it has yet to issue, the action of
each external tag (`EXTERNAL_ACTION`, R245; an unlisted tag has the empty sequence), and its response to each call of a PPU handler to come
(interrupt request, DMA notification, frame hand-off), in order (R6, R247; no response once the list is used up). -/
structure HostInput where
  commands : List Command
  externalAction : List (Word × List Command)
  responses : List (List Command)
  deriving DecidableEq, Repr

/-- The whole state (R20). `params`, `host` and `draws` are the model's own. -/
structure State where
  sched : Sched
  fatal : Option FatalReason
  regs : Regs
  ppu : Ppu
  line : Line
  pram : Memory
  oam : Memory
  vram : Memory
  fb : Frame
  trace : List Output
  params : Params
  host : HostInput
  draws : Nat
  deriving DecidableEq, Repr

/-- The reasons a step stops. Both are "internal invariant violations [that] are not caught or retried; they terminate the
simulation" (R331), in states no run reaches. SAFE: the spec's own fatal errors are not among them (they are next states). -/
inductive Fault where
  /-- NEXT, REMAIN or the ADVANCE loop finds the heap empty, without the sentinel that R25 says is always there. Safe. -/
  | emptyHeap
  /-- The callback to run belongs to a handle with no live event, against R156. Safe. -/
  | danglingFiring
  deriving DecidableEq, Repr

/-- The reasons a step is refused. The spec's own refusals (R334) are not among them: they are outputs of a run that goes on. -/
inductive Refusal where
  /-- Raised by an arm of `exec` whose instruction has no meaning yet; no arm does. Safe. -/
  | notModelled (mnemonic : String)
  deriving DecidableEq, Repr

/-- Every register at 0 (R29, R56). -/
def Regs.zero : Regs where
  dispcnt := 0#16
  dispstat := 0#16
  bgcnt := ⟨0#16, 0#16, 0#16, 0#16⟩
  hofs := ⟨0#16, 0#16, 0#16, 0#16⟩
  vofs := ⟨0#16, 0#16, 0#16, 0#16⟩
  pa := ⟨0#16, 0#16⟩
  pb := ⟨0#16, 0#16⟩
  pc := ⟨0#16, 0#16⟩
  pd := ⟨0#16, 0#16⟩
  refX := ⟨0#32, 0#32⟩
  refY := ⟨0#32, 0#32⟩
  win0h := 0#16
  win1h := 0#16
  win0v := 0#16
  win1v := 0#16
  winin := 0#16
  winout := 0#16
  mosaic := 0#16
  bldcnt := 0#16
  bldalpha := 0#16
  bldy := 0#16

/-- The cleared line of R263, with the accumulators at 0. -/
def Line.zero : Line where
  nextX := 0
  hold := ⟨none, none, none, none⟩
  ax := ⟨0#32, 0#32⟩
  ay := ⟨0#32, 0#32⟩
  objbuf := []
  objwin := []
  win0 := []
  win1 := []

/-- The state after reset (R56, R360) under given parameters, host inputs, `MEM_INIT` and `FB_INIT`: the sentinel is handle 0, and the
PPU's first DRAW_END, due at CYCLES_DRAW, is handle 1 at the root. A reset in the middle of a run is this again (R361).
`Machine.resetProcedure` (Reset.lean) is R360 step by step; the obligation ResetProcedure says that the two agree. -/
def State.resetWith (params : Params) (host : HostInput) (pram oam vram : Memory) (fb : Frame) : State where
  sched :=
    { now := 0#64
      events :=
        [(0, some ⟨params.tsMax, .endOfTime, 1⟩), (1, some ⟨BitVec.ofNat 64 params.cyclesDraw, .drawEnd, 0⟩)]
      heap := [1, 0]
      nextHandle := 2
      inAdvance := false
      target := 0#64
      firing := none }
  fatal := none
  regs := Regs.zero
  ppu :=
    { vcount := 0
      phase := .draw
      ls := 0#64
      ppuEv := 1
      ix := ⟨0#32, 0#32⟩
      iy := ⟨0#32, 0#32⟩
      mx := ⟨0#32, 0#32⟩
      my := ⟨0#32, 0#32⟩ }
  line := Line.zero
  pram := pram
  oam := oam
  vram := vram
  fb := fb
  trace := []
  params := params
  host := host
  draws := 0

/-- The machine right after reset (R56, R360): the default parameters, memory and framebuffer zero, and no host input yet. -/
def State.reset : State := State.resetWith Params.default ⟨[], [], []⟩ [] [] [] []

end Sys2Proof.Machine
end

