-- ==== Sys2Proof/Machine/Sparse.lean ====
section
/-! DEFINITION. Reading and writing sparse data (memory banks, the framebuffer, the line buffers, the event table), in canonical form. -/

namespace Sys2Proof.Machine

/-- The canonical form: indexes strictly rising, no entry equal to what an unlisted index reads as. -/
abbrev Sparse.wf {α : Type} (d : α) (m : Sparse α) : Prop :=
  m.Pairwise (fun p q => p.1 < q.1) ∧ ∀ p ∈ m, p.2 ≠ d

/-- The value at index `k`; an unlisted index reads as `d`. -/
def Sparse.get {α : Type} (d : α) : Sparse α → Nat → α
  | [], _ => d
  | (k', v) :: m, k => if k < k' then d else if k = k' then v else Sparse.get d m k

/-- The data with `v` at index `k`. Storing `d` removes the entry. (On data out of order the entries that follow and lie at or
below `k` are dropped as well: `get` never shows them, so the laws of `get` and `set` need no premise.) -/
def Sparse.set {α : Type} [DecidableEq α] (d : α) : Sparse α → Nat → α → Sparse α
  | [], k, v => if v = d then [] else [(k, v)]
  | (k', v') :: m, k, v =>
    if k < k' then (if v = d then (k', v') :: m else (k, v) :: (k', v') :: m)
    else if k = k' then (if v = d then m.dropWhile (fun p => p.1 ≤ k) else (k, v) :: m)
    else (k', v') :: Sparse.set d m k v

end Sys2Proof.Machine
end

