-- ==== Sys2Proof/Machine/Operands.lean ====
section
/-! DEFINITION. The operand forms and the fields (spec 00_scope.md R10, R11; 20_memory.md R81 to R88; 10_state.md R30 to R43): bit fields, sign
extension, byte lanes, alignment, the offsets of each space, the named fields of the registers. -/

namespace Sys2Proof.Machine

/-! ### Fields and lanes -/

/-- `v[lo+len-1 : lo]`, as an unsigned number (R10). -/
def field {n : Nat} (v : BitVec n) (lo len : Nat) : Nat := (v.extractLsb' lo len).toNat

/-- `v[i]` (R10). -/
def bit {n : Nat} (v : BitVec n) (i : Nat) : Bool := v.getLsbD i

/-- The low byte of a halfword (R87). -/
def loByte (h : Half) : Byte := h.extractLsb' 0 8

/-- The high byte of a halfword (R87). -/
def hiByte (h : Half) : Byte := h.extractLsb' 8 8

/-- The low half of a word (R87). -/
def loHalf (w : Word) : Half := w.extractLsb' 0 16

/-- The high half of a word (R87). -/
def hiHalf (w : Word) : Half := w.extractLsb' 16 16

/-- `lane(h, o)` of 41_bus_access.md: the byte of a halfword that offset `o` selects (R87). -/
def byteLane (h : Half) (o : Nat) : Byte := if o % 2 = 1 then hiByte h else loByte h

/-- The halfword `{b, b}` of a replicated byte write (R89, R193). -/
def replicate (b : Byte) : Half := b ++ b

/-- The byte-lane merge of a register byte write (R203). -/
def mergeByte (cur : Half) (o : Nat) (b : Byte) : Half :=
  if o % 2 = 1 then b ++ loByte cur else hiByte cur ++ b

/-- `sext_32` of a 16-bit matrix coefficient (R130). -/
def sextCoef (v : Half) : Word := v.signExtend 32

/-- `sext_32(w[27:0])`, the stored value of a reference point (R37, R130). -/
def sextRef (w : Word) : Word := (w.extractLsb' 0 28).signExtend 32

/-- The integer texel coordinate of an accumulator: `v >> 8`, arithmetic (R130). -/
def texelOf (v : Word) : Int := v.toInt >>> (8 : Nat)

/-! ### Addresses -/

/-- The halfword an access at `o` uses: `o & ~1` (R88). -/
def alignHalf (o : Nat) : Nat := o / 2 * 2

/-- The word an access at `o` uses: `o & ~3` (R88). -/
def alignWord (o : Nat) : Nat := o / 4 * 4

/-- The register offset: `addr[23:0]` (R82). -/
def mmioOffset (addr : Word) : Nat := field addr 0 24

/-- The PRAM and OAM offset: `addr[9:0]` (R83, R84). -/
def bankOffset (addr : Word) : Nat := field addr 0 10

/-- The position in VRAM's 128 KiB window: `addr[16:0]` (R85). -/
def vramWindow (addr : Word) : Nat := field addr 0 17

/-- The VRAM offset of a window position (R85); `none` is HOLE. -/
def vramOffset (mode o : Nat) : Option Nat :=
  if 0x18000 ≤ o then
    if 3 ≤ mode ∧ (o / 0x4000) % 2 = 0 then none else some (o - 0x8000)
  else some o

/-- `BG_LIMIT(mode)` (R86). -/
def bgLimit (mode : Nat) : Nat := if mode ≤ 2 then 0x10000 else 0x14000

/-! ### Values per layer -/

/-- The value of one background. -/
def PerBg.get {α : Type} (p : PerBg α) : Bg → α
  | .bg0 => p.bg0
  | .bg1 => p.bg1
  | .bg2 => p.bg2
  | .bg3 => p.bg3

/-- The values with one background's replaced. -/
def PerBg.set {α : Type} (p : PerBg α) (i : Bg) (v : α) : PerBg α :=
  match i with
  | .bg0 => { p with bg0 := v }
  | .bg1 => { p with bg1 := v }
  | .bg2 => { p with bg2 := v }
  | .bg3 => { p with bg3 := v }

/-- The value of one affine set. -/
def PerAff.get {α : Type} (p : PerAff α) : Aff → α
  | .k2 => p.k2
  | .k3 => p.k3

/-- The values with one affine set's replaced. -/
def PerAff.set {α : Type} (p : PerAff α) (k : Aff) (v : α) : PerAff α :=
  match k with
  | .k2 => { p with k2 := v }
  | .k3 => { p with k3 := v }

/-- Two sets of values combined set by set. -/
def PerAff.zipWith {α β γ : Type} (f : α → β → γ) (p : PerAff α) (q : PerAff β) : PerAff γ :=
  ⟨f p.k2 q.k2, f p.k3 q.k3⟩

/-- The number of a background: its layer number (R14). -/
def Bg.index : Bg → Nat
  | .bg0 => 0
  | .bg1 => 1
  | .bg2 => 2
  | .bg3 => 3

/-- The background an affine set belongs to. -/
def Aff.bg : Aff → Bg
  | .k2 => .bg2
  | .k3 => .bg3

/-! ### Register fields -/

/-- DISPCNT.BG_MODE (R30). -/
def Regs.bgMode (r : Regs) : Nat := field r.dispcnt 0 3

/-- DISPCNT.FRAME_SELECT times 0xA000: the base of the bitmap frame (R30, R129). -/
def Regs.frameBase (r : Regs) : Nat := if bit r.dispcnt 4 then 0xA000 else 0

/-- DISPCNT.OBJ_1D (R30). -/
def Regs.obj1d (r : Regs) : Bool := bit r.dispcnt 6

/-- DISPCNT.FORCED_BLANK (R30). -/
def Regs.forcedBlank (r : Regs) : Bool := bit r.dispcnt 7

/-- DISPCNT.BGi_EN (R30). -/
def Regs.bgEn (r : Regs) (i : Bg) : Bool := bit r.dispcnt (8 + i.index)

/-- DISPCNT.OBJ_EN (R30). -/
def Regs.objEn (r : Regs) : Bool := bit r.dispcnt 12

/-- DISPCNT.WIN0_EN (R30). -/
def Regs.win0En (r : Regs) : Bool := bit r.dispcnt 13

/-- DISPCNT.WIN1_EN (R30). -/
def Regs.win1En (r : Regs) : Bool := bit r.dispcnt 14

/-- DISPCNT.OBJWIN_EN (R30). -/
def Regs.objwinEn (r : Regs) : Bool := bit r.dispcnt 15

/-- DISPSTAT.LYC (R31). -/
def Regs.lyc (r : Regs) : Nat := field r.dispstat 8 8

/-- BGiCNT.MOSAIC (R33, R34). -/
def Regs.bgMosaic (r : Regs) (i : Bg) : Bool := bit (r.bgcnt.get i) 6

/-- BGiCNT.PRIORITY (R33, R34). -/
def Regs.bgPriority (r : Regs) (i : Bg) : BitVec 2 := (r.bgcnt.get i).extractLsb' 0 2

/-- The background mosaic block width, MOSAIC.BG_H + 1 (R40). -/
def Regs.bgMosaicW (r : Regs) : Nat := field r.mosaic 0 4 + 1

/-- The background mosaic block height, MOSAIC.BG_V + 1 (R40). -/
def Regs.bgMosaicH (r : Regs) : Nat := field r.mosaic 4 4 + 1

/-- The object mosaic block width, MOSAIC.OBJ_H + 1 (R40). -/
def Regs.objMosaicW (r : Regs) : Nat := field r.mosaic 8 4 + 1

/-- The object mosaic block height, MOSAIC.OBJ_V + 1 (R40). -/
def Regs.objMosaicH (r : Regs) : Nat := field r.mosaic 12 4 + 1

end Sys2Proof.Machine
end

