-- ==== Sys2Proof/Machine/Flags.lean ====
section
/-! DEFINITION. The flags (spec 10_state.md R31, R55): the three DISPSTAT status bits, what sets and clears each (42_scanline_timing.md R240 to
R243), and the three interrupt enables. The block has no condition codes; the dispatch flags and the fatal mark are fields of State. -/

namespace Sys2Proof.Machine

/-- A halfword with bit `i` at `b`. -/
def setBit (h : Half) (i : Nat) (b : Bool) : Half :=
  if b then h ||| BitVec.twoPow 16 i else h &&& ~~~ BitVec.twoPow 16 i

/-- DISPSTAT.VBLANK, bit 0 (R31). -/
def Regs.vblank (r : Regs) : Bool := bit r.dispstat 0

/-- DISPSTAT.HBLANK, bit 1 (R31). -/
def Regs.hblank (r : Regs) : Bool := bit r.dispstat 1

/-- DISPSTAT.VCOUNT_MATCH, bit 2 (R31). -/
def Regs.vcountMatch (r : Regs) : Bool := bit r.dispstat 2

/-- DISPSTAT.VBLANK_IRQ_EN, bit 3 (R31). -/
def Regs.vblankIrqEn (r : Regs) : Bool := bit r.dispstat 3

/-- DISPSTAT.HBLANK_IRQ_EN, bit 4 (R31). -/
def Regs.hblankIrqEn (r : Regs) : Bool := bit r.dispstat 4

/-- DISPSTAT.VCOUNT_IRQ_EN, bit 5 (R31). -/
def Regs.vcountIrqEn (r : Regs) : Bool := bit r.dispstat 5

/-- `DISPSTAT.VBLANK <- b` (R241, R243). -/
def Regs.setVblank (r : Regs) (b : Bool) : Regs := { r with dispstat := setBit r.dispstat 0 b }

/-- `DISPSTAT.HBLANK <- b` (R240, R241). -/
def Regs.setHblank (r : Regs) (b : Bool) : Regs := { r with dispstat := setBit r.dispstat 1 b }

/-- `DISPSTAT.VCOUNT_MATCH <- b` (R242). -/
def Regs.setVcountMatch (r : Regs) (b : Bool) : Regs := { r with dispstat := setBit r.dispstat 2 b }

/-- The writable bits of DISPSTAT, 5:3 and 15:8 (R29, R207). -/
def dispstatWritable : Half := 0xFF38#16

/-- The bits a write of DISPSTAT keeps: the status bits 2:0 and the unused bits 7:6 (R207). -/
def dispstatKept : Half := 0x00C7#16

/-- The bits a read of DISPSTAT shows; bits 7:6 read 0 (R29, R180). -/
def dispstatRead : Half := 0xFF3F#16

end Sys2Proof.Machine
end

