-- ==== Sys2Proof/Machine/Ops.lean ====
section
/-! DEFINITION. The shared operations over the state: outputs, the refusal of a command (spec 60_exceptions.md R334), raising a fatal error
(R331, the one "exception" of the block, R338: it has no trap entry and no return), the banks (20_memory.md R87), free values (R92), and the
sequencing that a fatal error stops. -/

namespace Sys2Proof.Machine

/-- The outcome of a step of this machine. -/
abbrev Result : Type := Host.Outcome State Fault Refusal

/-! ### One group replaced -/

/-- The state with its scheduler replaced. -/
def State.setSched (s : State) (c : Sched) : State := { s with sched := c }

/-- The state with its register bank replaced. -/
def State.setRegs (s : State) (r : Regs) : State := { s with regs := r }

/-- The state with its PPU position and references replaced. -/
def State.setPpu (s : State) (p : Ppu) : State := { s with ppu := p }

/-- The state with its per-scanline state replaced. -/
def State.setLine (s : State) (l : Line) : State := { s with line := l }

/-- The state with PRAM replaced. -/
def State.setPram (s : State) (m : Memory) : State := { s with pram := m }

/-- The state with OAM replaced. -/
def State.setOam (s : State) (m : Memory) : State := { s with oam := m }

/-- The state with VRAM replaced. -/
def State.setVram (s : State) (m : Memory) : State := { s with vram := m }

/-- The state with its framebuffer replaced. -/
def State.setFb (s : State) (f : Frame) : State := { s with fb := f }

/-- The state with the host's inputs replaced. -/
def State.setHost (s : State) (h : HostInput) : State := { s with host := h }

/-- The state after `n` more free values are drawn. -/
def State.drew (s : State) (n : Nat) : State := { s with draws := s.draws + n }

/-- `emit X`: append an output to the trace (R7, R12). -/
def State.emit (s : State) (o : Output) : State := { s with trace := s.trace ++ [o] }

/-! ### Fatal errors and refusals -/

/-- The cause code of a fatal error (R331). -/
def FatalReason.code : FatalReason → Nat
  | .capacityExceeded _ => 1
  | .timestampOverflow _ => 2
  | .endOfTime _ => 3
  | .cancelWhileFiring _ => 4
  | .nestedAdvance => 5

/-- The code of a refusal (R334). -/
def RefuseReason.code : RefuseReason → Nat
  | .badCommand => 1
  | .badHandle => 2

/-- `raise Fatal(reason)` (R331): the mark is set and the record appended; all else stays as it was before the raise. The run ends
there: `andThen` runs nothing after it, and `step` ignores every later command. -/
def State.raise (s : State) (r : FatalReason) : State :=
  { s with fatal := some r, trace := s.trace ++ [.fatal r s.sched.now] }

/-- `refuse(reason)` (R334): only the mark is appended, and the run goes on. -/
def State.refuse (s : State) (r : RefuseReason) : State := s.emit (.refused r)

/-- A command that is one of this block runs; any other is refused as `BadCommand` (R118, R334). -/
def whenLegal (legal : Bool) (s : State) (body : State → Result) : Result :=
  if legal then body s else .next (s.refuse .badCommand)

/-- What follows, unless a fatal error stopped the run (R331.3: "The command or callback that raised stops at that point"). -/
def andThen (o : Result) (f : State → Result) : Result :=
  match o with
  | .next s => if s.fatal.isSome then .next s else f s
  | .fault r => .fault r
  | .refused r => .refused r

/-- The next state of an outcome, if it is one. -/
def nextState? : Result → Option State
  | .next s => some s
  | .fault _ => none
  | .refused _ => none

/-! ### Banks -/

/-- `MemRead(bank, off, 1)` (R12). -/
def Memory.read8 (m : Memory) (o : Nat) : Byte := Sparse.get 0#8 m o

/-- `MemRead(bank, off, 2)`, little-endian (R12, R87). -/
def Memory.read16 (m : Memory) (o : Nat) : Half := m.read8 (o + 1) ++ m.read8 o

/-- `MemWrite(bank, off, 1, v)`. -/
def Memory.write8 (m : Memory) (o : Nat) (b : Byte) : Memory := Sparse.set 0#8 m o b

/-- `MemWrite(bank, off, 2, v)`, little-endian (R12, R87). -/
def Memory.write16 (m : Memory) (o : Nat) (h : Half) : Memory :=
  (m.write8 o (loByte h)).write8 (o + 1) (hiByte h)

/-- A 32-bit write: the low half first, then the high half (R89). -/
def Memory.write32 (m : Memory) (o : Nat) (w : Word) : Memory :=
  (m.write16 o (loHalf w)).write16 (o + 2) (hiHalf w)

/-! ### Reads and free values -/

/-- What the host sees of a halfword, `none` being NOT_DRIVEN: then the value is a draw (R92). -/
def laneOf (h : Option Half) (draw : Nat) : Lane 16 :=
  match h with
  | some v => .driven v
  | none => .notDriven (Config.freeHalf draw)

/-- What the host sees of one byte of a halfword (R92: "An 8-bit read of a NOT_DRIVEN halfword is NOT_DRIVEN"). -/
def byteOfLane (h : Option Half) (o draw : Nat) : Lane 8 :=
  match h with
  | some v => .driven (byteLane v o)
  | none => .notDriven (byteLane (Config.freeHalf draw) o)

/-- How many free values a read of a halfword draws. -/
def drawsOf (h : Option Half) : Nat := if h.isSome then 0 else 1

/-- A READ of width 8 answers (R7, R113). It changes nothing else (R91). -/
def State.answer8 (s : State) (h : Option Half) (o : Nat) : State :=
  (s.drew (drawsOf h)).emit (.read (.r8 (byteOfLane h o s.draws)))

/-- A READ of width 16 answers. -/
def State.answer16 (s : State) (h : Option Half) : State :=
  (s.drew (drawsOf h)).emit (.read (.r16 (laneOf h s.draws)))

/-- A READ of width 32 answers, each half driven or not by itself (R92). -/
def State.answer32 (s : State) (lo hi : Option Half) : State :=
  (s.drew (drawsOf lo + drawsOf hi)).emit
    (.read (.r32 (laneOf lo s.draws) (laneOf hi (s.draws + drawsOf lo))))

/-- A READ of width 8 answers with a byte of a bank. -/
def State.answerByte (s : State) (b : Byte) : State := s.emit (.read (.r8 (.driven b)))

/-- A READ of width 16 answers with a halfword of a bank. -/
def State.answerHalf (s : State) (h : Half) : State := s.emit (.read (.r16 (.driven h)))

/-- A READ of width 32 answers with two halfwords of a bank (R89). -/
def State.answerWord (s : State) (lo hi : Half) : State := s.emit (.read (.r32 (.driven lo) (.driven hi)))

end Sys2Proof.Machine
end

