-- ==== Sys2Proof/Machine/Heap.lean ====
section
/-! DEFINITION. The heap primitives (spec 40_scheduler.md R150 to R156): SiftUp, SiftDown, Insert, RemoveAt, and the choice of the next due
event. The loops take a count of turns that is never too small (SiftUp at most `i` turns, SiftDown at most `n`). -/

namespace Sys2Proof.Machine

/-- The live event of a handle; `none` when the handle is stale (R26). -/
def Sched.event (c : Sched) (h : Nat) : Option Event := Sparse.get none c.events h

/-- `ts(h)` of a live handle. (A handle that is not live, which no heap entry is, counts as never due.) -/
def Sched.ts (c : Sched) (h : Nat) : Timestamp :=
  match c.event h with
  | some e => e.ts
  | none => BitVec.allOnes 64

/-- `ts(heap[i])`. -/
def Sched.tsAt (c : Sched) (i : Nat) : Timestamp :=
  match c.heap[i]? with
  | some h => c.ts h
  | none => BitVec.allOnes 64

/-- `n`, the live count, the sentinel included (R23). -/
def Sched.n (c : Sched) : Nat := c.heap.length

/-- `events[h] <- e`. -/
def Sched.putEvent (c : Sched) (h : Nat) (e : Event) : Sched :=
  { c with events := Sparse.set none c.events h (some e) }

/-- `delete events[h]`: the handle is stale from here on (R26, R154). -/
def Sched.dropEvent (c : Sched) (h : Nat) : Sched :=
  { c with events := Sparse.set none c.events h none }

/-- `events[h].slot <- i`. -/
def Sched.setSlot (c : Sched) (h i : Nat) : Sched :=
  match c.event h with
  | some e => c.putEvent h { e with slot := i }
  | none => c

/-- `heap[i] <- h; events[h].slot <- i`. -/
def Sched.place (c : Sched) (i h : Nat) : Sched :=
  { c with heap := c.heap.set i h }.setSlot h i

/-- `swap(i, j)` (40_scheduler.md, notation). -/
def Sched.swap (c : Sched) (i j : Nat) : Sched :=
  match c.heap[i]?, c.heap[j]? with
  | some hi, some hj => (c.place i hj).place j hi
  | _, _ => c

/-- SiftUp (R150), at most `fuel` turns: an entry passes its parent while it is strictly earlier. -/
def Sched.siftUpFor : Nat → Sched → Nat → Sched
  | 0, c, _ => c
  | fuel + 1, c, i =>
    if 0 < i ∧ c.tsAt i < c.tsAt ((i - 1) / 2) then
      Sched.siftUpFor fuel (c.swap i ((i - 1) / 2)) ((i - 1) / 2)
    else c

/-- SiftUp(i) (R150). -/
def Sched.siftUp (c : Sched) (i : Nat) : Sched := Sched.siftUpFor i c i

/-- The slot SiftDown exchanges `i` with, or `i` itself: the earlier of the children that are strictly earlier, the left one when both
are equally early (R151). -/
def Sched.earlierChild (c : Sched) (i : Nat) : Nat :=
  let m := if 2 * i + 1 < c.n ∧ c.tsAt (2 * i + 1) < c.tsAt i then 2 * i + 1 else i
  if 2 * i + 2 < c.n ∧ c.tsAt (2 * i + 2) < c.tsAt m then 2 * i + 2 else m

/-- SiftDown (R151), at most `fuel` turns. -/
def Sched.siftDownFor : Nat → Sched → Nat → Sched
  | 0, c, _ => c
  | fuel + 1, c, i =>
    if c.earlierChild i = i then c
    else Sched.siftDownFor fuel (c.swap i (c.earlierChild i)) (c.earlierChild i)

/-- SiftDown(i) (R151). -/
def Sched.siftDown (c : Sched) (i : Nat) : Sched := Sched.siftDownFor c.n c i

/-- The heap entry of a new event (R153, the part after its checks): the handle is issued, and the entry sifts up from the new leaf. -/
def Sched.push (c : Sched) (ts : Timestamp) (tag : Tag) : Sched :=
  let h := c.nextHandle
  let c1 := { c with nextHandle := h + 1 }
  let c2 := c1.putEvent h ⟨ts, tag, c.n⟩
  let c3 := { c2 with heap := c2.heap ++ [h] }
  c3.siftUp c.n

/-- Insert (R153): the capacity check first, then the sum of R152. The handle it issues is the scheduler's `nextHandle` before it. -/
def State.insert (s : State) (delay : Timestamp) (tag : Tag) : State :=
  if s.params.schedCapacity ≤ s.sched.n then s.raise (.capacityExceeded tag)
  else if s.params.tsMax.toNat ≤ s.sched.now.toNat + delay.toNat then s.raise (.timestampOverflow delay)
  else s.setSched (s.sched.push (s.sched.now + delay) tag)

/-- The heap of RemoveAt (R154) before the removed handle becomes stale: the last entry takes the slot, and sifts up or down. -/
def Sched.fillSlot (c : Sched) (i : Nat) : Sched :=
  let c' := { c with heap := c.heap.dropLast }
  if i = c.n - 1 then c'
  else
    match c.heap[c.n - 1]? with
    | none => c'
    | some last =>
      let c2 := c'.place i last
      if 0 < i ∧ c2.tsAt i < c2.tsAt ((i - 1) / 2) then c2.siftUp i else c2.siftDown i

/-- RemoveAt(i) (R154). -/
def Sched.removeAt (c : Sched) (i : Nat) : Sched :=
  match c.heap[i]? with
  | none => c
  | some h => (c.fillSlot i).dropEvent h

/-- The live handles that share the root's timestamp: those that may fire first (R155). -/
def Sched.dueFirst (c : Sched) (root : Nat) : List Nat := c.heap.filter (fun h => c.ts h = c.ts root)

/-- The choice of R155 among the events as early as the root, and the state after it. Under `HEAP` it is the root; under `ANY` it is a free
choice, drawn only where there is one to make. -/
def State.chooseDue (s : State) (root : Nat) : Nat × State :=
  match s.params.tiePolicy with
  | .heap => (root, s)
  | .any =>
    match s.sched.dueFirst root with
    | [] => (root, s)
    | [h] => (h, s)
    | h :: hs => ((h :: hs).getD (Config.freeTie s.draws % (hs.length + 1)) h, s.drew 1)

end Sys2Proof.Machine
end

