-- ==== Sys2Proof/Machine/Scheduler.lean ====
section
/-! DEFINITION. The scheduler commands (spec 40_scheduler.md R157 to R162). ADVANCE starts its loop here; the turns of the loop are steps of their
own (Machine/Control.lean), so that every fired callback is an instruction a step runs. -/

namespace Sys2Proof.Machine

/-- SCHEDULE (R157): Insert, and the handle is returned unless Insert raised. -/
def execSchedule (delay : Timestamp) (k : Word) (s : State) : Result :=
  andThen (.next (s.insert delay (.external k))) fun s' => .next (s'.emit (.handle s.sched.nextHandle))

/-- CANCEL (R158, R337): a stale handle does nothing; then BadHandle; then CancelWhileFiring. -/
def execCancel (handle : BitVec 64) (s : State) : Result :=
  match s.sched.event handle.toNat with
  | none => .next s
  | some ⟨_, .external _, slot⟩ =>
    if s.sched.firing = some handle.toNat then .next (s.raise (.cancelWhileFiring handle.toNat))
    else .next (s.setSched (s.sched.removeAt slot))
  | some ⟨_, .drawEnd, _⟩ | some ⟨_, .hblankEnd, _⟩ | some ⟨_, .endOfTime, _⟩ => .next (s.refuse .badHandle)

/-- ADVANCE (R159, R152, R337), up to its loop: NestedAdvance, then TimestampOverflow, then `target` and `in_advance` are set.
The loop and what follows it are the steps that come next (`loopTurn`). -/
def execAdvance (cycles : Timestamp) (s : State) : Result :=
  if s.sched.inAdvance then .next (s.raise .nestedAdvance)
  else if s.params.tsMax.toNat < s.sched.now.toNat + cycles.toNat then .next (s.raise (.timestampOverflow cycles))
  else .next (s.setSched { s.sched with inAdvance := true, target := s.sched.now + cycles })

/-- NOW (R160). -/
def execNow (s : State) : Result := .next (s.emit (.timestamp s.sched.now))

/-- NEXT (R161). The heap is never empty (R25). -/
def execNext (s : State) : Result :=
  match s.sched.heap with
  | [] => .fault .emptyHeap
  | root :: _ => .next (s.emit (.timestamp (s.sched.ts root)))

/-- REMAIN (R162). -/
def execRemain (s : State) : Result :=
  match s.sched.heap with
  | [] => .fault .emptyHeap
  | root :: _ => .next (s.emit (.timestamp (s.sched.ts root - s.sched.now)))

end Sys2Proof.Machine
end

