-- ==== Sys2Proof/Machine/RegBank.lean ====
section
/-! DEFINITION. The register bank as the bus sees it (spec 10_state.md R29 to R45; 41_bus_access.md R180, R202, R206 to R220): which register a
halfword offset names, what a read drives, what a byte write merges into, and what a write does. -/

namespace Sys2Proof.Machine

/-- The register a halfword of the bank belongs to (R29), with the half of a 32-bit one. -/
inductive RegHalf where
  | dispcnt
  | dispstat
  | vcount
  | bgcnt (i : Bg)
  | hofs (i : Bg)
  | vofs (i : Bg)
  | pa (k : Aff)
  | pb (k : Aff)
  | pc (k : Aff)
  | pd (k : Aff)
  | refXLo (k : Aff)
  | refXHi (k : Aff)
  | refYLo (k : Aff)
  | refYHi (k : Aff)
  | win0h
  | win1h
  | win0v
  | win1v
  | winin
  | winout
  | mosaic
  | bldcnt
  | bldalpha
  | bldy
  | unused
  deriving DecidableEq, Repr

/-- The register at an even offset of the bank (R29, R44). -/
def regAt (o : Nat) : RegHalf :=
  match o with
  | 0x00 => .dispcnt
  | 0x04 => .dispstat
  | 0x06 => .vcount
  | 0x08 => .bgcnt .bg0
  | 0x0A => .bgcnt .bg1
  | 0x0C => .bgcnt .bg2
  | 0x0E => .bgcnt .bg3
  | 0x10 => .hofs .bg0
  | 0x12 => .vofs .bg0
  | 0x14 => .hofs .bg1
  | 0x16 => .vofs .bg1
  | 0x18 => .hofs .bg2
  | 0x1A => .vofs .bg2
  | 0x1C => .hofs .bg3
  | 0x1E => .vofs .bg3
  | 0x20 => .pa .k2
  | 0x22 => .pb .k2
  | 0x24 => .pc .k2
  | 0x26 => .pd .k2
  | 0x28 => .refXLo .k2
  | 0x2A => .refXHi .k2
  | 0x2C => .refYLo .k2
  | 0x2E => .refYHi .k2
  | 0x30 => .pa .k3
  | 0x32 => .pb .k3
  | 0x34 => .pc .k3
  | 0x36 => .pd .k3
  | 0x38 => .refXLo .k3
  | 0x3A => .refXHi .k3
  | 0x3C => .refYLo .k3
  | 0x3E => .refYHi .k3
  | 0x40 => .win0h
  | 0x42 => .win1h
  | 0x44 => .win0v
  | 0x46 => .win1v
  | 0x48 => .winin
  | 0x4A => .winout
  | 0x4C => .mosaic
  | 0x50 => .bldcnt
  | 0x52 => .bldalpha
  | 0x54 => .bldy
  | _ => .unused

/-- `RegRead16` (R180) of a register; `none` is NOT_DRIVEN. -/
def State.regDriven (s : State) : RegHalf → Option Half
  | .dispcnt => some s.regs.dispcnt
  | .dispstat => some (s.regs.dispstat &&& dispstatRead)
  | .vcount => some (BitVec.ofNat 16 s.ppu.vcount)
  | .bgcnt i => some (s.regs.bgcnt.get i)
  | .winin => some s.regs.winin
  | .winout => some s.regs.winout
  | .bldcnt => some s.regs.bldcnt
  | .bldalpha => some s.regs.bldalpha
  | .hofs _ | .vofs _ | .pa _ | .pb _ | .pc _ | .pd _ => none
  | .refXLo _ | .refXHi _ | .refYLo _ | .refYHi _ => none
  | .win0h | .win1h | .win0v | .win1v | .mosaic | .bldy | .unused => none

/-- `RegRead16(o)` (R180). -/
def State.regRead16 (s : State) (o : Nat) : Option Half := s.regDriven (regAt o)

/-- `S16` (R202) of a register: the stored halfword a byte write merges into. -/
def Regs.stored (r : Regs) : RegHalf → Half
  | .dispcnt => r.dispcnt
  | .dispstat => r.dispstat &&& dispstatWritable
  | .vcount => 0#16
  | .bgcnt i => r.bgcnt.get i
  | .hofs i => r.hofs.get i
  | .vofs i => r.vofs.get i
  | .pa k => r.pa.get k
  | .pb k => r.pb.get k
  | .pc k => r.pc.get k
  | .pd k => r.pd.get k
  | .refXLo k => loHalf (r.refX.get k)
  | .refXHi k => hiHalf (r.refX.get k)
  | .refYLo k => loHalf (r.refY.get k)
  | .refYHi k => hiHalf (r.refY.get k)
  | .win0h => r.win0h
  | .win1h => r.win1h
  | .win0v => r.win0v
  | .win1v => r.win1v
  | .winin => r.winin
  | .winout => r.winout
  | .mosaic => r.mosaic
  | .bldcnt => r.bldcnt
  | .bldalpha => r.bldalpha
  | .bldy => r.bldy
  | .unused => 0#16

/-- `S16(o)` (R202). -/
def Regs.s16 (r : Regs) (o : Nat) : Half := r.stored (regAt o)

/-- A reference point with its low half written (R213). -/
def refWithLo (stored : Word) (v : Half) : Word := sextRef (hiHalf stored ++ v)

/-- A reference point with its high half written (R213). -/
def refWithHi (stored : Word) (v : Half) : Word := sextRef (v ++ loHalf stored)

/-- The register bank after a register's halfword is written (R206 to R220). -/
def Regs.written (r : Regs) (h : RegHalf) (v : Half) : Regs :=
  match h with
  | .dispcnt => { r with dispcnt := v &&& 0xFFF7#16 }
  | .dispstat => { r with dispstat := (r.dispstat &&& dispstatKept) ||| (v &&& dispstatWritable) }
  | .vcount => r
  | .bgcnt .bg0 => { r with bgcnt := r.bgcnt.set .bg0 (v &&& 0xDFFF#16) }
  | .bgcnt .bg1 => { r with bgcnt := r.bgcnt.set .bg1 (v &&& 0xDFFF#16) }
  | .bgcnt .bg2 => { r with bgcnt := r.bgcnt.set .bg2 v }
  | .bgcnt .bg3 => { r with bgcnt := r.bgcnt.set .bg3 v }
  | .hofs i => { r with hofs := r.hofs.set i (v &&& 0x01FF#16) }
  | .vofs i => { r with vofs := r.vofs.set i (v &&& 0x01FF#16) }
  | .pa k => { r with pa := r.pa.set k v }
  | .pb k => { r with pb := r.pb.set k v }
  | .pc k => { r with pc := r.pc.set k v }
  | .pd k => { r with pd := r.pd.set k v }
  | .refXLo k => { r with refX := r.refX.set k (refWithLo (r.refX.get k) v) }
  | .refXHi k => { r with refX := r.refX.set k (refWithHi (r.refX.get k) v) }
  | .refYLo k => { r with refY := r.refY.set k (refWithLo (r.refY.get k) v) }
  | .refYHi k => { r with refY := r.refY.set k (refWithHi (r.refY.get k) v) }
  | .win0h => { r with win0h := v }
  | .win1h => { r with win1h := v }
  | .win0v => { r with win0v := v }
  | .win1v => { r with win1v := v }
  | .winin => { r with winin := v &&& 0x3F3F#16 }
  | .winout => { r with winout := v &&& 0x3F3F#16 }
  | .mosaic => { r with mosaic := v }
  | .bldcnt => { r with bldcnt := v &&& 0x3FFF#16 }
  | .bldalpha => { r with bldalpha := v &&& 0x1F1F#16 }
  | .bldy => { r with bldy := v &&& 0x001F#16 }
  | .unused => r

/-- The internal reference load of a reference point write (R46, R213): `ix[k]` or `iy[k]` takes the register's new value. -/
def Ppu.refLoaded (p : Ppu) (r : Regs) : RegHalf → Ppu
  | .refXLo k | .refXHi k => { p with ix := p.ix.set k (r.refX.get k) }
  | .refYLo k | .refYHi k => { p with iy := p.iy.set k (r.refY.get k) }
  | .dispcnt | .dispstat | .vcount | .bgcnt _ | .hofs _ | .vofs _ => p
  | .pa _ | .pb _ | .pc _ | .pd _ => p
  | .win0h | .win1h | .win0v | .win1v | .winin | .winout => p
  | .mosaic | .bldcnt | .bldalpha | .bldy | .unused => p

/-- `RegWrite16` (R202) of a register. It performs no catch-up. -/
def State.regWriteHalf (s : State) (h : RegHalf) (v : Half) : State :=
  (s.setRegs (s.regs.written h v)).setPpu (s.ppu.refLoaded (s.regs.written h v) h)

/-- `RegWrite16(o, v)` (R202). -/
def State.regWrite16 (s : State) (o : Nat) (v : Half) : State := s.regWriteHalf (regAt o) v

end Sys2Proof.Machine
end

