-- ==== Sys2Proof/Machine/Read.lean ====
section
/-! DEFINITION. The READ commands (spec 41_bus_access.md R181 to R192). None catches up and none changes state (20_memory.md R91): each appends
the value it returns, and a halfword the block does not drive draws a free value (R92). -/

namespace Sys2Proof.Machine

/-- READ8.MMIO (R181). -/
def execRead8Mmio (a : Word) (s : State) : Result :=
  whenLegal (Space.mmio.holds a) s fun s =>
    .next (s.answer8 (s.regRead16 (alignHalf (mmioOffset a))) (mmioOffset a))

/-- READ16.MMIO (R182). -/
def execRead16Mmio (a : Word) (s : State) : Result :=
  whenLegal (Space.mmio.holds a) s fun s =>
    .next (s.answer16 (s.regRead16 (alignHalf (mmioOffset a))))

/-- READ32.MMIO (R183). -/
def execRead32Mmio (a : Word) (s : State) : Result :=
  whenLegal (Space.mmio.holds a) s fun s =>
    .next (s.answer32 (s.regRead16 (alignWord (mmioOffset a))) (s.regRead16 (alignWord (mmioOffset a) + 2)))

/-- READ8.PRAM (R184). -/
def execRead8Pram (a : Word) (s : State) : Result :=
  whenLegal (Space.pram.holds a) s fun s => .next (s.answerByte (s.pram.read8 (bankOffset a)))

/-- READ16.PRAM (R185). -/
def execRead16Pram (a : Word) (s : State) : Result :=
  whenLegal (Space.pram.holds a) s fun s => .next (s.answerHalf (s.pram.read16 (alignHalf (bankOffset a))))

/-- READ32.PRAM (R186). -/
def execRead32Pram (a : Word) (s : State) : Result :=
  whenLegal (Space.pram.holds a) s fun s =>
    .next (s.answerWord (s.pram.read16 (alignWord (bankOffset a))) (s.pram.read16 (alignWord (bankOffset a) + 2)))

/-- The VRAM offset of an access in the mode of the moment (R85); `none` is HOLE. -/
def State.vo (s : State) (o : Nat) : Option Nat := vramOffset s.regs.bgMode o

/-- READ8.VRAM (R187). A HOLE reads 0 (R85). -/
def execRead8Vram (a : Word) (s : State) : Result :=
  whenLegal (Space.vram.holds a) s fun s =>
    match s.vo (vramWindow a) with
    | none => .next (s.answerByte 0#8)
    | some v => .next (s.answerByte (s.vram.read8 v))

/-- READ16.VRAM (R188). -/
def execRead16Vram (a : Word) (s : State) : Result :=
  whenLegal (Space.vram.holds a) s fun s =>
    match s.vo (alignHalf (vramWindow a)) with
    | none => .next (s.answerHalf 0#16)
    | some v => .next (s.answerHalf (s.vram.read16 v))

/-- READ32.VRAM (R189). -/
def execRead32Vram (a : Word) (s : State) : Result :=
  whenLegal (Space.vram.holds a) s fun s =>
    match s.vo (alignWord (vramWindow a)) with
    | none => .next (s.answerWord 0#16 0#16)
    | some v => .next (s.answerWord (s.vram.read16 v) (s.vram.read16 (v + 2)))

/-- READ8.OAM (R190). -/
def execRead8Oam (a : Word) (s : State) : Result :=
  whenLegal (Space.oam.holds a) s fun s => .next (s.answerByte (s.oam.read8 (bankOffset a)))

/-- READ16.OAM (R191). -/
def execRead16Oam (a : Word) (s : State) : Result :=
  whenLegal (Space.oam.holds a) s fun s => .next (s.answerHalf (s.oam.read16 (alignHalf (bankOffset a))))

/-- READ32.OAM (R192). -/
def execRead32Oam (a : Word) (s : State) : Result :=
  whenLegal (Space.oam.holds a) s fun s =>
    .next (s.answerWord (s.oam.read16 (alignWord (bankOffset a))) (s.oam.read16 (alignWord (bankOffset a) + 2)))

end Sys2Proof.Machine
end

