-- ==== Sys2Proof/Machine/Background.lean ====
section
/-! DEFINITION. The background layers (spec 43_renderer.md R265 to R273, R283; 30_encoding.md R122 to R124, R127 to R129): which layer a mode
has, the memory fetches, and the sample of each kind of layer. A sample is a colour, or `none` for TRANSPARENT. -/

namespace Sys2Proof.Machine

/-- `bgpal(j)` (R122). -/
def State.bgpal (s : State) (j : Nat) : Colour := (s.pram.read16 (2 * j)).extractLsb' 0 15

/-- `objpal(j)` (R122). -/
def State.objpal (s : State) (j : Nat) : Colour := (s.pram.read16 (0x200 + 2 * j)).extractLsb' 0 15

/-- `BgFetch8(o)` (R266): beyond `BG_LIMIT` it reads 0. -/
def State.bgFetch8 (s : State) (o : Nat) : Byte :=
  if o < bgLimit s.regs.bgMode then s.vram.read8 o else 0#8

/-- `BgFetch16(o)` (R266). -/
def State.bgFetch16 (s : State) (o : Nat) : Half := s.bgFetch8 (o + 1) ++ s.bgFetch8 o

/-- What a layer is in a mode (R265). -/
inductive LayerKind where
  | text
  | affine (k : Aff)
  | bitmap
  deriving DecidableEq, Repr

/-- Layer availability (R265); `none` is "—". -/
def layerKind (mode : Nat) : Bg → Option LayerKind
  | .bg0 | .bg1 => if mode ≤ 1 then some .text else none
  | .bg2 =>
    if mode = 0 then some .text
    else if mode ≤ 2 then some (.affine .k2)
    else if mode ≤ 5 then some .bitmap
    else none
  | .bg3 =>
    if mode = 0 then some .text
    else if mode = 2 then some (.affine .k3)
    else none

/-- BGiCNT.CHAR_BASE times 0x4000: the base of the tile data (R33). -/
def charBase (cnt : Half) : Nat := field cnt 2 2 * 0x4000

/-- BGiCNT.SCREEN_BASE times 0x800: the base of the map (R33). -/
def screenBase (cnt : Half) : Nat := field cnt 8 5 * 0x800

/-- BGiCNT.SCREEN_SIZE (R33, R34). -/
def screenSize (cnt : Half) : Nat := field cnt 14 2

/-- The width of a text layer (R267). -/
def textWidth (cnt : Half) : Nat := if screenSize cnt = 1 ∨ screenSize cnt = 3 then 512 else 256

/-- The height of a text layer (R267). -/
def textHeight (cnt : Half) : Nat := if screenSize cnt = 2 ∨ screenSize cnt = 3 then 512 else 256

/-- The screen block of a layer pixel (R123). -/
def screenBlock (size px py : Nat) : Nat :=
  match size with
  | 1 => px / 256 % 2
  | 2 => py / 256 % 2
  | 3 => px / 256 % 2 + 2 * (py / 256 % 2)
  | _ => 0

/-- `MapAddr(c, px, py)` (R123). -/
def mapAddr (cnt : Half) (px py : Nat) : Nat :=
  screenBase cnt + screenBlock (screenSize cnt) px py * 0x800 + (py / 8 % 32) * 64 + (px / 8 % 32) * 2

/-- A colour index of 0 is transparent; another selects a palette entry (R127, R128). -/
def opaqueIndex (j : Nat) (color : Nat → Colour) : Option Colour := if j = 0 then none else some (color j)

/-- The nibble of a 4-bit tile byte that a column selects (R127). -/
def nibble (b : Byte) (tx : Nat) : Nat := if tx % 2 = 1 then field b 4 4 else field b 0 4

/-- `TextSample(i, x, y)` (R267), the vertical mosaic of R269 included. -/
def State.textSample (s : State) (i : Bg) (x y : Nat) : Option Colour :=
  let c := s.regs.bgcnt.get i
  let yy := if s.regs.bgMosaic i then y - y % s.regs.bgMosaicH else y
  let px := (x + (s.regs.hofs.get i).toNat) % textWidth c
  let py := (yy + (s.regs.vofs.get i).toNat) % textHeight c
  let m := s.bgFetch16 (mapAddr c px py)
  let tile := field m 0 10
  let tx := if bit m 10 then 7 - px % 8 else px % 8
  let ty := if bit m 11 then 7 - py % 8 else py % 8
  if bit c 7 then
    opaqueIndex (s.bgFetch8 (charBase c + tile * 64 + ty * 8 + tx)).toNat s.bgpal
  else
    opaqueIndex (nibble (s.bgFetch8 (charBase c + tile * 32 + ty * 4 + tx / 2)) tx)
      (fun j => s.bgpal (field m 12 4 * 16 + j))

/-- The texel of an affine layer (R270): the tile map of R124, one byte an entry, and an 8-bit tile. -/
def State.affineTexel (s : State) (cnt : Half) (size u v : Nat) : Option Colour :=
  let t := (s.bgFetch8 (screenBase cnt + v / 8 * (size / 8) + u / 8)).toNat
  opaqueIndex (s.bgFetch8 (charBase cnt + t * 64 + v % 8 * 8 + u % 8)).toNat s.bgpal

/-- `AffineSample(k)` (R270). -/
def State.affineSample (s : State) (k : Aff) : Option Colour :=
  let c := s.regs.bgcnt.get k.bg
  let size := 128 <<< screenSize c
  let u := texelOf (s.line.ax.get k)
  let v := texelOf (s.line.ay.get k)
  if bit c 13 then s.affineTexel c size (u % size).toNat (v % size).toNat
  else if u < 0 ∨ (size : Int) ≤ u ∨ v < 0 ∨ (size : Int) ≤ v then none
  else s.affineTexel c size u.toNat v.toNat

/-- `BitmapSample()`: modes 3, 4 and 5 (R271 to R273, R129). A bitmap is read directly from VRAM. -/
def State.bitmapSample (s : State) : Option Colour :=
  let u := texelOf s.line.ax.k2
  let v := texelOf s.line.ay.k2
  let inside (w h : Int) : Bool := decide (0 ≤ u ∧ u < w ∧ 0 ≤ v ∧ v < h)
  let at_ (w : Nat) : Nat := w * v.toNat + u.toNat
  match s.regs.bgMode with
  | 3 => if inside 240 160 then some ((s.vram.read16 (2 * at_ 240)).extractLsb' 0 15) else none
  | 4 =>
    if inside 240 160 then
      opaqueIndex (s.vram.read8 (s.regs.frameBase + at_ 240)).toNat s.bgpal
    else none
  | 5 =>
    if inside 160 128 then some ((s.vram.read16 (s.regs.frameBase + 2 * at_ 160)).extractLsb' 0 15)
    else none
  | _ => none

/-- A fresh sample of a layer at pixel `x` of line `y` (R266). -/
def State.freshSample (s : State) (i : Bg) (kind : LayerKind) (x y : Nat) : Option Colour :=
  match kind with
  | .text => s.textSample i x y
  | .affine k => s.affineSample k
  | .bitmap => s.bitmapSample

/-- `BgPixel(i, x, y)` (R266, R268): the sample, and the held sample after it. -/
def State.bgPixel (s : State) (i : Bg) (x y : Nat) : Option Colour × Option Colour :=
  match layerKind s.regs.bgMode i with
  | none => (none, s.line.hold.get i)
  | some kind =>
    if s.regs.bgEn i = false then (none, s.line.hold.get i)
    else if s.regs.bgMosaic i then
      if x % s.regs.bgMosaicW ≠ 0 then (s.line.hold.get i, s.line.hold.get i)
      else (s.freshSample i kind x y, s.freshSample i kind x y)
    else (s.freshSample i kind x y, s.line.hold.get i)

end Sys2Proof.Machine
end

