-- ==== Sys2Proof/Machine/Objects.lean ====
section
/-! DEFINITION. The object layer (spec 43_renderer.md R274 to R282; 30_encoding.md R125, R126): the attribute table, the footprint and its
mosaic, the texel, the tile address, the colour, and the merge of the objects at a pixel. -/

namespace Sys2Proof.Machine

/-- The attributes of an object, as R125 gives their fields. `bit9` is DOUBLE when AFFINE, else DISABLE. -/
structure ObjAttr where
  y : Nat
  affine : Bool
  bit9 : Bool
  mode : Nat
  mosaic : Bool
  bpp8 : Bool
  shape : Nat
  x : Int
  group : Nat
  hflip : Bool
  vflip : Bool
  size : Nat
  tile : Nat
  prio : BitVec 2
  pal : Nat
  deriving DecidableEq, Repr

/-- The fields of the three attribute halfwords (R125). -/
def ObjAttr.ofHalves (a0 a1 a2 : Half) : ObjAttr where
  y := field a0 0 8
  affine := bit a0 8
  bit9 := bit a0 9
  mode := field a0 10 2
  mosaic := bit a0 12
  bpp8 := bit a0 13
  shape := field a0 14 2
  x := (a1.extractLsb' 0 9).toInt
  group := field a1 9 5
  hflip := bit a1 12
  vflip := bit a1 13
  size := field a1 14 2
  tile := field a2 0 10
  prio := a2.extractLsb' 10 2
  pal := field a2 12 4

/-- The attributes of object `i` (R125). -/
def State.objAttr (s : State) (i : Nat) : ObjAttr :=
  ObjAttr.ofHalves (s.oam.read16 (8 * i)) (s.oam.read16 (8 * i + 2)) (s.oam.read16 (8 * i + 4))

/-- The size table (R126). -/
def objSize (shape size : Nat) : Nat × Nat :=
  match shape, size with
  | 0, 0 => (8, 8)
  | 0, 1 => (16, 16)
  | 0, 2 => (32, 32)
  | 0, 3 => (64, 64)
  | 1, 0 => (16, 8)
  | 1, 1 => (32, 8)
  | 1, 2 => (32, 16)
  | 1, 3 => (64, 32)
  | 2, 0 => (8, 16)
  | 2, 1 => (8, 32)
  | 2, 2 => (16, 32)
  | 2, 3 => (32, 64)
  | _, _ => (8, 8)

/-- `(w, h)` of an object (R126). -/
def ObjAttr.dims (o : ObjAttr) : Nat × Nat := objSize o.shape o.size

/-- The bounding box `(bw, bh)` (R126). -/
def ObjAttr.box (o : ObjAttr) : Nat × Nat :=
  if o.affine && o.bit9 then (2 * o.dims.1, 2 * o.dims.2) else o.dims

/-- `MosaicAdjust` (R282). Subtraction of naturals stops at 0, which is the rule's `max(0, ...)`. -/
def Regs.objMosaicAdjust (r : Regs) (o : ObjAttr) (lx ly x y : Nat) : Nat × Nat :=
  if o.mosaic then (lx - x % r.objMosaicW, ly - y % r.objMosaicH) else (lx, ly)

/-- `Footprint(i, x, y)` (R275): the position in the bounding box, if the pixel is in it. -/
def Regs.footprint (r : Regs) (o : ObjAttr) (x y : Nat) : Option (Nat × Nat) :=
  let ly := (((y : Int) - o.y) % 256).toNat
  let lx : Int := x - o.x
  if o.box.2 ≤ ly ∨ lx < 0 ∨ (o.box.1 : Int) ≤ lx then none
  else some (r.objMosaicAdjust o lx.toNat ly x y)

/-- A parameter of an affine group, `field` 0 to 3 being PA to PD (R52, R125). -/
def State.affineParam (s : State) (group i : Nat) : Int := (s.oam.read16 (32 * group + 6 + 8 * i)).toInt

/-- The texel of an affine object (R277). -/
def State.affineObjTexel (s : State) (o : ObjAttr) (lx ly : Nat) : Option (Nat × Nat) :=
  let dx : Int := (lx : Int) - o.box.1 / 2
  let dy : Int := (ly : Int) - o.box.2 / 2
  let tx : Int := ((s.affineParam o.group 0 * dx + s.affineParam o.group 1 * dy) >>> (8 : Nat)) + o.dims.1 / 2
  let ty : Int := ((s.affineParam o.group 2 * dx + s.affineParam o.group 3 * dy) >>> (8 : Nat)) + o.dims.2 / 2
  if tx < 0 ∨ (o.dims.1 : Int) ≤ tx ∨ ty < 0 ∨ (o.dims.2 : Int) ≤ ty then none
  else some (tx.toNat, ty.toNat)

/-- The texel of a regular object (R276). -/
def ObjAttr.regularTexel (o : ObjAttr) (lx ly : Nat) : Nat × Nat :=
  (if o.hflip then o.dims.1 - 1 - lx else lx, if o.vflip then o.dims.2 - 1 - ly else ly)

/-- `Texel(i, lx, ly)` (R276, R277). -/
def State.objTexel (s : State) (o : ObjAttr) (lx ly : Nat) : Option (Nat × Nat) :=
  if o.affine then s.affineObjTexel o lx ly else some (o.regularTexel lx ly)

/-- The VRAM address of an object's texel (R278), before the limit of the bitmap modes. -/
def Regs.objTexelAddr (r : Regs) (o : ObjAttr) (tx ty : Nat) : Nat :=
  let step := if o.bpp8 then 2 else 1
  let tn :=
    if r.obj1d then o.tile + ty / 8 * (o.dims.1 / 8) * step + tx / 8 * step
    else (if o.bpp8 then o.tile / 2 * 2 else o.tile) + ty / 8 * 32 + tx / 8 * step
  let off := if o.bpp8 then ty % 8 * 8 + tx % 8 else ty % 8 * 4 + tx % 8 / 2
  0x10000 + (tn * 32 + off) % 0x8000

/-- `ObjColor(i, tx, ty)` (R278, R279). -/
def State.objColor (s : State) (o : ObjAttr) (tx ty : Nat) : Option Colour :=
  let addr := s.regs.objTexelAddr o tx ty
  if 3 ≤ s.regs.bgMode ∧ addr < 0x14000 then none
  else
    let b := s.vram.read8 addr
    if o.bpp8 then opaqueIndex b.toNat s.objpal
    else opaqueIndex (nibble b tx) (fun j => s.objpal (o.pal * 16 + j))

/-- Whether an object is displayed at all (R274): not disabled, and not of the prohibited mode under `SKIP`. -/
def ObjAttr.displayed (o : ObjAttr) (p : Params) : Bool :=
  !(!o.affine && o.bit9) && !(o.mode == 3 && p.objMode3Policy == .skip)

/-- The colour an object has at pixel `x` of line `y`, if it covers the pixel with an opaque texel (R274 to R279). -/
def State.objAt (s : State) (o : ObjAttr) (x y : Nat) : Option Colour :=
  if o.displayed s.params then
    match s.regs.footprint o x y with
    | none => none
    | some (lx, ly) =>
      match s.objTexel o lx ly with
      | none => none
      | some (tx, ty) => s.objColor o tx ty
  else none

/-- `Merge(res, c, p, semi)` (R280): the least `(PRIO, OAM index)` keeps the pixel. -/
def ObjEntry.merge (res : ObjEntry) (c : Colour) (p : BitVec 2) (semi : Bool) : ObjEntry :=
  if res.opaque_ = false ∨ p < res.prio then ⟨true, c, p, semi⟩ else res

/-- One object's turn in the evaluation of a pixel (R274): an object-window object only sets the flag (R281). -/
def State.objTurn (s : State) (x y : Nat) (acc : ObjEntry × Bool) (i : Nat) : ObjEntry × Bool :=
  let o := s.objAttr i
  match s.objAt o x y with
  | none => acc
  | some c => if o.mode = 2 then (acc.1, true) else (acc.1.merge c o.prio (o.mode == 1), acc.2)

/-- `ObjPixel(x, y)` (R274, R281): the object-buffer entry and the object-window flag, the 128 objects in increasing index. -/
def State.objPixel (s : State) (x y : Nat) : ObjEntry × Bool :=
  if s.regs.objEn then (List.range 128).foldl (s.objTurn x y) (ObjEntry.clear, false)
  else (ObjEntry.clear, false)

end Sys2Proof.Machine
end

