-- ==== Sys2Proof/Machine/Compose.lean ====
section
/-! DEFINITION. The compositor (spec 44_composer.md R300 to R311): windows, priority, colour effects, and the colour of a pixel. -/

namespace Sys2Proof.Machine

/-- The layers (R14). -/
inductive Layer where
  | bg (i : Bg)
  | obj
  | backdrop
  deriving DecidableEq, Repr

/-- The layer's number: its bit in the masks (R14). -/
def Layer.index : Layer → Nat
  | .bg i => i.index
  | .obj => 4
  | .backdrop => 5

/-! ### Windows -/

/-- A range test of R300: the start is inclusive and the end exclusive, wrapping when the start is after the end. -/
def inSpan (lo hi v : Nat) : Bool :=
  if lo ≤ hi then decide (lo ≤ v ∧ v < hi) else decide (lo ≤ v ∨ v < hi)

/-- `WinInside` (R300) of a window with its enable and its two rectangle registers. -/
def winInside (enabled : Bool) (h v : Half) (x y : Nat) : Bool :=
  enabled && inSpan (field h 8 8) (field h 0 8) x && inSpan (field v 8 8) (field v 0 8) y

/-- `WindowMask(x)` (R301). -/
def windowMask (r : Regs) (l : Line) (x : Nat) : BitVec 6 :=
  if !r.win0En && !r.win1En && !r.objwinEn then 0b111111#6
  else if Sparse.get false l.win0 x then r.winin.extractLsb' 0 6
  else if Sparse.get false l.win1 x then r.winin.extractLsb' 8 6
  else if r.objwinEn && Sparse.get false l.objwin x then r.winout.extractLsb' 8 6
  else r.winout.extractLsb' 0 6

/-! ### Priority -/

/-- A candidate at a pixel (R302). -/
structure Candidate where
  layer : Layer
  prio : BitVec 2
  color : Colour
  deriving DecidableEq, Repr

/-- The candidate of a background, if it is one (R302). -/
def bgCandidate (r : Regs) (mask : BitVec 6) (bg : PerBg (Option Colour)) (i : Bg) : Option Candidate :=
  match bg.get i with
  | none => none
  | some c => if bit mask i.index then some ⟨.bg i, r.bgPriority i, c⟩ else none

/-- The candidate of the objects, if it is one (R302). -/
def objCandidate (mask : BitVec 6) (e : ObjEntry) : Option Candidate :=
  if e.opaque_ && bit mask 4 then some ⟨.obj, e.prio, e.color⟩ else none

/-- The candidates other than the backdrop, in the order of their rank: OBJ, then BG0 to BG3 (R303). -/
def candidates (r : Regs) (mask : BitVec 6) (bg : PerBg (Option Colour)) (e : ObjEntry) : List Candidate :=
  (objCandidate mask e).toList ++ (bgCandidate r mask bg .bg0).toList ++ (bgCandidate r mask bg .bg1).toList ++
    (bgCandidate r mask bg .bg2).toList ++ (bgCandidate r mask bg .bg3).toList

/-- The candidates sorted by `(priority, rank)` (R303), from a list in rank order. -/
def byPriority (l : List Candidate) : List Candidate :=
  l.filter (fun c => c.prio = 0#2) ++ l.filter (fun c => c.prio = 1#2) ++
    l.filter (fun c => c.prio = 2#2) ++ l.filter (fun c => c.prio = 3#2)

/-- The top layer and the second one, each with its colour (R303): the backdrop is behind every other candidate, and when it is on top
there is no second layer. -/
structure TopTwo where
  top : Layer
  colorA : Colour
  second : Option (Layer × Colour)
  deriving DecidableEq, Repr

/-- `TopTwo` (R302, R303) of the sorted candidates and the backdrop's colour. -/
def topTwo (sorted : List Candidate) (backdrop : Colour) : TopTwo :=
  match sorted with
  | [] => ⟨.backdrop, backdrop, none⟩
  | [a] => ⟨a.layer, a.color, some (.backdrop, backdrop)⟩
  | a :: b :: _ => ⟨a.layer, a.color, some (b.layer, b.color)⟩

/-! ### Colour effects -/

/-- `r(c)` (R13). -/
def red (c : Colour) : Nat := field c 0 5

/-- `g(c)` (R13). -/
def green (c : Colour) : Nat := field c 5 5

/-- `b(c)` (R13). -/
def blue (c : Colour) : Nat := field c 10 5

/-- The colour `{b, g, r}` of three channels (R13). -/
def rgb (r g b : Nat) : Colour := BitVec.ofNat 5 b ++ BitVec.ofNat 5 g ++ BitVec.ofNat 5 r

/-- The effective weight of a coefficient field (R42, R43): at most 16. -/
def weight (v : Nat) : Nat := min 16 v

/-- One channel of the alpha blend (R305). -/
def alphaChannel (eva evb a b : Nat) : Nat := min 31 ((a * eva + b * evb) / 16)

/-- `Alpha(A, B)` (R305). -/
def Regs.alpha (r : Regs) (a b : Colour) : Colour :=
  let ch := alphaChannel (weight (field r.bldalpha 0 5)) (weight (field r.bldalpha 8 5))
  rgb (ch (red a) (red b)) (ch (green a) (green b)) (ch (blue a) (blue b))

/-- One channel of the fade to white (R306). -/
def brightenChannel (evy a : Nat) : Nat := a + (31 - a) * evy / 16

/-- `Brighten(A)` (R306). -/
def Regs.brighten (r : Regs) (a : Colour) : Colour :=
  let ch := brightenChannel (weight (field r.bldy 0 5))
  rgb (ch (red a)) (ch (green a)) (ch (blue a))

/-- One channel of the fade to black (R307). -/
def darkenChannel (evy a : Nat) : Nat := a - a * evy / 16

/-- `Darken(A)` (R307). -/
def Regs.darken (r : Regs) (a : Colour) : Colour :=
  let ch := darkenChannel (weight (field r.bldy 0 5))
  rgb (ch (red a)) (ch (green a)) (ch (blue a))

/-- `first(L)` (R304). -/
def Regs.firstTarget (r : Regs) (l : Layer) : Bool := bit r.bldcnt l.index

/-- `second(L)`, false when there is no second layer (R304). -/
def Regs.secondTarget (r : Regs) : Option (Layer × Colour) → Bool
  | none => false
  | some (l, _) => bit r.bldcnt (8 + l.index)

/-- `Effect(T, A, S, B)` (R308); `semi` is the flag of the object-buffer entry and `eff` bit 5 of the window mask. -/
def Regs.effect (r : Regs) (p : Params) (eff semi : Bool) (t : TopTwo) : Colour :=
  let blended : Colour :=
    match t.second with
    | some (_, b) => r.alpha t.colorA b
    | none => t.colorA
  if t.top = .obj ∧ semi = true ∧ r.secondTarget t.second = true ∧ (eff || !p.semiObjWindowGated) = true then blended
  else if eff = false ∨ r.firstTarget t.top = false then t.colorA
  else
    match field r.bldcnt 6 2 with
    | 1 => if r.secondTarget t.second then blended else t.colorA
    | 2 => r.brighten t.colorA
    | 3 => r.darken t.colorA
    | _ => t.colorA

/-- White, the colour of forced blank (R311). -/
def white : Colour := 0x7FFF#15

/-- `Compose(x, bg)` (R310, R311), with the backdrop of R309. -/
def State.compose (s : State) (x : Nat) (bg : PerBg (Option Colour)) : Colour :=
  if s.regs.forcedBlank then white
  else
    let mask := windowMask s.regs s.line x
    let e := Sparse.get ObjEntry.clear s.line.objbuf x
    s.regs.effect s.params (bit mask 5) e.semi (topTwo (byPriority (candidates s.regs mask bg e)) (s.bgpal 0))

end Sys2Proof.Machine
end

