-- ==== Sys2Proof/Machine/Renderer.lean ====
section
/-! DEFINITION. The pixel pipeline in time (spec 43_renderer.md R260 to R264): catching up, producing a pixel, starting a line. -/

namespace Sys2Proof.Machine

/-- The framebuffer index of pixel `x` of line `y` in a frame of a width: row-major (R310). -/
def fbIndex (width x y : Nat) : Nat := width * y + x

/-- AffineStep (R264): both sets step on every pixel, 32-bit wrapping. -/
def Line.affineStep (l : Line) (r : Regs) : Line :=
  { l with
    ax := l.ax.zipWith (fun a v => a + sextCoef v) r.pa
    ay := l.ay.zipWith (fun a v => a + sextCoef v) r.pc }

/-- The per-scanline state once pixel `x` of line `y` is evaluated, before it is composed (R262). -/
def State.evaluated (s : State) (x y : Nat) : Line :=
  { s.line with
    hold :=
      ⟨(s.bgPixel .bg0 x y).2, (s.bgPixel .bg1 x y).2, (s.bgPixel .bg2 x y).2, (s.bgPixel .bg3 x y).2⟩
    objbuf := Sparse.set ObjEntry.clear s.line.objbuf x (s.objPixel x y).1
    objwin := Sparse.set false s.line.objwin x (s.objPixel x y).2
    win0 := Sparse.set false s.line.win0 x (winInside s.regs.win0En s.regs.win0h s.regs.win0v x y)
    win1 := Sparse.set false s.line.win1 x (winInside s.regs.win1En s.regs.win1h s.regs.win1v x y) }

/-- The four background samples of pixel `x` of line `y` (R262). -/
def State.bgSamples (s : State) (x y : Nat) : PerBg (Option Colour) :=
  ⟨(s.bgPixel .bg0 x y).1, (s.bgPixel .bg1 x y).1, (s.bgPixel .bg2 x y).1, (s.bgPixel .bg3 x y).1⟩

/-- The colour of pixel `x` of line `y` (R262, R310). -/
def State.pixelColour (s : State) (x y : Nat) : Colour :=
  (s.setLine (s.evaluated x y)).compose x (s.bgSamples x y)

/-- ProducePixel(x) for line `vcount` (R262), and `next_x <- next_x + 1` (R260). -/
def State.producePixel (s : State) : State :=
  let x := s.line.nextX
  let y := s.ppu.vcount
  (s.setFb (Sparse.set 0#15 s.fb (fbIndex s.params.hVisible x y) (s.pixelColour x y))).setLine
    { (s.evaluated x y).affineStep s.regs with nextX := x + 1 }

/-- `count` pixels, one after the other. -/
def State.producePixels : Nat → State → State
  | 0, s => s
  | count + 1, s => State.producePixels count s.producePixel

/-- `min(H_VISIBLE, (now - ls) / CYCLES_PER_DOT)` (R260): how many pixels of the line have their production time at or before `now`
(R261). -/
def State.pixelsDue (s : State) : Nat :=
  min s.params.hVisible ((s.sched.now.toNat - s.ppu.ls.toNat) / s.params.cyclesPerDot)

/-- CatchUp(now) (R260). -/
def State.catchUp (s : State) : State :=
  if s.params.vVisible ≤ s.ppu.vcount ∨ s.ppu.phase ≠ .draw then s
  else s.producePixels (s.pixelsDue - s.line.nextX)

/-- The line's starting accumulators of one set (R263): the mosaic reference under mosaic, else the internal reference. -/
def lineStartAcc (r : Regs) (ref mref : PerAff Word) : PerAff Word :=
  ⟨if r.bgMosaic .bg2 then mref.k2 else ref.k2, if r.bgMosaic .bg3 then mref.k3 else ref.k3⟩

/-- The mosaic references at the start of line `y` (R47, R263). -/
def Ppu.mosaicLatched (p : Ppu) (r : Regs) (y : Nat) : Ppu :=
  if y % r.bgMosaicH = 0 then { p with mx := p.ix, my := p.iy } else p

/-- LineStart(y) (R263): the held samples and the line buffers are cleared. `next_x` is HBLANK_END's to clear (R241). -/
def State.lineStart (s : State) (y : Nat) : State :=
  let p := s.ppu.mosaicLatched s.regs y
  (s.setPpu p).setLine
    { Line.zero with
      nextX := s.line.nextX
      ax := lineStartAcc s.regs p.ix p.mx
      ay := lineStartAcc s.regs p.iy p.my }

end Sys2Proof.Machine
end

