-- ==== Sys2Proof/Machine/Write.lean ====
section
/-! DEFINITION. The WRITE commands (spec 41_bus_access.md R193 to R205). Every one catches the pixel pipeline up to `now` first, even when the
write is then dropped (20_memory.md R90), and only then changes state. -/

namespace Sys2Proof.Machine

/-- A legal WRITE: `CatchUp(now)`, then the write (R90). -/
def busWrite (legal : Bool) (s : State) (write : State → State) : Result :=
  whenLegal legal s fun s => .next (write s.catchUp)

/-! ### Palette memory -/

/-- WRITE8.PRAM (R193): byte write replication. -/
def execWrite8Pram (a : Word) (b : Byte) (s : State) : Result :=
  busWrite (Space.pram.holds a) s fun s =>
    s.setPram (s.pram.write16 (alignHalf (bankOffset a)) (replicate b))

/-- WRITE16.PRAM (R194). -/
def execWrite16Pram (a : Word) (h : Half) (s : State) : Result :=
  busWrite (Space.pram.holds a) s fun s => s.setPram (s.pram.write16 (alignHalf (bankOffset a)) h)

/-- WRITE32.PRAM (R195). -/
def execWrite32Pram (a : Word) (w : Word) (s : State) : Result :=
  busWrite (Space.pram.holds a) s fun s => s.setPram (s.pram.write32 (alignWord (bankOffset a)) w)

/-! ### Image memory -/

/-- The halfword a byte write of VRAM stores to (R196): none for HOLE and for OBJ VRAM, where the write is dropped. -/
def State.vramByteTarget (s : State) (o : Nat) : Option Nat :=
  match s.vo o with
  | none => none
  | some v => if v < bgLimit s.regs.bgMode then some (alignHalf v) else none

/-- WRITE8.VRAM (R196): replication in BG VRAM. -/
def execWrite8Vram (a : Word) (b : Byte) (s : State) : Result :=
  busWrite (Space.vram.holds a) s fun s =>
    match s.vramByteTarget (vramWindow a) with
    | none => s
    | some v => s.setVram (s.vram.write16 v (replicate b))

/-- WRITE16.VRAM (R197). -/
def execWrite16Vram (a : Word) (h : Half) (s : State) : Result :=
  busWrite (Space.vram.holds a) s fun s =>
    match s.vo (alignHalf (vramWindow a)) with
    | none => s
    | some v => s.setVram (s.vram.write16 v h)

/-- WRITE32.VRAM (R198). -/
def execWrite32Vram (a : Word) (w : Word) (s : State) : Result :=
  busWrite (Space.vram.holds a) s fun s =>
    match s.vo (alignWord (vramWindow a)) with
    | none => s
    | some v => s.setVram (s.vram.write32 v w)

/-! ### Object-attribute memory -/

/-- WRITE8.OAM (R199): the catch-up, and nothing else. -/
def execWrite8Oam (a : Word) (_b : Byte) (s : State) : Result :=
  busWrite (Space.oam.holds a) s fun s => s

/-- WRITE16.OAM (R200). -/
def execWrite16Oam (a : Word) (h : Half) (s : State) : Result :=
  busWrite (Space.oam.holds a) s fun s => s.setOam (s.oam.write16 (alignHalf (bankOffset a)) h)

/-- WRITE32.OAM (R201). -/
def execWrite32Oam (a : Word) (w : Word) (s : State) : Result :=
  busWrite (Space.oam.holds a) s fun s => s.setOam (s.oam.write32 (alignWord (bankOffset a)) w)

/-! ### Registers -/

/-- WRITE8.MMIO (R203): the byte-lane merge. -/
def execWrite8Mmio (a : Word) (b : Byte) (s : State) : Result :=
  busWrite (Space.mmio.holds a) s fun s =>
    s.regWrite16 (alignHalf (mmioOffset a)) (mergeByte (s.regs.s16 (alignHalf (mmioOffset a))) (mmioOffset a) b)

/-- WRITE16.MMIO (R204). -/
def execWrite16Mmio (a : Word) (h : Half) (s : State) : Result :=
  busWrite (Space.mmio.holds a) s fun s => s.regWrite16 (alignHalf (mmioOffset a)) h

/-- WRITE32.MMIO (R205). -/
def execWrite32Mmio (a : Word) (w : Word) (s : State) : Result :=
  busWrite (Space.mmio.holds a) s fun s =>
    (s.regWrite16 (alignWord (mmioOffset a)) (loHalf w)).regWrite16 (alignWord (mmioOffset a) + 2) (hiHalf w)

end Sys2Proof.Machine
end

