-- ==== Sys2Proof/Machine/Callback.lean ====
section
/-! DEFINITION. Commands issued inside a callback (spec 40_scheduler.md R163; 42_scanline_timing.md R245, R247): the finite sequence of an external
event's action, or of the host's response to a call of a PPU handler (00_scope.md R6). Each command takes effect at once, in order, with `now` unchanged. -/

namespace Sys2Proof.Machine

/-- A command as it is issued: one that does not decode, and a host-issued EVENT, is refused (R118); any other runs. -/
def issueWith (run : Instr → State → Result) (c : Command) (s : State) : Result :=
  match decode c with
  | .error _ => .next (s.refuse .badCommand)
  | .ok i => if i.isEvent then .next (s.refuse .badCommand) else run i s

/-- The commands of a callback by instruction: the meanings `exec` gives them. (The EVENT callbacks are no commands: `issueWith` refuses them
before this.) -/
def runCommand (i : Instr) (s : State) : Result :=
  match i with
  | .schedule d k => execSchedule d k s
  | .cancel h => execCancel h s
  | .advance n => execAdvance n s
  | .now => execNow s
  | .next => execNext s
  | .remain => execRemain s
  | .read8Mmio a => execRead8Mmio a s
  | .read16Mmio a => execRead16Mmio a s
  | .read32Mmio a => execRead32Mmio a s
  | .read8Pram a => execRead8Pram a s
  | .read16Pram a => execRead16Pram a s
  | .read32Pram a => execRead32Pram a s
  | .read8Vram a => execRead8Vram a s
  | .read16Vram a => execRead16Vram a s
  | .read32Vram a => execRead32Vram a s
  | .read8Oam a => execRead8Oam a s
  | .read16Oam a => execRead16Oam a s
  | .read32Oam a => execRead32Oam a s
  | .write8Mmio a d => execWrite8Mmio a d s
  | .write16Mmio a d => execWrite16Mmio a d s
  | .write32Mmio a d => execWrite32Mmio a d s
  | .write8Pram a d => execWrite8Pram a d s
  | .write16Pram a d => execWrite16Pram a d s
  | .write32Pram a d => execWrite32Pram a d s
  | .write8Vram a d => execWrite8Vram a d s
  | .write16Vram a d => execWrite16Vram a d s
  | .write32Vram a d => execWrite32Vram a d s
  | .write8Oam a d => execWrite8Oam a d s
  | .write16Oam a d => execWrite16Oam a d s
  | .write32Oam a d => execWrite32Oam a d s
  | .drawEnd | .hblankEnd | .endOfTime | .external _ => .next (s.refuse .badCommand)

/-- The commands a host's response may hold: READ and WRITE (R6, R247), NOW, NEXT and REMAIN (R373). -/
def inResponse (i : Instr) : Bool :=
  i.isBus || i == .now || i == .next || i == .remain

/-- A command of a response. An ADVANCE is issued from inside a callback, which is `NestedAdvance` (R163, R336, R373); SCHEDULE and CANCEL
are outside what R6, R247 and R373 let a response hold, and refused (log entry 10). -/
def runInResponse (i : Instr) (s : State) : Result :=
  match i with
  | .advance _ => .next (s.raise .nestedAdvance)
  | i => if inResponse i then runCommand i s else .next (s.refuse .badCommand)

/-- A callback's commands, in order, until one raises a fatal error (R331). -/
def runAll (run : Instr → State → Result) : List Command → State → Result
  | [], s => .next s
  | c :: cs, s => andThen (issueWith run c s) (runAll run cs)

/-- `EXTERNAL_ACTION(k)` (R8, R245): the host's, and the empty sequence where it gives none. -/
def HostInput.actionOf (h : HostInput) (k : Word) : List Command :=
  match h.externalAction.find? (fun p => p.1 = k) with
  | some p => p.2
  | none => []

/-- A PPU handler calls the host (an interrupt request, a DMA notification, a frame hand-off): the output is appended, and the host's response, the
next one it has, runs inside the callback (R6, R247). Where it has none left, or an empty one, the call is fire-and-forget. (The response to an
interrupt request and to a hand-off: log entry 25.) -/
def State.callHost (s : State) (o : Output) : Result :=
  let s1 := s.emit o
  match s.host.responses with
  | [] => .next s1
  | r :: rs => runAll runInResponse r (s1.setHost { s.host with responses := rs })

/-- The call, when its condition holds. -/
def State.callIf (s : State) (b : Bool) (o : Output) : Result := if b then s.callHost o else .next s

end Sys2Proof.Machine
end

