-- ==== Sys2Proof/Machine/Events.lean ====
section
/-! DEFINITION. The EVENT callbacks (spec 42_scanline_timing.md R240 to R248): what a fired event executes, at `now` = its timestamp. -/

namespace Sys2Proof.Machine

/-- `ppu_ev <- Insert(delay, tag)` (R240, R241). A failed Insert leaves `ppu_ev` (the run has ended, R332). -/
def State.insertPpu (s : State) (delay : Timestamp) (tag : Tag) : Result :=
  andThen (.next (s.insert delay tag)) fun s' => .next (s'.setPpu { s'.ppu with ppuEv := s.sched.nextHandle })

/-- The PB/PD step of the internal references (R240), 32-bit wrapping. -/
def Ppu.lineStep (p : Ppu) (r : Regs) : Ppu :=
  { p with
    ix := p.ix.zipWith (fun a v => a + sextCoef v) r.pb
    iy := p.iy.zipWith (fun a v => a + sextCoef v) r.pd }

/-- Whether the current line is visible: `vcount < V_VISIBLE`. -/
def State.visible (s : State) : Bool := decide (s.ppu.vcount < s.params.vVisible)

/-- DrawEnd (R240) up to its first call of the host: the rest of the line is produced, then the PB/PD step, then the blank begins. -/
def State.drawEnded (s : State) : State :=
  let s1 := if s.visible then s.catchUp.setPpu (s.catchUp.ppu.lineStep s.catchUp.regs) else s
  (s1.setPpu { s1.ppu with phase := .hblank }).setRegs (s1.regs.setHblank true)

/-- DRAW_END (R240). -/
def execDrawEnd (s : State) : Result :=
  andThen (s.drawEnded.callIf s.drawEnded.regs.hblankIrqEn (.irqRequest .hblank s.drawEnded.sched.now)) fun s1 =>
    andThen (s1.callIf s1.visible (.dmaNotify .hblank s1.sched.now)) fun s2 =>
      s2.insertPpu (BitVec.ofNat 64 s.params.cyclesHBlank) .hblankEnd

/-- The first actions of HBlankEnd (R241): the next line, its draw phase begun now. -/
def State.nextLine (s : State) : State :=
  ((s.setPpu { s.ppu with vcount := (s.ppu.vcount + 1) % s.params.vTotal, phase := .draw, ls := s.sched.now }).setRegs
    (s.regs.setHblank false)).setLine { s.line with nextX := 0 }

/-- The assignments of VBlankStart (R243). -/
def State.vblankBegun (s : State) : State :=
  (s.setRegs (s.regs.setVblank true)).setPpu { s.ppu with ix := s.regs.refX, iy := s.regs.refY }

/-- VBlankStart (R243), at the start of line V_VISIBLE. -/
def State.vblankStart (s : State) : Result :=
  andThen (s.vblankBegun.callIf s.vblankBegun.regs.vblankIrqEn (.irqRequest .vblank s.vblankBegun.sched.now)) fun s1 =>
    s1.callHost (.dmaNotify .vblank s1.sched.now)

/-- The end of the vertical blank's flag (R241, R243). -/
def State.vblankEnded (s : State) : State :=
  if s.ppu.vcount + 1 = s.params.vTotal then s.setRegs (s.regs.setVblank false) else s

/-- The assignment of VCountCheck (R242). -/
def State.vcountMatched (s : State) : State := s.setRegs (s.regs.setVcountMatch (decide (s.ppu.vcount = s.regs.lyc)))

/-- VCountCheck (R242). -/
def State.vcountCheck (s : State) : Result :=
  s.vcountMatched.callIf (s.vcountMatched.regs.vcountMatch && s.vcountMatched.regs.vcountIrqEn)
    (.irqRequest .vcount s.vcountMatched.sched.now)

/-- LineStart on a visible line (R241, R263). -/
def State.lineStarted (s : State) : State := if s.visible then s.lineStart s.ppu.vcount else s

/-- HBLANK_END (R241, R248). -/
def execHblankEnd (s : State) : Result :=
  andThen (if s.nextLine.ppu.vcount = s.params.vVisible then s.nextLine.vblankStart else .next s.nextLine) fun s1 =>
    andThen (s1.vblankEnded.callIf (decide (s1.ppu.vcount = 0)) (.present s1.vblankEnded.fb s1.vblankEnded.sched.now)) fun s2 =>
      andThen s2.vcountCheck fun s3 =>
        s3.lineStarted.insertPpu (BitVec.ofNat 64 s.params.cyclesDraw) .drawEnd

/-- END_OF_TIME (R244, R330): the sentinel is due. -/
def execEndOfTime (s : State) : Result := .next (s.raise (.endOfTime s.sched.now))

/-- EXTERNAL(k) (R245): the host's action for the tag. -/
def execExternal (k : Word) (s : State) : Result := runAll runCommand (s.host.actionOf k) s

end Sys2Proof.Machine
end

