-- ==== Sys2Proof/Machine/Dispatch.lean ====
section
/-! DEFINITION. The meaning of every instruction: one arm each, one direct call. -/

namespace Sys2Proof.Machine

def exec (i : Instr) (s : State) : Host.Outcome State Fault Refusal :=
  match i with
  | .schedule d k => Sys2Proof.Machine.execSchedule d k s
  | .cancel h => Sys2Proof.Machine.execCancel h s
  | .advance n => Sys2Proof.Machine.execAdvance n s
  | .now => Sys2Proof.Machine.execNow s
  | .next => Sys2Proof.Machine.execNext s
  | .remain => Sys2Proof.Machine.execRemain s
  | .read8Mmio a => Sys2Proof.Machine.execRead8Mmio a s
  | .read16Mmio a => Sys2Proof.Machine.execRead16Mmio a s
  | .read32Mmio a => Sys2Proof.Machine.execRead32Mmio a s
  | .read8Pram a => Sys2Proof.Machine.execRead8Pram a s
  | .read16Pram a => Sys2Proof.Machine.execRead16Pram a s
  | .read32Pram a => Sys2Proof.Machine.execRead32Pram a s
  | .read8Vram a => Sys2Proof.Machine.execRead8Vram a s
  | .read16Vram a => Sys2Proof.Machine.execRead16Vram a s
  | .read32Vram a => Sys2Proof.Machine.execRead32Vram a s
  | .read8Oam a => Sys2Proof.Machine.execRead8Oam a s
  | .read16Oam a => Sys2Proof.Machine.execRead16Oam a s
  | .read32Oam a => Sys2Proof.Machine.execRead32Oam a s
  | .write8Mmio a d => Sys2Proof.Machine.execWrite8Mmio a d s
  | .write16Mmio a d => Sys2Proof.Machine.execWrite16Mmio a d s
  | .write32Mmio a d => Sys2Proof.Machine.execWrite32Mmio a d s
  | .write8Pram a d => Sys2Proof.Machine.execWrite8Pram a d s
  | .write16Pram a d => Sys2Proof.Machine.execWrite16Pram a d s
  | .write32Pram a d => Sys2Proof.Machine.execWrite32Pram a d s
  | .write8Vram a d => Sys2Proof.Machine.execWrite8Vram a d s
  | .write16Vram a d => Sys2Proof.Machine.execWrite16Vram a d s
  | .write32Vram a d => Sys2Proof.Machine.execWrite32Vram a d s
  | .write8Oam a d => Sys2Proof.Machine.execWrite8Oam a d s
  | .write16Oam a d => Sys2Proof.Machine.execWrite16Oam a d s
  | .write32Oam a d => Sys2Proof.Machine.execWrite32Oam a d s
  | .drawEnd => Sys2Proof.Machine.execDrawEnd s
  | .hblankEnd => Sys2Proof.Machine.execHblankEnd s
  | .endOfTime => Sys2Proof.Machine.execEndOfTime s
  | .external k => Sys2Proof.Machine.execExternal k s

end Sys2Proof.Machine
end

