-- ==== Sys2Proof/Machine/Control.lean ====
section
/-! DEFINITION. What a step does (spec 00_scope.md R6; 40_scheduler.md R155, R156, R159, R165; 60_exceptions.md R331): issue the host's next command, or take
one turn of the ADVANCE loop, or run the callback of the event being fired. Step.lean only chooses among these. -/

namespace Sys2Proof.Machine

/-- The callback a tag names (R165). -/
def Tag.instr : Tag → Instr
  | .drawEnd => .drawEnd
  | .hblankEnd => .hblankEnd
  | .endOfTime => .endOfTime
  | .external k => .external k

/-- The state with the host's next command taken from its stream. -/
def State.took (s : State) : State := s.setHost { s.host with commands := s.host.commands.tail }

/-- The host's next command is issued (R6, R118). With none left the block waits: its timeline runs exactly as far as the host's
commands take it (R350, R374). -/
def hostTurn (s : State) : Result :=
  match s.host.commands with
  | [] => .next s
  | c :: _ => issueWith exec c s.took

/-- The stuck block (R331): every later command is ignored. -/
def stuckTurn (s : State) : Result := .next s.took

/-- The end of Fire (R156), once the callback has returned: `firing <- none; RemoveAt(events[h].slot)`. -/
def finishFire (h : Nat) (s : State) : Result :=
  let c := { s.sched with firing := none }
  match c.event h with
  | none => .next (s.setSched c)
  | some e => .next (s.setSched (c.removeAt e.slot))

/-- The callback of the event being fired, and the end of Fire (R156, R165). -/
def callbackTurn (h : Nat) (s : State) : Result :=
  match s.sched.event h with
  | none => .fault .danglingFiring
  | some e => andThen (exec e.tag.instr s) (finishFire h)

/-- The beginning of Fire (R156): `now` becomes the event's timestamp; the sentinel is fatal; any other event is being fired. -/
def beginFire (h : Nat) (s : State) : Result :=
  let c := { s.sched with now := s.sched.ts h }
  match s.sched.event h with
  | some ⟨_, .endOfTime, _⟩ => exec .endOfTime (s.setSched c)
  | _ => .next (s.setSched { c with firing := some h })

/-- The end of ADVANCE (R159): `now <- target; in_advance <- false`. -/
def State.advanced (s : State) : State :=
  s.setSched { s.sched with now := s.sched.target, inAdvance := false }

/-- One turn of the ADVANCE loop (R159): no event is due and ADVANCE ends, or the next due one begins to fire (R155). -/
def loopTurn (s : State) : Result :=
  match s.sched.heap with
  | [] => .fault .emptyHeap
  | root :: _ =>
    if s.sched.target < s.sched.ts root then .next s.advanced
    else beginFire (s.chooseDue root).1 (s.chooseDue root).2

/-- The scheduler with an event of a callback being fired, for `State.withFetchWord`: an event with that tag is inserted, due now, inside
an ADVANCE to now. The sentinel is not inserted but reached: `now` is its timestamp `last`. -/
def Sched.firingEvent (c : Sched) (last : Timestamp) (tag : Tag) : Sched :=
  if tag = .endOfTime then
    let slot := match c.event 0 with | some e => e.slot | none => c.n
    { c.putEvent 0 ⟨last, .endOfTime, slot⟩ with
      now := last, inAdvance := true, target := last, firing := some 0 }
  else
    { c.push c.now tag with inAdvance := true, target := c.now, firing := some c.nextHandle }

/-- The tag of a callback instruction. -/
def firedTag : Instr → Option Tag
  | .drawEnd => some .drawEnd
  | .hblankEnd => some .hblankEnd
  | .endOfTime => some .endOfTime
  | .external k => some (.external k)
  | .schedule _ _ | .cancel _ | .advance _ | .now | .next | .remain => none
  | .read8Mmio _ | .read16Mmio _ | .read32Mmio _ | .read8Pram _ | .read16Pram _ | .read32Pram _ => none
  | .read8Vram _ | .read16Vram _ | .read32Vram _ | .read8Oam _ | .read16Oam _ | .read32Oam _ => none
  | .write8Mmio _ _ | .write16Mmio _ _ | .write32Mmio _ _ | .write8Pram _ _ | .write16Pram _ _ | .write32Pram _ _ => none
  | .write8Vram _ _ | .write16Vram _ _ | .write32Vram _ _ | .write8Oam _ _ | .write16Oam _ _ | .write32Oam _ _ => none

/-- The state in which the next step issues `c` (or, when `c` is the code of a callback, runs that callback as fired). -/
def State.fetching (s : State) (c : Command) : State :=
  match decode c with
  | .error _ => queued
  | .ok i =>
    match firedTag i with
    | none => queued
    | some tag => { s with fatal := none, sched := s.sched.firingEvent s.params.tsMax tag }
where
  queued : State :=
    { s with
      fatal := none
      sched := { s.sched with inAdvance := false, firing := none }
      host := { s.host with commands := c :: s.host.commands } }

end Sys2Proof.Machine
end

