-- ==== Sys2Proof/Machine/Step.lean ====
section
/-! DEFINITION. One step of the block (spec 00_scope.md R6), and the placing of an instruction where the next step fetches it. -/

namespace Sys2Proof.Machine

/-- One step: the stuck block ignores the host's next command (R331); an event being fired runs its callback (R156); an ADVANCE in
progress takes a turn of its loop (R159); otherwise the host's next command is issued (R6). -/
def step (s : State) : Host.Outcome State Fault Refusal :=
  if s.fatal.isSome then stuckTurn s
  else
    match s.sched.firing with
    | some h => callbackTurn h s
    | none => if s.sched.inAdvance then loopTurn s else hostTurn s

/-- `s` with the instruction of the table's bits where the next step fetches it (log entry 3): a command at the head of the host's
stream with the block ready for it, or, for the code of a callback, an event with its tag that is being fired. -/
def State.withFetchWord (s : State) (nbits w : Nat) : State :=
  s.fetching (Command.ofBits (w % 2 ^ nbits))

end Sys2Proof.Machine
end

