-- ==== Sys2Proof/Machine/Reset.lean ====
section
/-! DEFINITION. Reset as the procedure of spec 70_reset_and_hazards.md R360, step by step: the scheduler first, then the PPU, which starts line 0 and inserts
its first event. The obligation ResetProcedure says that `State.resetWith` is what it leaves. -/

namespace Sys2Proof.Machine

/-- Step 1 of R360: the scheduler with the sentinel alone. -/
def Sched.cleared (last : Timestamp) : Sched where
  now := 0#64
  events := [(0, some ⟨last, .endOfTime, 0⟩)]
  heap := [0]
  nextHandle := 1
  inAdvance := false
  target := 0#64
  firing := none

/-- The per-scanline state with every entry as R50 and R56 reset it, "all entries `false`/0"; LineStart(0), which follows in R360, leaves `prio` 3 in
the object buffer (R263, log entry 16). -/
def Line.cleared (width : Nat) : Line :=
  { Line.zero with objbuf := (List.range width).map fun x => (x, ⟨false, 0#15, 0#2, false⟩) }

/-- The assignments of step 2 of R360, before LineStart and Insert. -/
def State.cleared (params : Params) (host : HostInput) (pram oam vram : Memory) (fb : Frame) : State where
  sched := Sched.cleared params.tsMax
  fatal := none
  regs := Regs.zero
  ppu :=
    { vcount := 0, phase := .draw, ls := 0#64, ppuEv := 0
      ix := ⟨0#32, 0#32⟩, iy := ⟨0#32, 0#32⟩, mx := ⟨0#32, 0#32⟩, my := ⟨0#32, 0#32⟩ }
  line := Line.cleared params.hVisible
  pram := pram
  oam := oam
  vram := vram
  fb := fb
  trace := []
  params := params
  host := host
  draws := 0

/-- `Reset()` (R360): `LineStart(0); ppu_ev <- Insert(CYCLES_DRAW, DRAW_END)`. -/
def resetProcedure (params : Params) (host : HostInput) (pram oam vram : Memory) (fb : Frame) : State :=
  let s := (State.cleared params host pram oam vram fb).lineStart 0
  let s' := s.insert (BitVec.ofNat 64 params.cyclesDraw) .drawEnd
  s'.setPpu { s'.ppu with ppuEv := s.sched.nextHandle }

end Sys2Proof.Machine
end

