-- ==== Sys2Proof/Safety.lean ====
section
/-! DEFINITION. What the claims speak of: the invariants the spec gives (40_scheduler.md R164; 10_state.md R23, R25, R29, R48; 42_scanline_timing.md R246), the
canonical form of the sparse data, and a safe step. -/

namespace Sys2Proof.Machine

/-! ### Commands -/

/-- The legal codes in the prose of R116. -/
def legalCode (code : BitVec 16) : Prop :=
  (∃ k, k < 6 ∧ code.toNat = 0x1000 + 0x100 * k) ∨
  (∃ s w, 4 ≤ s ∧ s ≤ 7 ∧ w ≤ 2 ∧
    (code.toNat = 0x2000 + 0x100 * s + w ∨ code.toNat = 0x3000 + 0x100 * s + w)) ∨
  (∃ k, k < 4 ∧ code.toNat = 0x4000 + 0x100 * k)

/-- No "must be 0" operand field of a legal code is nonzero (R112, R113, R118; `B` of a READ and the zeros of an EVENT are the opcode table's, log entry 13). -/
def operandsLegal (c : Command) : Prop :=
  (c.code.toNat / 0x1000 = 1 → (0x1000 < c.code.toNat → c.b = 0#32) ∧ (0x1300 ≤ c.code.toNat → c.a = 0#64)) ∧
  (c.code.toNat / 0x1000 = 2 → c.a.toNat < 2 ^ 32 ∧ c.b = 0#32) ∧
  (c.code.toNat / 0x1000 = 3 → c.a.toNat < 2 ^ 32 ∧ c.b.toNat < 2 ^ (8 * 2 ^ (c.code.toNat % 4))) ∧
  (c.code.toNat / 0x1000 = 4 → c.a = 0#64 ∧ (c.code.toNat < 0x4300 → c.b = 0#32))

/-- The instruction is a WRITE: CLASS 0x3 (R110). -/
def isWriteInstr (i : Instr) : Prop := (encode i).code.extractLsb' 12 4 = 3#4

/-- Commands issued in order, each by the meaning `exec` gives it, until one raises a fatal error (R163, R245, R331). -/
def inOrder : List Command → State → Result
  | [], s => .next s
  | c :: cs, s =>
    match decode c with
    | .error _ => inOrder cs (s.refuse .badCommand)
    | .ok i =>
      if i.isEvent then inOrder cs (s.refuse .badCommand)
      else
        match exec i s with
        | .next t => if t.fatal.isSome then .next t else inOrder cs t
        | .fault r => .fault r
        | .refused r => .refused r

/-- What the commands of a host's response to a call of a handler do, in order, until one raises a fatal error (R6, R247, R331, R373): a READ, a WRITE, NOW,
NEXT and REMAIN have the meaning `exec` gives them, an ADVANCE is `NestedAdvance` (R163, R336), and any other command is refused (log entries 10, 19). -/
def answered : List Command → State → Result
  | [], s => .next s
  | c :: cs, s =>
    match decode c with
    | .error _ => answered cs (s.refuse .badCommand)
    | .ok (.advance _) => .next (s.raise .nestedAdvance)
    | .ok i =>
      if i.isBus = true ∨ i = .now ∨ i = .next ∨ i = .remain then andThen (exec i s) (answered cs)
      else answered cs (s.refuse .badCommand)

/-- No command of a callback's sequence is an ADVANCE, which would be `NestedAdvance` there (R163, R336). -/
def noAdvance (cs : List Command) : Prop := ∀ c ∈ cs, ∀ n, decode c ≠ .ok (.advance n)

/-- A call of the host inside a handler, when its condition holds: the output is appended, and the next response, if there is one, is used up and
its commands run (R6, R247). -/
def State.calls (s : State) (b : Bool) (o : Output) : Result :=
  if b then
    match s.host.responses with
    | [] => .next { s with trace := s.trace ++ [o] }
    | r :: rs => answered r { s with host := { s.host with responses := rs }, trace := s.trace ++ [o] }
  else .next s

/-- No response the host has ready holds an ADVANCE. -/
def HostInput.held (h : HostInput) : Prop := ∀ r ∈ h.responses, noAdvance r

/-! ### The bus -/

/-- The register halfword at an even offset as R180 shows it on the bus; `none` is NOT_DRIVEN. -/
def State.shown (s : State) (o : Nat) : Option Half :=
  if o = 0x00 then some s.regs.dispcnt
  else if o = 0x04 then some (s.regs.dispstat.extractLsb' 8 8 ++ 0#2 ++ s.regs.dispstat.extractLsb' 0 6)
  else if o = 0x06 then some (BitVec.ofNat 16 s.ppu.vcount)
  else if o = 0x08 then some s.regs.bgcnt.bg0
  else if o = 0x0A then some s.regs.bgcnt.bg1
  else if o = 0x0C then some s.regs.bgcnt.bg2
  else if o = 0x0E then some s.regs.bgcnt.bg3
  else if o = 0x48 then some s.regs.winin
  else if o = 0x4A then some s.regs.winout
  else if o = 0x50 then some s.regs.bldcnt
  else if o = 0x52 then some s.regs.bldalpha
  else none

/-- What every WRITE leaves beside what it stores (R90, R91): the line and the framebuffer as the catch-up leaves them, and nothing else
changed. The three banks are for the statement to say. -/
structure State.CaughtUp (s t : State) : Prop where
  sched : t.sched = s.sched
  fatal : t.fatal = s.fatal
  regs : t.regs = s.regs
  ppu : t.ppu = s.ppu
  line : t.line = s.catchUp.line
  fb : t.fb = s.catchUp.fb
  trace : t.trace = s.trace
  params : t.params = s.params
  host : t.host = s.host
  draws : t.draws = s.draws

/-- DISPCNT.BG_MODE as a number. -/
def State.mode (s : State) : Nat := s.regs.dispcnt.toNat % 8

/-- The position of a VRAM address in its 128 KiB window falls in the hole of the bitmap modes (R85). -/
def vramHole (mode o : Nat) : Prop := 0x18000 ≤ o ∧ o < 0x1C000 ∧ 3 ≤ mode

/-- The VRAM offset of a window position outside the hole (R85). -/
def vramAt (o : Nat) : Nat := if o < 0x18000 then o else o - 0x8000

/-- The timeline's state with the scheduler's clock at a later time: what the pixel pipeline sees then, if nothing else has changed. -/
def State.atTime (s : State) (t : Timestamp) : State := s.setSched { s.sched with now := t }

/-- The colour of pixel `x` of line `y` in the framebuffer. -/
def State.pixel (s : State) (x y : Nat) : Colour := Sparse.get 0#15 s.fb (s.params.hVisible * y + x)

/-! ### Objects and layers -/

/-- Object `i` draws the colour `c` at a pixel: it covers it with an opaque texel, and it is no object-window object (R274, R281). -/
def State.objDraws (s : State) (x y i : Nat) (c : Colour) : Prop :=
  i < 128 ∧ s.objAt (s.objAttr i) x y = some c ∧ (s.objAttr i).mode ≠ 2

/-- The sorting key of a candidate, `(priority, rank)` (R303). -/
def Candidate.key (c : Candidate) : Nat :=
  8 * c.prio.toNat +
    match c.layer with
    | .obj => 0
    | .bg i => 1 + i.index
    | .backdrop => 7

/-- What a background fetch of the byte at an offset gives (R266, R86): 0 at or beyond `BG_LIMIT`. -/
def State.bgByteAt (s : State) (o : Nat) : Nat := if o < (if s.mode ≤ 2 then 0x10000 else 0x14000) then (s.vram.read8 o).toNat else 0

/-- What a background fetch of the halfword at an offset gives (R266). -/
def State.bgHalfAt (s : State) (o : Nat) : Nat := s.bgByteAt (o + 1) * 256 + s.bgByteAt o

/-- The background colour of index `j` in palette `pal` of 16 entries (R122, R127, R128); index 0 is transparent. -/
def State.bgEntry (s : State) (j pal : Nat) : Option Colour :=
  if j = 0 then none else some ((s.pram.read16 (2 * (16 * pal + j))).extractLsb' 0 15)

/-- The object colour of index `j` in palette `pal` of 16 entries (R122, R279); index 0 is transparent. -/
def State.objEntry (s : State) (j pal : Nat) : Option Colour :=
  if j = 0 then none else some ((s.pram.read16 (0x200 + 2 * (16 * pal + j))).extractLsb' 0 15)

/-! ### Memories -/

/-- A sparse field in canonical form with every index below a bound. -/
def Sparse.bounded {α : Type} (d : α) (size : Nat) (m : Sparse α) : Prop :=
  Sparse.wf d m ∧ ∀ p ∈ m, p.1 < size

/-- A memory bank in canonical form, with no byte beyond its size (R51 to R53). -/
abbrev Memory.wf (m : Memory) : Prop := Sparse.wf 0#8 m

/-- Every sparse field of the state is canonical and within its size (R9, R50, R54). -/
structure State.MemInv (s : State) : Prop where
  pram : Sparse.bounded 0#8 Config.pramBytes s.pram
  oam : Sparse.bounded 0#8 Config.oamBytes s.oam
  vram : Sparse.bounded 0#8 Config.vramBytes s.vram
  fb : Sparse.bounded 0#15 (s.params.hVisible * s.params.vVisible) s.fb
  objbuf : Sparse.bounded ObjEntry.clear s.params.hVisible s.line.objbuf
  objwin : Sparse.bounded false s.params.hVisible s.line.objwin
  win0 : Sparse.bounded false s.params.hVisible s.line.win0
  win1 : Sparse.bounded false s.params.hVisible s.line.win1
  nextX : s.line.nextX ≤ s.params.hVisible

/-! ### Registers -/

/-- A reference point register holds a sign-extended 28-bit value (R37). -/
def refInRange (w : Word) : Prop := sextRef w = w

/-- "A stored bit outside the stored mask is always 0" (R29), and a reference point is a 28-bit field (R37). -/
structure Regs.Inv (r : Regs) : Prop where
  dispcnt : r.dispcnt &&& 0xFFF7#16 = r.dispcnt
  dispstat : r.dispstat &&& 0xFF3F#16 = r.dispstat
  bg0cnt : r.bgcnt.bg0 &&& 0xDFFF#16 = r.bgcnt.bg0
  bg1cnt : r.bgcnt.bg1 &&& 0xDFFF#16 = r.bgcnt.bg1
  hofs : ∀ i, r.hofs.get i &&& 0x01FF#16 = r.hofs.get i
  vofs : ∀ i, r.vofs.get i &&& 0x01FF#16 = r.vofs.get i
  refX : ∀ k, refInRange (r.refX.get k)
  refY : ∀ k, refInRange (r.refY.get k)
  winin : r.winin &&& 0x3F3F#16 = r.winin
  winout : r.winout &&& 0x3F3F#16 = r.winout
  bldcnt : r.bldcnt &&& 0x3FFF#16 = r.bldcnt
  bldalpha : r.bldalpha &&& 0x1F1F#16 = r.bldalpha
  bldy : r.bldy &&& 0x001F#16 = r.bldy

/-! ### Scheduler -/

/-- What a live handle is due for: its event's timestamp and tag; `none` for a stale handle (R22, R26). -/
def Sched.due (c : Sched) (h : Nat) : Option (Timestamp × Tag) := (c.event h).map fun e => (e.ts, e.tag)

/-- Heap order: "the parent timestamp ≤ both children's timestamps holds for every internal node" (R23, R164.1). -/
def Sched.Ordered (c : Sched) : Prop :=
  ∀ i, 0 < i → i < c.n → c.tsAt ((i - 1) / 2) ≤ c.tsAt i

/-- The heap and the live events name each other: `heap[events[h].slot] = h` (R23, R164.6), and every heap entry is live. -/
structure Sched.Linked (c : Sched) : Prop where
  events_wf : Sparse.wf none c.events
  live : ∀ i h, c.heap[i]? = some h → ∃ e, c.event h = some e ∧ e.slot = i
  slot : ∀ h e, c.event h = some e → c.heap[e.slot]? = some h

/-- The scheduler's invariants (R23, R25, R26, R27, R164), with the fact about `firing` that R156 gives: the event whose callback runs is still
live, and `now` is its timestamp. `last` is the sentinel's timestamp, the parameters' `2^TS_BITS - 1` (R25). -/
structure Sched.Inv (c : Sched) (last : Timestamp) : Prop where
  linked : c.Linked
  ordered : c.Ordered
  sentinel : ∃ e, c.event 0 = some e ∧ e.ts = last ∧ e.tag = .endOfTime
  oneSentinel : ∀ h e, c.event h = some e → h ≠ 0 → e.tag ≠ .endOfTime ∧ e.ts < last
  notPast : ∀ h e, c.event h = some e → c.now ≤ e.ts
  issued : ∀ h e, c.event h = some e → h < c.nextHandle
  someIssued : 0 < c.nextHandle
  target : c.inAdvance = true → c.now ≤ c.target
  firing : ∀ h, c.firing = some h → c.inAdvance = true ∧ h ≠ 0 ∧ ∃ e, c.event h = some e ∧ e.ts = c.now

/-- The scheduler's invariants under the state's parameters. -/
abbrev State.SchedInv (s : State) : Prop := s.sched.Inv s.params.tsMax

/-- The fields of the scheduler that the heap primitives leave alone. -/
structure Sched.SameClock (c c' : Sched) : Prop where
  now : c'.now = c.now
  inAdvance : c'.inAdvance = c.inAdvance
  target : c'.target = c.target
  firing : c'.firing = c.firing

/-- What `push` leaves (R153): the new event under the handle it issues, every other event as it was, in a heap that is still linked and
ordered. -/
structure Sched.Pushed (c : Sched) (ts : Timestamp) (tag : Tag) (c' : Sched) : Prop where
  new : c'.due c.nextHandle = some (ts, tag)
  old : ∀ h, h ≠ c.nextHandle → c'.due h = c.due h
  perm : c'.heap.Perm (c.nextHandle :: c.heap)
  clock : c.SameClock c'
  nextHandle : c'.nextHandle = c.nextHandle + 1
  linked : c'.Linked
  ordered : c'.Ordered

/-- What `removeAt` leaves (R154): the handle at the slot is stale, every other event as it was, in a heap that is still linked and
ordered. -/
structure Sched.Removed (c : Sched) (h : Nat) (c' : Sched) : Prop where
  gone : c'.event h = none
  old : ∀ k, k ≠ h → c'.due k = c.due k
  perm : (h :: c'.heap).Perm c.heap
  clock : c.SameClock c'
  nextHandle : c'.nextHandle = c.nextHandle
  linked : c'.Linked
  ordered : c'.Ordered

/-! ### The PPU's timeline -/

/-- An event is the PPU's own (R22). -/
def Tag.isPpu : Tag → Bool
  | .drawEnd | .hblankEnd => true
  | .endOfTime | .external _ => false

/-- The tag of the PPU's pending event in a phase (R240, R241). -/
def Phase.tag : Phase → Tag
  | .draw => .drawEnd
  | .hblank => .hblankEnd

/-- How long after the line start the PPU's pending event is due (R246). -/
def Phase.due (p : Params) : Phase → Nat
  | .draw => p.cyclesDraw
  | .hblank => p.cyclesLine

/-- "Exactly one PPU event is pending at every moment outside its own callback, and `ppu_ev` names it" (R246), due at the line start plus
the length of the phases; the line starts at `CYCLES_FRAME f + CYCLES_LINE vcount` of some frame `f` (R246, there with the defaults); DISPSTAT.HBLANK is
the phase and DISPSTAT.VBLANK is set on the lines `V_VISIBLE` to `V_TOTAL - 2` (R31, R243, R372); and no pixel is produced before its time (R261). -/
structure State.Timeline (s : State) : Prop where
  pending : ∃ e, s.sched.event s.ppu.ppuEv = some e ∧ e.tag = s.ppu.phase.tag ∧
    e.ts.toNat = s.ppu.ls.toNat + s.ppu.phase.due s.params
  only : ∀ h e, s.sched.event h = some e → e.tag.isPpu = true → h = s.ppu.ppuEv
  begun : s.ppu.ls ≤ s.sched.now
  frame : s.ppu.ls.toNat % s.params.cyclesFrame = s.params.cyclesLine * s.ppu.vcount
  hblank : s.regs.hblank = true ↔ s.ppu.phase = .hblank
  vblank : s.regs.vblank = true ↔ s.params.vVisible ≤ s.ppu.vcount ∧ s.ppu.vcount + 1 < s.params.vTotal
  produced : s.params.cyclesPerDot * s.line.nextX ≤ s.sched.now.toNat - s.ppu.ls.toNat

/-- The state between two steps of a run that no fatal error has ended, or the stuck state after one. -/
structure State.Inv (s : State) : Prop where
  mem : s.MemInv
  regs : s.regs.Inv
  params : s.params.Legal
  vcount : s.ppu.vcount < s.params.vTotal
  sched : s.SchedInv
  capacity : s.sched.n ≤ s.params.schedCapacity
  timeline : s.fatal = none → s.Timeline

/-- A safe step: it answers a next state, so the run goes on (a fatal error of the spec is a next state; a fault is none). -/
def State.SafeStep (s : State) : Prop := ∃ t, step s = .next t

end Sys2Proof.Machine
end

