-- ==== Sys2Proof/Certificates/Slice0/Obligations.lean ====
section
/-! DEFINITION. The statements for the provers, from the spec's numbered rules. Addresses, fields and channels are written as arithmetic on
numbers where a statement can say them without the model's own helper. -/

section

open Sys2Proof Sys2Proof.Machine

/-! ### Commands and their encoding -/

/-- R110 to R117: every instruction is read back whole from the triple it is encoded in, whatever its operands. -/
def Obligations.DecodeEncode : Prop := ∀ i : Instr, decode (encode i) = .ok i

/-- R110, R113, R116, and log entry 13: a triple that decodes is the encoding of what it decodes to, so no bit of a command is ignored. (That a nonzero
`B` of a READ and a nonzero unused operand of an EVENT do not decode is the model's reading of the opcode table, log entry 13.) -/
def Obligations.EncodeDecode : Prop := ∀ (c : Command) (i : Instr), decode c = .ok i → encode i = c

/-- R112, R113, R116, R118: the 34 codes of R116's list are the legal ones, every other 16-bit value is reserved whatever the operands; a legal
code decodes exactly when no "must be 0" operand field is nonzero, `A[31:28]` of a READ or WRITE excepted. (R113 has `A[31:28]` be 0 too: that such a triple
decodes and its meaning refuses it, as it does every address of another space, is the model's choice, log entry 1. That a READ's `B` and the operands an EVENT
does not use must be 0 is the opcode table's, log entry 13.) -/
def Obligations.LegalCommands : Prop :=
  ∀ c : Command,
    (decode c = .error .reservedCode ↔ ¬ legalCode c.code) ∧
    (legalCode c.code → ((∃ i, decode c = .ok i) ↔ operandsLegal c))

/-- R81, R82: the address ranges of the four spaces. -/
def Obligations.AddressSpaces : Prop :=
  ∀ a : Word,
    (Space.mmio.holds a = true ↔ 0x04000000 ≤ a.toNat ∧ a.toNat ≤ 0x04000057) ∧
    (Space.pram.holds a = true ↔ 0x05000000 ≤ a.toNat ∧ a.toNat < 0x06000000) ∧
    (Space.vram.holds a = true ↔ 0x06000000 ≤ a.toNat ∧ a.toNat < 0x07000000) ∧
    (Space.oam.holds a = true ↔ 0x07000000 ≤ a.toNat ∧ a.toNat < 0x08000000)

/-- Words written out from the codes of R112, R113, R115 and R116 (`code` in bits 15:0, `A` in 79:16, `B` in 111:80, log entry 2). -/
def Obligations.SpecWords : Prop :=
  decodeTableWord 112 (0x1000 + 400 * 2 ^ 16 + 9 * 2 ^ 80) = some (.schedule 400#64 9#32) ∧
  decodeTableWord 112 (0x1100 + 2 * 2 ^ 16) = some (.cancel 2#64) ∧
  decodeTableWord 112 (0x2602 + 0x06000020 * 2 ^ 16) = some (.read32Vram 0x06000020#32) ∧
  decodeTableWord 112 (0x3500 + 0x05000001 * 2 ^ 16 + 0xAB * 2 ^ 80) = some (.write8Pram 0x05000001#32 0xAB#8) ∧
  decodeTableWord 112 (0x3401 + 0x04000010 * 2 ^ 16 + 8 * 2 ^ 80) = some (.write16Mmio 0x04000010#32 8#16) ∧
  decodeTableWord 112 (0x4300 + 7 * 2 ^ 80) = some (.external 7#32) ∧
  decodeTableWord 112 0x2403 = none

/-! ### Steps -/

/-- R6: when no callback and no ADVANCE is in progress, a step takes the host's next command and runs the instruction it decodes to.
That a step is one command, the stream standing in State, is the model's choice (log entry 9). -/
def Obligations.StepIssuesCommand : Prop :=
  ∀ (s : State) (c : Command) (cs : List Command) (i : Instr),
    s.fatal = none → s.sched.firing = none → s.sched.inAdvance = false → s.host.commands = c :: cs →
    decode c = .ok i → i.isEvent = false →
    step s = exec i { s with host := { s.host with commands := cs } }

/-- R118, R334: a command that does not decode, a host-issued EVENT, and a READ or WRITE whose address does not decode to the space it names
change nothing and leave the refusal mark; only the host's stream moves on by that command (the stream is the model's own field, log entry 9; that a wrong
address decodes and is refused by the meaning, log entry 1). -/
def Obligations.CommandsRefused : Prop :=
  (∀ (s : State) (c : Command) (cs : List Command),
    s.fatal = none → s.sched.firing = none → s.sched.inAdvance = false → s.host.commands = c :: cs →
    ((∃ e, decode c = .error e) ∨ ∃ i, decode c = .ok i ∧ i.isEvent = true) →
    step s = .next
      { s with host := { s.host with commands := cs }, trace := s.trace ++ [.refused .badCommand] }) ∧
  (∀ (i : Instr) (s : State), i.wf = false → exec i s = .next { s with trace := s.trace ++ [.refused .badCommand] })

/-- R331: once a fatal error is recorded, every later command is ignored: only the host's stream moves on (the stream is the model's own
field, log entry 9). -/
def Obligations.StuckIgnoresCommands : Prop :=
  ∀ (s : State), s.fatal ≠ none →
    step s = .next { s with host := { s.host with commands := s.host.commands.tail } }

/-- R156, R165: the step after an event begins to fire runs the callback its tag names. When that returns, nothing is firing any more and the
event has been removed, wherever it had moved to; when it raised a fatal error, the step ends there. That a callback is a step of its own, and that
its firing and removal append nothing to the trace beside the callback's outputs, are the model's choices (log entries 7, 26). -/
def Obligations.StepRunsCallback : Prop :=
  ∀ (s t : State) (h : Nat) (e : Event) (i : Instr),
    s.fatal = none → s.SchedInv → s.sched.firing = some h → s.sched.event h = some e →
    (e.tag = .drawEnd ∧ i = .drawEnd ∨ e.tag = .hblankEnd ∧ i = .hblankEnd ∨
      ∃ k, e.tag = .external k ∧ i = .external k) →
    exec i s = .next t →
    (t.fatal ≠ none → step s = .next t) ∧
    (t.fatal = none →
      ∃ c, step s = .next { t with sched := c } ∧ Sched.Removed { t.sched with firing := none } h c)

/-- R155, R156, R159: one turn of ADVANCE's loop. With no event due, `now` becomes the target and ADVANCE ends. Otherwise a live event of the
least timestamp of all begins to fire at its own timestamp (the root under `HEAP`); the sentinel is fatal instead. That
a turn is a step of its own, and that beginning to fire appends nothing to the trace, are the model's choices (log entries 7, 26). -/
def Obligations.AdvanceTurn : Prop :=
  ∀ s : State, s.fatal = none → s.SchedInv → s.sched.firing = none → s.sched.inAdvance = true →
    ((∀ h e, s.sched.event h = some e → s.sched.target < e.ts) →
      step s = .next { s with sched := { s.sched with now := s.sched.target, inAdvance := false } }) ∧
    ((∃ h e, s.sched.event h = some e ∧ e.ts ≤ s.sched.target) →
      ∃ h e d, s.sched.event h = some e ∧ (∀ k f, s.sched.event k = some f → e.ts ≤ f.ts) ∧
        (s.params.tiePolicy = .heap → s.sched.heap[0]? = some h) ∧
        (e.tag ≠ .endOfTime →
          step s = .next { s with sched := { s.sched with now := e.ts, firing := some h }, draws := d }) ∧
        (e.tag = .endOfTime →
          step s = .next
            { s with
              sched := { s.sched with now := e.ts }
              draws := d
              fatal := some (.endOfTime e.ts)
              trace := s.trace ++ [.fatal (.endOfTime e.ts) e.ts] }))

/-! ### Scheduler commands -/

/-- R153, R157: SCHEDULE below capacity inserts an event due at `now + A` with tag `EXTERNAL(B)` under the next handle and returns that handle.
Every other event, the clock and the dispatch flags stay, the heap stays ordered and linked, and nothing else of the state changes. -/
def Obligations.ScheduleInserts : Prop :=
  ∀ (s : State) (d : Timestamp) (k : Word), s.fatal = none → s.SchedInv → s.params.tsBits ≤ 64 →
    s.sched.n < s.params.schedCapacity → s.sched.now.toNat + d.toNat < 2 ^ s.params.tsBits - 1 →
    ∃ c, exec (.schedule d k) s =
        .next { s with sched := c, trace := s.trace ++ [.handle s.sched.nextHandle] } ∧
      s.sched.Pushed (s.sched.now + d) (.external k) c

/-- R332, R333, R337: SCHEDULE on a full heap is `CapacityExceeded` with the tag, even when the sum would also overflow; with room, a sum of
`2^TS_BITS - 1` or more is `TimestampOverflow` with the operand. Nothing else changes. -/
def Obligations.ScheduleFatal : Prop :=
  ∀ (s : State) (d : Timestamp) (k : Word), s.params.tsBits ≤ 64 →
    (s.sched.n = s.params.schedCapacity →
      exec (.schedule d k) s = .next
        { s with
          fatal := some (.capacityExceeded (.external k))
          trace := s.trace ++ [.fatal (.capacityExceeded (.external k)) s.sched.now] }) ∧
    (s.sched.n < s.params.schedCapacity → 2 ^ s.params.tsBits - 1 ≤ s.sched.now.toNat + d.toNat →
      exec (.schedule d k) s = .next
        { s with
          fatal := some (.timestampOverflow d)
          trace := s.trace ++ [.fatal (.timestampOverflow d) s.sched.now] })

/-- R158, R335, R334: CANCEL of a stale handle does nothing; of the sentinel or a PPU event it is refused as `BadHandle`; of the event whose
callback is running it is `CancelWhileFiring`; of any other live event it removes that event and nothing else. -/
def Obligations.CancelOutcomes : Prop :=
  ∀ (s : State) (a : BitVec 64), s.SchedInv →
    (s.sched.event a.toNat = none → exec (.cancel a) s = .next s) ∧
    (∀ e, s.sched.event a.toNat = some e → (∀ k, e.tag ≠ .external k) →
      exec (.cancel a) s = .next { s with trace := s.trace ++ [.refused .badHandle] }) ∧
    (∀ e k, s.sched.event a.toNat = some e → e.tag = .external k → s.sched.firing = some a.toNat →
      exec (.cancel a) s = .next
        { s with
          fatal := some (.cancelWhileFiring a.toNat)
          trace := s.trace ++ [.fatal (.cancelWhileFiring a.toNat) s.sched.now] }) ∧
    (∀ e k, s.sched.event a.toNat = some e → e.tag = .external k → s.sched.firing ≠ some a.toNat →
      ∃ c, exec (.cancel a) s = .next { s with sched := c } ∧ s.sched.Removed a.toNat c)

/-- R159, R336, R333, R337: ADVANCE while one is in progress is `NestedAdvance`; else a sum beyond `2^TS_BITS - 1` is `TimestampOverflow`; else the
advance to the exact sum begins, and nothing else changes. That the loop is left to the steps that follow is the model's choice (log entry 7). -/
def Obligations.AdvanceBegins : Prop :=
  ∀ (s : State) (n : Timestamp), s.params.tsBits ≤ 64 →
    (s.sched.inAdvance = true →
      exec (.advance n) s = .next
        { s with fatal := some .nestedAdvance, trace := s.trace ++ [.fatal .nestedAdvance s.sched.now] }) ∧
    (s.sched.inAdvance = false → 2 ^ s.params.tsBits - 1 < s.sched.now.toNat + n.toNat →
      exec (.advance n) s = .next
        { s with
          fatal := some (.timestampOverflow n)
          trace := s.trace ++ [.fatal (.timestampOverflow n) s.sched.now] }) ∧
    (s.sched.inAdvance = false → s.sched.now.toNat + n.toNat ≤ 2 ^ s.params.tsBits - 1 →
      exec (.advance n) s = .next
        { s with
          sched :=
            { s.sched with
              inAdvance := true
              target := BitVec.ofNat 64 (s.sched.now.toNat + n.toNat) } })

/-- R160, R161, R162: NOW returns `now`; NEXT returns the least timestamp of all live events, which exists; REMAIN returns how far it lies ahead.
None of the three changes anything. -/
def Obligations.TimeQueries : Prop :=
  ∀ s : State, s.SchedInv →
    exec .now s = .next { s with trace := s.trace ++ [.timestamp s.sched.now] } ∧
    ∃ h e, s.sched.event h = some e ∧ (∀ k f, s.sched.event k = some f → e.ts ≤ f.ts) ∧
      exec .next s = .next { s with trace := s.trace ++ [.timestamp e.ts] } ∧
      s.sched.now ≤ e.ts ∧
      exec .remain s = .next
        { s with trace := s.trace ++ [.timestamp (BitVec.ofNat 64 (e.ts.toNat - s.sched.now.toNat))] }

/-- R26: over every step the handle counter never falls, and an issued handle that is stale stays stale. -/
def Obligations.HandlesNeverReused : Prop :=
  ∀ s t : State, s.SchedInv → step s = .next t →
    s.sched.nextHandle ≤ t.sched.nextHandle ∧
    ∀ h, h < s.sched.nextHandle → s.sched.event h = none → t.sched.event h = none

/-! ### Bus reads -/

/-- R83, R84, R87, R88, R184 to R186, R190 to R192: reads of palette and object memory, at every address of their ranges, aligned down to the access
and little-endian. A read appends its value to the trace and changes nothing else. -/
def Obligations.ReadPaletteAndOam : Prop :=
  ∀ (s : State) (a : Word),
    (0x05000000 ≤ a.toNat → a.toNat < 0x06000000 →
      exec (.read8Pram a) s = .next
        { s with trace := s.trace ++ [.read (.r8 (.driven (s.pram.read8 (a.toNat % 0x400))))] } ∧
      exec (.read16Pram a) s = .next
        { s with
          trace := s.trace ++
            [.read (.r16 (.driven
              (s.pram.read8 (a.toNat % 0x400 / 2 * 2 + 1) ++ s.pram.read8 (a.toNat % 0x400 / 2 * 2))))] } ∧
      exec (.read32Pram a) s = .next
        { s with
          trace := s.trace ++
            [.read (.r32
              (.driven (s.pram.read8 (a.toNat % 0x400 / 4 * 4 + 1) ++ s.pram.read8 (a.toNat % 0x400 / 4 * 4)))
              (.driven
                (s.pram.read8 (a.toNat % 0x400 / 4 * 4 + 3) ++ s.pram.read8 (a.toNat % 0x400 / 4 * 4 + 2))))] }) ∧
    (0x07000000 ≤ a.toNat → a.toNat < 0x08000000 →
      exec (.read8Oam a) s = .next
        { s with trace := s.trace ++ [.read (.r8 (.driven (s.oam.read8 (a.toNat % 0x400))))] } ∧
      exec (.read16Oam a) s = .next
        { s with
          trace := s.trace ++
            [.read (.r16 (.driven
              (s.oam.read8 (a.toNat % 0x400 / 2 * 2 + 1) ++ s.oam.read8 (a.toNat % 0x400 / 2 * 2))))] } ∧
      exec (.read32Oam a) s = .next
        { s with
          trace := s.trace ++
            [.read (.r32
              (.driven (s.oam.read8 (a.toNat % 0x400 / 4 * 4 + 1) ++ s.oam.read8 (a.toNat % 0x400 / 4 * 4)))
              (.driven
                (s.oam.read8 (a.toNat % 0x400 / 4 * 4 + 3) ++ s.oam.read8 (a.toNat % 0x400 / 4 * 4 + 2))))] })

/-- R85, R187, R188, R189: reads of image memory. A window position in the hole of the bitmap modes reads 0 at every width; any other reads the
bytes at its offset, with 0x18000 and above mapped onto the object region. Nothing but the trace changes. -/
def Obligations.ReadImage : Prop :=
  ∀ (s : State) (a : Word), 0x06000000 ≤ a.toNat → a.toNat < 0x07000000 →
    (vramHole s.mode (a.toNat % 0x20000) →
      exec (.read8Vram a) s = .next { s with trace := s.trace ++ [.read (.r8 (.driven 0#8))] } ∧
      exec (.read16Vram a) s = .next { s with trace := s.trace ++ [.read (.r16 (.driven 0#16))] } ∧
      exec (.read32Vram a) s = .next { s with trace := s.trace ++ [.read (.r32 (.driven 0#16) (.driven 0#16))] }) ∧
    (¬ vramHole s.mode (a.toNat % 0x20000) →
      exec (.read8Vram a) s = .next
        { s with trace := s.trace ++ [.read (.r8 (.driven (s.vram.read8 (vramAt (a.toNat % 0x20000)))))] } ∧
      exec (.read16Vram a) s = .next
        { s with
          trace := s.trace ++
            [.read (.r16 (.driven
              (s.vram.read8 (vramAt (a.toNat % 0x20000 / 2 * 2) + 1) ++
                s.vram.read8 (vramAt (a.toNat % 0x20000 / 2 * 2)))))] } ∧
      exec (.read32Vram a) s = .next
        { s with
          trace := s.trace ++
            [.read (.r32
              (.driven
                (s.vram.read8 (vramAt (a.toNat % 0x20000 / 4 * 4) + 1) ++
                  s.vram.read8 (vramAt (a.toNat % 0x20000 / 4 * 4))))
              (.driven
                (s.vram.read8 (vramAt (a.toNat % 0x20000 / 4 * 4) + 3) ++
                  s.vram.read8 (vramAt (a.toNat % 0x20000 / 4 * 4) + 2))))] })

/-- R92, R180, R181, R182, R183: reads of the register bank, at every address of it. A register the bank drives shows its value, a byte read the lane
its address selects; any other halfword is NOT_DRIVEN, with some value seen; a 32-bit read shows each of its two halfwords by itself. Only the trace
and the count of free values (log entry 4) change. -/
def Obligations.ReadRegisters : Prop :=
  (∀ (s : State) (o : Nat) (a : Word), o ≤ 0x57 → a.toNat = 0x04000000 + o →
      (∀ h, s.shown (o / 2 * 2) = some h →
        exec (.read8Mmio a) s = .next
          { s with trace := s.trace ++ [.read (.r8 (.driven (h.extractLsb' (8 * (o % 2)) 8)))] } ∧
        exec (.read16Mmio a) s = .next { s with trace := s.trace ++ [.read (.r16 (.driven h))] }) ∧
      (s.shown (o / 2 * 2) = none →
        (∃ v, exec (.read8Mmio a) s = .next
          { s with trace := s.trace ++ [.read (.r8 (.notDriven v))], draws := s.draws + 1 }) ∧
        ∃ v, exec (.read16Mmio a) s = .next
          { s with trace := s.trace ++ [.read (.r16 (.notDriven v))], draws := s.draws + 1 })) ∧
  (∀ (s : State) (o : Nat) (a : Word), o ≤ 0x57 → a.toNat = 0x04000000 + o →
      ∃ (lo hi : Lane 16) (d : Nat),
        exec (.read32Mmio a) s = .next { s with trace := s.trace ++ [.read (.r32 lo hi)], draws := d } ∧
        (∀ v, s.shown (o / 4 * 4) = some v → lo = .driven v) ∧
        (s.shown (o / 4 * 4) = none → ∃ v, lo = .notDriven v) ∧
        (∀ v, s.shown (o / 4 * 4 + 2) = some v → hi = .driven v) ∧
        (s.shown (o / 4 * 4 + 2) = none → ∃ v, hi = .notDriven v))

/-! ### Bus writes -/

/-- R83, R87 to R90, R193, R194, R195: writes of palette memory. The pipeline is caught up first; a byte is replicated into both halves of its
halfword, a halfword and a word land little-endian at the aligned offset; every other byte, and both other banks, stay. -/
def Obligations.WritePalette : Prop :=
  ∀ (s : State) (a : Word), 0x05000000 ≤ a.toNat → a.toNat < 0x06000000 →
    (∀ b, ∃ t, exec (.write8Pram a b) s = .next t ∧ s.CaughtUp t ∧ t.oam = s.oam ∧ t.vram = s.vram ∧
      ∀ j, t.pram.read8 j = if j / 2 = a.toNat % 0x400 / 2 then b else s.pram.read8 j) ∧
    (∀ h, ∃ t, exec (.write16Pram a h) s = .next t ∧ s.CaughtUp t ∧ t.oam = s.oam ∧ t.vram = s.vram ∧
      ∀ j, t.pram.read8 j =
        if j / 2 = a.toNat % 0x400 / 2 then h.extractLsb' (8 * (j % 2)) 8 else s.pram.read8 j) ∧
    (∀ w, ∃ t, exec (.write32Pram a w) s = .next t ∧ s.CaughtUp t ∧ t.oam = s.oam ∧ t.vram = s.vram ∧
      ∀ j, t.pram.read8 j =
        if j / 4 = a.toNat % 0x400 / 4 then w.extractLsb' (8 * (j % 4)) 8 else s.pram.read8 j)

/-- R84, R87 to R90, R199, R200, R201: writes of object memory. A byte write is dropped, the catch-up apart; wider ones land little-endian at
the aligned offset; every other byte, and both other banks, stay. -/
def Obligations.WriteOam : Prop :=
  ∀ (s : State) (a : Word), 0x07000000 ≤ a.toNat → a.toNat < 0x08000000 →
    (∀ b, ∃ t, exec (.write8Oam a b) s = .next t ∧ s.CaughtUp t ∧ t.pram = s.pram ∧ t.vram = s.vram ∧ t.oam = s.oam) ∧
    (∀ h, ∃ t, exec (.write16Oam a h) s = .next t ∧ s.CaughtUp t ∧ t.pram = s.pram ∧ t.vram = s.vram ∧
      ∀ j, t.oam.read8 j =
        if j / 2 = a.toNat % 0x400 / 2 then h.extractLsb' (8 * (j % 2)) 8 else s.oam.read8 j) ∧
    (∀ w, ∃ t, exec (.write32Oam a w) s = .next t ∧ s.CaughtUp t ∧ t.pram = s.pram ∧ t.vram = s.vram ∧
      ∀ j, t.oam.read8 j =
        if j / 4 = a.toNat % 0x400 / 4 then w.extractLsb' (8 * (j % 4)) 8 else s.oam.read8 j)

/-- R85, R86, R89, R90, R196, R197, R198: writes of image memory. Nothing lands in the hole; a byte is replicated below the background limit of the
mode and dropped from there on; halfwords and words land everywhere else. Every other byte, and both other banks, stay. -/
def Obligations.WriteImage : Prop :=
  ∀ (s : State) (a : Word), 0x06000000 ≤ a.toNat → a.toNat < 0x07000000 →
    (∀ b, ∃ t, exec (.write8Vram a b) s = .next t ∧ s.CaughtUp t ∧ t.pram = s.pram ∧ t.oam = s.oam ∧
      ((vramHole s.mode (a.toNat % 0x20000) ∨
          (if s.mode ≤ 2 then 0x10000 else 0x14000) ≤ vramAt (a.toNat % 0x20000)) → t.vram = s.vram) ∧
      (¬ vramHole s.mode (a.toNat % 0x20000) →
        vramAt (a.toNat % 0x20000) < (if s.mode ≤ 2 then 0x10000 else 0x14000) →
        ∀ j, t.vram.read8 j = if j / 2 = vramAt (a.toNat % 0x20000) / 2 then b else s.vram.read8 j)) ∧
    (∀ h, ∃ t, exec (.write16Vram a h) s = .next t ∧ s.CaughtUp t ∧ t.pram = s.pram ∧ t.oam = s.oam ∧
      (vramHole s.mode (a.toNat % 0x20000) → t.vram = s.vram) ∧
      (¬ vramHole s.mode (a.toNat % 0x20000) →
        ∀ j, t.vram.read8 j =
          if j / 2 = vramAt (a.toNat % 0x20000) / 2 then h.extractLsb' (8 * (j % 2)) 8 else s.vram.read8 j)) ∧
    (∀ w, ∃ t, exec (.write32Vram a w) s = .next t ∧ s.CaughtUp t ∧ t.pram = s.pram ∧ t.oam = s.oam ∧
      (vramHole s.mode (a.toNat % 0x20000) → t.vram = s.vram) ∧
      (¬ vramHole s.mode (a.toNat % 0x20000) →
        ∀ j, t.vram.read8 j =
          if j / 4 = vramAt (a.toNat % 0x20000) / 4 then w.extractLsb' (8 * (j % 4)) 8 else s.vram.read8 j))

/-- R204, R206 to R210, R220: a halfword write, at either address of the halfword, of DISPCNT, DISPSTAT, VCOUNT, the background controls and the
unused offsets. The pipeline is caught up first, and nothing but the register changes. -/
def Obligations.WriteControlRegisters : Prop :=
  ∀ (s : State) (a : Word) (v : Half),
    (a.toNat / 2 = 0x04000000 / 2 →
      exec (.write16Mmio a v) s = .next { s.catchUp with regs := { s.regs with dispcnt := v &&& 0xFFF7#16 } }) ∧
    (a.toNat / 2 = 0x04000004 / 2 →
      exec (.write16Mmio a v) s = .next
        { s.catchUp with
          regs :=
            { s.regs with
              dispstat :=
                v.extractLsb' 8 8 ++ s.regs.dispstat.extractLsb' 6 2 ++ v.extractLsb' 3 3 ++
                  s.regs.dispstat.extractLsb' 0 3 } }) ∧
    ((a.toNat / 2 = 0x04000006 / 2 ∨ a.toNat / 2 = 0x04000002 / 2 ∨ a.toNat / 2 = 0x0400004E / 2 ∨
        a.toNat / 2 = 0x04000056 / 2) →
      exec (.write16Mmio a v) s = .next s.catchUp) ∧
    (a.toNat / 2 = 0x04000008 / 2 →
      exec (.write16Mmio a v) s = .next
        { s.catchUp with regs := { s.regs with bgcnt := { s.regs.bgcnt with bg0 := v &&& 0xDFFF#16 } } }) ∧
    (a.toNat / 2 = 0x0400000A / 2 →
      exec (.write16Mmio a v) s = .next
        { s.catchUp with regs := { s.regs with bgcnt := { s.regs.bgcnt with bg1 := v &&& 0xDFFF#16 } } }) ∧
    (a.toNat / 2 = 0x0400000C / 2 →
      exec (.write16Mmio a v) s = .next
        { s.catchUp with regs := { s.regs with bgcnt := { s.regs.bgcnt with bg2 := v } } }) ∧
    (a.toNat / 2 = 0x0400000E / 2 →
      exec (.write16Mmio a v) s = .next
        { s.catchUp with regs := { s.regs with bgcnt := { s.regs.bgcnt with bg3 := v } } })

/-- R204, R211, R212: a halfword write of a scroll offset or an affine coefficient. -/
def Obligations.WriteScrollAndMatrix : Prop :=
  (∀ (s : State) (a : Word) (v : Half) (i : Bg),
    (a.toNat / 2 = (0x04000010 + 4 * i.index) / 2 →
      exec (.write16Mmio a v) s = .next
        { s.catchUp with regs := { s.regs with hofs := s.regs.hofs.set i (v &&& 0x01FF#16) } }) ∧
    (a.toNat / 2 = (0x04000012 + 4 * i.index) / 2 →
      exec (.write16Mmio a v) s = .next
        { s.catchUp with regs := { s.regs with vofs := s.regs.vofs.set i (v &&& 0x01FF#16) } })) ∧
  (∀ (s : State) (a : Word) (v : Half) (k : Aff) (base : Nat),
    (k = .k2 ∧ base = 0x04000020 ∨ k = .k3 ∧ base = 0x04000030) →
    (a.toNat / 2 = base / 2 →
      exec (.write16Mmio a v) s = .next { s.catchUp with regs := { s.regs with pa := s.regs.pa.set k v } }) ∧
    (a.toNat / 2 = base / 2 + 1 →
      exec (.write16Mmio a v) s = .next { s.catchUp with regs := { s.regs with pb := s.regs.pb.set k v } }) ∧
    (a.toNat / 2 = base / 2 + 2 →
      exec (.write16Mmio a v) s = .next { s.catchUp with regs := { s.regs with pc := s.regs.pc.set k v } }) ∧
    (a.toNat / 2 = base / 2 + 3 →
      exec (.write16Mmio a v) s = .next { s.catchUp with regs := { s.regs with pd := s.regs.pd.set k v } }))

/-- R37, R213: a halfword write of a reference point replaces its half, keeps bits 27:0 of the whole sign-extended, and loads the internal reference
with the register's new value; the accumulators are the caught-up line's. Nothing else changes. -/
def Obligations.WriteReferencePoint : Prop :=
  ∀ (s : State) (a : Word) (v : Half) (k : Aff) (base : Nat),
    (k = .k2 ∧ base = 0x04000028 ∨ k = .k3 ∧ base = 0x04000038) →
    (∀ w : Word,
      (a.toNat / 2 = base / 2 ∧ w = (s.regs.refX.get k).extractLsb' 16 16 ++ v ∨
        a.toNat / 2 = base / 2 + 1 ∧ w = v ++ (s.regs.refX.get k).extractLsb' 0 16) →
      exec (.write16Mmio a v) s = .next
        { s.catchUp with
          regs := { s.regs with refX := s.regs.refX.set k ((w.extractLsb' 0 28).signExtend 32) }
          ppu := { s.ppu with ix := s.ppu.ix.set k ((w.extractLsb' 0 28).signExtend 32) } }) ∧
    (∀ w : Word,
      (a.toNat / 2 = base / 2 + 2 ∧ w = (s.regs.refY.get k).extractLsb' 16 16 ++ v ∨
        a.toNat / 2 = base / 2 + 3 ∧ w = v ++ (s.regs.refY.get k).extractLsb' 0 16) →
      exec (.write16Mmio a v) s = .next
        { s.catchUp with
          regs := { s.regs with refY := s.regs.refY.set k ((w.extractLsb' 0 28).signExtend 32) }
          ppu := { s.ppu with iy := s.ppu.iy.set k ((w.extractLsb' 0 28).signExtend 32) } })

/-- R214 to R219: a halfword write of the window rectangles and masks, MOSAIC and the blend registers. -/
def Obligations.WriteEffectRegisters : Prop :=
  ∀ (s : State) (a : Word) (v : Half),
    (a.toNat / 2 = 0x04000040 / 2 →
      exec (.write16Mmio a v) s = .next { s.catchUp with regs := { s.regs with win0h := v } }) ∧
    (a.toNat / 2 = 0x04000042 / 2 →
      exec (.write16Mmio a v) s = .next { s.catchUp with regs := { s.regs with win1h := v } }) ∧
    (a.toNat / 2 = 0x04000044 / 2 →
      exec (.write16Mmio a v) s = .next { s.catchUp with regs := { s.regs with win0v := v } }) ∧
    (a.toNat / 2 = 0x04000046 / 2 →
      exec (.write16Mmio a v) s = .next { s.catchUp with regs := { s.regs with win1v := v } }) ∧
    (a.toNat / 2 = 0x04000048 / 2 →
      exec (.write16Mmio a v) s = .next { s.catchUp with regs := { s.regs with winin := v &&& 0x3F3F#16 } }) ∧
    (a.toNat / 2 = 0x0400004A / 2 →
      exec (.write16Mmio a v) s = .next { s.catchUp with regs := { s.regs with winout := v &&& 0x3F3F#16 } }) ∧
    (a.toNat / 2 = 0x0400004C / 2 →
      exec (.write16Mmio a v) s = .next { s.catchUp with regs := { s.regs with mosaic := v } }) ∧
    (a.toNat / 2 = 0x04000050 / 2 →
      exec (.write16Mmio a v) s = .next { s.catchUp with regs := { s.regs with bldcnt := v &&& 0x3FFF#16 } }) ∧
    (a.toNat / 2 = 0x04000052 / 2 →
      exec (.write16Mmio a v) s = .next { s.catchUp with regs := { s.regs with bldalpha := v &&& 0x1F1F#16 } }) ∧
    (a.toNat / 2 = 0x04000054 / 2 →
      exec (.write16Mmio a v) s = .next { s.catchUp with regs := { s.regs with bldy := v &&& 0x001F#16 } })

/-- R202, R203, R204: a byte write of a register completes; it is the halfword write of the lane's byte merged with the other byte of the stored
halfword; and the two byte writes of a halfword, in either order, leave what one halfword write of the two bytes leaves, for every register. -/
def Obligations.RegisterByteWrites : Prop :=
  (∀ (s : State) (o : Nat) (a : Word) (b : Byte), o < 0x58 → a.toNat = 0x04000000 + o →
      exec (.write8Mmio a b) s =
        exec (.write16Mmio a
          (if o % 2 = 1 then b ++ (s.regs.s16 (o / 2 * 2)).extractLsb' 0 8
            else (s.regs.s16 (o / 2 * 2)).extractLsb' 8 8 ++ b)) s) ∧
  (∀ (s : State) (o : Nat) (a a' : Word) (lo hi : Byte),
      o % 2 = 0 → o < 0x58 → a.toNat = 0x04000000 + o → a'.toNat = 0x04000001 + o →
      ∃ t t' u, exec (.write8Mmio a lo) s = .next t ∧ exec (.write8Mmio a' hi) t = .next u ∧
        exec (.write8Mmio a' hi) s = .next t' ∧ exec (.write8Mmio a lo) t' = .next u ∧
        exec (.write16Mmio a (hi ++ lo)) s = .next u)

/-- R88, R89, R195, R198, R201, R205: in every space a 32-bit write, at any address of its word, is the 16-bit write of its low half at the aligned
address and then the 16-bit write of its high half two above, and it completes. -/
def Obligations.WordWriteIsTwoHalves : Prop :=
  ∀ (s : State) (a lo hi : Word) (w : Word), lo.toNat = a.toNat / 4 * 4 → hi.toNat = lo.toNat + 2 →
    (Space.mmio.holds a = true →
      ∃ t u, exec (.write16Mmio lo (w.extractLsb' 0 16)) s = .next t ∧
        exec (.write16Mmio hi (w.extractLsb' 16 16)) t = .next u ∧ exec (.write32Mmio a w) s = .next u) ∧
    (Space.pram.holds a = true →
      ∃ t u, exec (.write16Pram lo (w.extractLsb' 0 16)) s = .next t ∧
        exec (.write16Pram hi (w.extractLsb' 16 16)) t = .next u ∧ exec (.write32Pram a w) s = .next u) ∧
    (Space.vram.holds a = true →
      ∃ t u, exec (.write16Vram lo (w.extractLsb' 0 16)) s = .next t ∧
        exec (.write16Vram hi (w.extractLsb' 16 16)) t = .next u ∧ exec (.write32Vram a w) s = .next u) ∧
    (Space.oam.holds a = true →
      ∃ t u, exec (.write16Oam lo (w.extractLsb' 0 16)) s = .next t ∧
        exec (.write16Oam hi (w.extractLsb' 16 16)) t = .next u ∧ exec (.write32Oam a w) s = .next u)

/-- R93: "Writes are idempotent": repeating any legal WRITE with the same operands at the same `now` leaves the same state. -/
def Obligations.WritesIdempotent : Prop :=
  ∀ (i : Instr) (s t : State), isWriteInstr i → i.wf = true → s.MemInv → exec i s = .next t → exec i t = .next t

/-! ### The pixel pipeline -/

/-- R260: CatchUp changes nothing while the pipeline is disengaged. Otherwise it produces, one after the other, exactly the pixels of the line from
`next_x` up to `min(H_VISIBLE, (now - ls) / CYCLES_PER_DOT)`, each pixel's colour being that of the state in which its turn comes, and changes nothing
but the line's own state and those entries of the framebuffer. -/
def Obligations.CatchUpProduces : Prop :=
  ∀ (s : State) (due : Nat),
    due = min s.params.hVisible ((s.sched.now.toNat - s.ppu.ls.toNat) / s.params.cyclesPerDot) →
    s.catchUp = { s with line := s.catchUp.line, fb := s.catchUp.fb } ∧
    ((s.params.vVisible ≤ s.ppu.vcount ∨ s.ppu.phase = .hblank) → s.catchUp = s) ∧
    (s.ppu.vcount < s.params.vVisible → s.ppu.phase = .draw →
      s.catchUp = s.producePixels (due - s.line.nextX) ∧
      s.catchUp.line.nextX = max s.line.nextX due ∧
      (∀ x, s.line.nextX ≤ x → x < due →
        s.catchUp.pixel x s.ppu.vcount = (s.producePixels (x - s.line.nextX)).pixelColour x s.ppu.vcount) ∧
      ∀ x y, x < s.params.hVisible → (y ≠ s.ppu.vcount ∨ x < s.line.nextX ∨ due ≤ x) →
        s.catchUp.pixel x y = s.pixel x y)

/-- R97, R261: a pixel of the current line whose production time is at or before a WRITE has, at every later time, the colour the catch-up before
the write gave it: the write does not affect it. -/
def Obligations.WritesMissProducedPixels : Prop :=
  ∀ (i : Instr) (s t : State) (later : Timestamp) (x : Nat), isWriteInstr i → i.wf = true → 0 < s.params.cyclesPerDot →
    s.ppu.vcount < s.params.vVisible → s.ppu.phase = .draw → x < s.params.hVisible →
    s.ppu.ls.toNat + s.params.cyclesPerDot * (x + 1) ≤ s.sched.now.toNat → exec i s = .next t →
    (t.atTime later).catchUp.pixel x s.ppu.vcount = s.catchUp.pixel x s.ppu.vcount

/-- R264: after `n` produced pixels each accumulator has gained `n` times its slope, 32-bit
wrapping, whatever the mode and whether or not the layer is enabled. -/
def Obligations.AccumulatorsStep : Prop :=
  ∀ (n : Nat) (s : State),
    (s.producePixels n).line.ax.k2 = s.line.ax.k2 + BitVec.ofNat 32 n * s.regs.pa.k2.signExtend 32 ∧
    (s.producePixels n).line.ax.k3 = s.line.ax.k3 + BitVec.ofNat 32 n * s.regs.pa.k3.signExtend 32 ∧
    (s.producePixels n).line.ay.k2 = s.line.ay.k2 + BitVec.ofNat 32 n * s.regs.pc.k2.signExtend 32 ∧
    (s.producePixels n).line.ay.k3 = s.line.ay.k3 + BitVec.ofNat 32 n * s.regs.pc.k3.signExtend 32

/-- R262, R309, R310, R311: producing pixel `next_x` of the current line puts its object and its two window tests into the line buffers and the four held
samples into the holds, and stores one colour in the framebuffer: white under forced blank, else the colour effect on the two front layers that the
window mask leaves of the four samples and the object, with palette entry 0 behind them. No other entry of the buffers or of the framebuffer changes. -/
def Obligations.PixelStored : Prop :=
  ∀ (s : State) (x y : Nat), x = s.line.nextX → x < s.params.hVisible → y = s.ppu.vcount →
    s.producePixel.line.nextX = x + 1 ∧
    (∀ j,
      Sparse.get ObjEntry.clear s.producePixel.line.objbuf j =
        (if j = x then (s.objPixel x y).1 else Sparse.get ObjEntry.clear s.line.objbuf j) ∧
      Sparse.get false s.producePixel.line.objwin j =
        (if j = x then (s.objPixel x y).2 else Sparse.get false s.line.objwin j) ∧
      Sparse.get false s.producePixel.line.win0 j =
        (if j = x then winInside (bit s.regs.dispcnt 13) s.regs.win0h s.regs.win0v x y
          else Sparse.get false s.line.win0 j) ∧
      Sparse.get false s.producePixel.line.win1 j =
        (if j = x then winInside (bit s.regs.dispcnt 14) s.regs.win1h s.regs.win1v x y
          else Sparse.get false s.line.win1 j)) ∧
    (∀ i, s.producePixel.line.hold.get i = (s.bgPixel i x y).2) ∧
    (bit s.regs.dispcnt 7 = true → s.producePixel.pixel x y = 0x7FFF#15) ∧
    (∀ (mask : BitVec 6) (samples : PerBg (Option Colour)),
      bit s.regs.dispcnt 7 = false → mask = windowMask s.regs s.producePixel.line x →
      (∀ i, samples.get i = (s.bgPixel i x y).1) →
      s.producePixel.pixel x y =
        s.regs.effect s.params (mask.getLsbD 5) (s.objPixel x y).1.semi
          (topTwo (byPriority (candidates s.regs mask samples (s.objPixel x y).1))
            ((s.pram.read16 0).extractLsb' 0 15))) ∧
    ∀ x' y', x' < s.params.hVisible → (x' ≠ x ∨ y' ≠ y) → s.producePixel.pixel x' y' = s.pixel x' y'

/-- R265, R266, R268, R283: a layer that the mode does not have, or that is not enabled, is transparent and keeps its held sample. Any other takes its
fresh sample (text, affine or bitmap by the mode): at every pixel without mosaic; with it at the first pixel of a block, which also refreshes the
held sample, and the pixels inside the block repeat that. -/
def Obligations.LayerVisibility : Prop :=
  ∀ (s : State) (i : Bg) (x y : Nat),
    ((6 ≤ s.mode ∨ 2 ≤ s.mode ∧ i.index ≤ 1 ∨ s.mode ≠ 0 ∧ s.mode ≠ 2 ∧ i = .bg3 ∨
        bit s.regs.dispcnt (8 + i.index) = false) →
      s.bgPixel i x y = (none, s.line.hold.get i)) ∧
    (∀ fresh : Option Colour,
      bit s.regs.dispcnt (8 + i.index) = true →
      ((s.mode = 0 ∨ s.mode = 1 ∧ i.index ≤ 1) ∧ fresh = s.textSample i x y ∨
        (s.mode = 1 ∨ s.mode = 2) ∧ i = .bg2 ∧ fresh = s.affineSample .k2 ∨
        s.mode = 2 ∧ i = .bg3 ∧ fresh = s.affineSample .k3 ∨
        3 ≤ s.mode ∧ s.mode ≤ 5 ∧ i = .bg2 ∧ fresh = s.bitmapSample) →
      (bit (s.regs.bgcnt.get i) 6 = false → s.bgPixel i x y = (fresh, s.line.hold.get i)) ∧
      (bit (s.regs.bgcnt.get i) 6 = true → x % (s.regs.mosaic.toNat % 16 + 1) = 0 → s.bgPixel i x y = (fresh, fresh)) ∧
      (bit (s.regs.bgcnt.get i) 6 = true → x % (s.regs.mosaic.toNat % 16 + 1) ≠ 0 →
        s.bgPixel i x y = (s.line.hold.get i, s.line.hold.get i)))

/-- R33, R123, R127, R128, R266, R267, R269: the sample of a text layer in numbers: the map entry of the scrolled position, its flips, the colour index of the 4-bit
or 8-bit tile, index 0 transparent, and a fetch at or beyond `BG_LIMIT` reading 0. With its mosaic bit set, the layer shows on every line of a block
what it shows on the block's first line; without it, the picture repeats every 512 pixels (every 256 where the layer is 256 wide or high). -/
def Obligations.TextLayers : Prop :=
  (∀ (s : State) (i : Bg) (x y c size px py m tx ty : Nat),
      c = (s.regs.bgcnt.get i).toNat → size = c / 0x4000 →
      px = (x + (s.regs.hofs.get i).toNat) % (if size = 1 ∨ size = 3 then 512 else 256) →
      py = ((if c / 64 % 2 = 1 then y - y % (s.regs.mosaic.toNat / 16 % 16 + 1) else y) + (s.regs.vofs.get i).toNat) %
        (if size = 2 ∨ size = 3 then 512 else 256) →
      m = s.bgHalfAt (c / 256 % 32 * 0x800 +
        (if size = 0 then 0 else if size = 1 then px / 256 else if size = 2 then py / 256 else px / 256 + 2 * (py / 256)) * 0x800 +
        py / 8 % 32 * 64 + px / 8 % 32 * 2) →
      tx = (if m / 1024 % 2 = 1 then 7 - px % 8 else px % 8) →
      ty = (if m / 2048 % 2 = 1 then 7 - py % 8 else py % 8) →
      (c / 128 % 2 = 1 →
        s.textSample i x y = s.bgEntry (s.bgByteAt (c / 4 % 4 * 0x4000 + m % 1024 * 64 + ty * 8 + tx)) 0) ∧
      (c / 128 % 2 = 0 → ∀ b, b = s.bgByteAt (c / 4 % 4 * 0x4000 + m % 1024 * 32 + ty * 4 + tx / 2) →
        s.textSample i x y = s.bgEntry (if tx % 2 = 1 then b / 16 else b % 16) (m / 4096))) ∧
  (∀ (s : State) (i : Bg) (x y y' : Nat), bit (s.regs.bgcnt.get i) 6 = true →
      y / (s.regs.mosaic.toNat / 16 % 16 + 1) = y' / (s.regs.mosaic.toNat / 16 % 16 + 1) →
      s.textSample i x y = s.textSample i x y') ∧
  (∀ (s : State) (i : Bg) (x y : Nat), bit (s.regs.bgcnt.get i) 6 = false →
      s.textSample i (x + 512) y = s.textSample i x y ∧ s.textSample i x (y + 512) = s.textSample i x y ∧
      ((s.regs.bgcnt.get i).toNat / 0x4000 = 0 ∨ (s.regs.bgcnt.get i).toNat / 0x4000 = 2 →
        s.textSample i (x + 256) y = s.textSample i x y) ∧
      ((s.regs.bgcnt.get i).toNat / 0x4000 ≤ 1 → s.textSample i x (y + 256) = s.textSample i x y))

/-- R34, R124, R128, R266, R270: the sample of an affine layer in numbers, at the texel of its accumulators: inside the layer, or anywhere with OVERFLOW_WRAP, the
map entry and the 8-bit tile give the colour, index 0 transparent and a fetch at or beyond `BG_LIMIT` reading 0. With OVERFLOW_WRAP set, the layer
samples alike at accumulators any number of layer sizes apart; with it clear, an accumulator whose texel lies outside the layer is transparent. The layer's
size is `128 << SCREEN_SIZE`. -/
def Obligations.AffineEdges : Prop :=
  ∀ (s t : State) (k : Aff) (size : Nat), size = 128 * 2 ^ ((s.regs.bgcnt.get k.bg).toNat / 0x4000) →
    (∀ c u v tile : Nat, c = (s.regs.bgcnt.get k.bg).toNat → u < size → v < size →
      (bit (s.regs.bgcnt.get k.bg) 13 = true ∧
          (s.line.ax.get k).toInt / 256 % size = u ∧ (s.line.ay.get k).toInt / 256 % size = v ∨
        bit (s.regs.bgcnt.get k.bg) 13 = false ∧
          (s.line.ax.get k).toInt / 256 = u ∧ (s.line.ay.get k).toInt / 256 = v) →
      tile = s.bgByteAt (c / 256 % 32 * 0x800 + v / 8 * (size / 8) + u / 8) →
      s.affineSample k = s.bgEntry (s.bgByteAt (c / 4 % 4 * 0x4000 + tile * 64 + v % 8 * 8 + u % 8)) 0) ∧
    (∀ m n : Int, bit (s.regs.bgcnt.get k.bg) 13 = true → t = { s with line := t.line } →
      (t.line.ax.get k).toInt = (s.line.ax.get k).toInt + 256 * size * m →
      (t.line.ay.get k).toInt = (s.line.ay.get k).toInt + 256 * size * n →
      t.affineSample k = s.affineSample k) ∧
    (bit (s.regs.bgcnt.get k.bg) 13 = false →
      ((s.line.ax.get k).toInt / 256 < 0 ∨ (size : Int) ≤ (s.line.ax.get k).toInt / 256 ∨
        (s.line.ay.get k).toInt / 256 < 0 ∨ (size : Int) ≤ (s.line.ay.get k).toInt / 256) →
      s.affineSample k = none)

/-- R271, R272, R273: the bitmap samples of modes 3, 4 and 5, at the integer part of the accumulators. -/
def Obligations.BitmapSamples : Prop :=
  ∀ (s : State) (u v : Nat) (x y : Int),
    s.line.ax.k2.toInt / 256 = x → s.line.ay.k2.toInt / 256 = y →
    (s.mode = 3 → x = u → y = v → u < 240 → v < 160 →
      s.bitmapSample = some ((s.vram.read16 (2 * (240 * v + u))).extractLsb' 0 15)) ∧
    (s.mode = 4 → x = u → y = v → u < 240 → v < 160 →
      s.bitmapSample =
        (let j := (s.vram.read8 ((if bit s.regs.dispcnt 4 then 0xA000 else 0) + 240 * v + u)).toNat
         if j = 0 then none else some ((s.pram.read16 (2 * j)).extractLsb' 0 15))) ∧
    (s.mode = 5 → x = u → y = v → u < 160 → v < 128 →
      s.bitmapSample =
        some ((s.vram.read16 ((if bit s.regs.dispcnt 4 then 0xA000 else 0) + 2 * (160 * v + u))).extractLsb' 0 15)) ∧
    ((x < 0 ∨ (if s.mode = 5 then 160 else 240) ≤ x ∨ y < 0 ∨ (if s.mode = 5 then 128 else 160) ≤ y) →
      s.bitmapSample = none)

/-! ### Objects -/

/-- R274, R280, R281: an object has a colour at a pixel when it is not disabled, not of the prohibited mode under `SKIP`, covers the pixel, has a texel there,
and that texel an opaque colour. With objects enabled, the object shown at a pixel is the one of least `(PRIO, OAM index)` among those that draw there;
with none the entry is clear; the object-window flag is set exactly when an object-window object has an opaque texel there. With objects disabled
both are clear. -/
def Obligations.ObjectWinner : Prop :=
  ∀ (s : State) (x y : Nat),
    (∀ (o : ObjAttr) (c : Colour),
      s.objAt o x y = some c ↔
        (o.affine = true ∨ o.bit9 = false) ∧ (o.mode = 3 → s.params.objMode3Policy = .normal) ∧
          ∃ lx ly tx ty, s.regs.footprint o x y = some (lx, ly) ∧ s.objTexel o lx ly = some (tx, ty) ∧
            s.objColor o tx ty = some c) ∧
    (bit s.regs.dispcnt 12 = false → s.objPixel x y = (⟨false, 0#15, 3#2, false⟩, false)) ∧
    (bit s.regs.dispcnt 12 = true →
      (∀ i c, s.objDraws x y i c →
        (∀ j d, s.objDraws x y j d →
          (s.objAttr i).prio.toNat < (s.objAttr j).prio.toNat ∨ (s.objAttr i).prio = (s.objAttr j).prio ∧ i ≤ j) →
        (s.objPixel x y).1 = ⟨true, c, (s.objAttr i).prio, decide ((s.objAttr i).mode = 1)⟩) ∧
      ((∀ i c, ¬ s.objDraws x y i c) → (s.objPixel x y).1 = ⟨false, 0#15, 3#2, false⟩) ∧
      ((s.objPixel x y).2 = true ↔
        ∃ i c, i < 128 ∧ s.objAt (s.objAttr i) x y = some c ∧ (s.objAttr i).mode = 2))

/-- R125, R126, R275, R282: the attributes of an object are the fields of its three halfwords, its size is the size table's, and its box is twice that for a
double-size affine object. It covers pixel `x` of line `y` at column `lx` and row `ly` of its box exactly when `x = X + lx` and the line is `ly` below its
top line, modulo 256; under mosaic the position shown is that of the block's start, clamped to the first column and row. -/
def Obligations.ObjectFootprint : Prop :=
  (∀ (s : State) (i a0 a1 a2 : Nat) (o : ObjAttr), o = s.objAttr i →
      a0 = (s.oam.read16 (8 * i)).toNat → a1 = (s.oam.read16 (8 * i + 2)).toNat → a2 = (s.oam.read16 (8 * i + 4)).toNat →
      o.y = a0 % 256 ∧ (o.affine = true ↔ a0 / 256 % 2 = 1) ∧ (o.bit9 = true ↔ a0 / 512 % 2 = 1) ∧
      o.mode = a0 / 1024 % 4 ∧ (o.mosaic = true ↔ a0 / 4096 % 2 = 1) ∧ (o.bpp8 = true ↔ a0 / 8192 % 2 = 1) ∧
      o.shape = a0 / 16384 ∧
      o.x = (if a1 % 512 < 256 then (a1 % 512 : Int) else (a1 % 512 : Int) - 512) ∧ o.group = a1 / 512 % 32 ∧
      (o.hflip = true ↔ a1 / 4096 % 2 = 1) ∧ (o.vflip = true ↔ a1 / 8192 % 2 = 1) ∧ o.size = a1 / 16384 ∧
      o.tile = a2 % 1024 ∧ o.prio.toNat = a2 / 1024 % 4 ∧ o.pal = a2 / 4096) ∧
  (∀ o : ObjAttr, o.shape < 4 → o.size < 4 →
      [[(8, 8), (16, 16), (32, 32), (64, 64)], [(16, 8), (32, 8), (32, 16), (64, 32)],
        [(8, 16), (8, 32), (16, 32), (32, 64)], [(8, 8), (8, 8), (8, 8), (8, 8)]][o.shape]?.bind (·[o.size]?) = some o.dims ∧
      o.box = (if o.affine = true ∧ o.bit9 = true then (2 * o.dims.1, 2 * o.dims.2) else o.dims)) ∧
  (∀ (r : Regs) (o : ObjAttr) (x y a b : Nat),
      r.footprint o x y = some (a, b) ↔
        ∃ lx ly : Nat, lx < o.box.1 ∧ ly < o.box.2 ∧ (x : Int) = o.x + lx ∧ ly < 256 ∧
          ((ly : Int) + o.y) % 256 = (y : Int) % 256 ∧
          (o.mosaic = false → a = lx ∧ b = ly) ∧
          (o.mosaic = true →
            (a : Int) = max 0 ((lx : Int) - (x % (r.mosaic.toNat / 256 % 16 + 1) : Nat)) ∧
            (b : Int) = max 0 ((ly : Int) - (y % (r.mosaic.toNat / 4096 + 1) : Nat))))

/-- R125, R126, R130, R276, R277, R282: the texel of a regular object is the position, mirrored by its flips, and for a position the object covers it is always inside the
object, with mosaic or without. The texel of an affine object, double size or not, is the floor of the matrix applied to the distance from the
centre of the box, from the centre of the object, and there is none outside the object; under the identity matrix and without double size it is the one
under the pixel. -/
def Obligations.ObjectTexels : Prop :=
  (∀ (s : State) (o : ObjAttr) (lx ly : Nat), o.affine = false → lx < o.dims.1 → ly < o.dims.2 →
      ∃ tx ty : Nat, s.objTexel o lx ly = some (tx, ty) ∧
        (if o.hflip = true then tx + lx + 1 = o.dims.1 else tx = lx) ∧
        (if o.vflip = true then ty + ly + 1 = o.dims.2 else ty = ly)) ∧
  (∀ (r : Regs) (s : State) (o : ObjAttr) (x y lx ly : Nat), o.affine = false → r.footprint o x y = some (lx, ly) →
      ∃ tx ty : Nat, s.objTexel o lx ly = some (tx, ty) ∧ tx < o.dims.1 ∧ ty < o.dims.2) ∧
  (∀ (s : State) (o : ObjAttr) (lx ly tx ty : Nat) (dx dy pa pb pc pd : Int), o.affine = true →
      dx = (lx : Int) - (o.box.1 / 2 : Nat) → dy = (ly : Int) - (o.box.2 / 2 : Nat) →
      pa = (s.oam.read16 (32 * o.group + 6)).toInt → pb = (s.oam.read16 (32 * o.group + 14)).toInt →
      pc = (s.oam.read16 (32 * o.group + 22)).toInt → pd = (s.oam.read16 (32 * o.group + 30)).toInt →
      (s.objTexel o lx ly = some (tx, ty) ↔
        tx < o.dims.1 ∧ ty < o.dims.2 ∧
          (tx : Int) = (pa * dx + pb * dy) / 256 + (o.dims.1 / 2 : Nat) ∧
          (ty : Int) = (pc * dx + pd * dy) / 256 + (o.dims.2 / 2 : Nat))) ∧
  (∀ (s : State) (o : ObjAttr) (lx ly : Nat), o.affine = true → o.bit9 = false →
      s.affineParam o.group 0 = 0x100 → s.affineParam o.group 1 = 0 →
      s.affineParam o.group 2 = 0 → s.affineParam o.group 3 = 0x100 →
      lx < o.box.1 → ly < o.box.2 → s.objTexel o lx ly = some (lx, ly))

/-- R122, R278, R279: the colour of an object's texel in numbers: the tile number under one- and two-dimensional mapping, the byte of its 4-bit or 8-bit tile, the object
palette, index 0 transparent. The tile data is always read inside the 32 KiB of object memory, and in the bitmap modes its lower half draws nothing. -/
def Obligations.ObjectTileRange : Prop :=
  ∀ (s : State) (o : ObjAttr) (tx ty : Nat),
    0x10000 ≤ s.regs.objTexelAddr o tx ty ∧ s.regs.objTexelAddr o tx ty < 0x18000 ∧
    ∀ step tn addr b : Nat,
      step = (if o.bpp8 = true then 2 else 1) →
      tn =
        (if bit s.regs.dispcnt 6 = true then o.tile + ty / 8 * (o.dims.1 / 8) * step + tx / 8 * step
          else o.tile - o.tile % step + ty / 8 * 32 + tx / 8 * step) →
      addr = 0x10000 + (tn * 32 + (ty % 8 * 8 + tx % 8) * step / 2) % 0x8000 →
      b = (s.vram.read8 addr).toNat →
      s.regs.objTexelAddr o tx ty = addr ∧
      (3 ≤ s.mode → addr < 0x14000 → s.objColor o tx ty = none) ∧
      ((s.mode ≤ 2 ∨ 0x14000 ≤ addr) →
        (o.bpp8 = true → s.objColor o tx ty = s.objEntry b 0) ∧
        (o.bpp8 = false → s.objColor o tx ty = s.objEntry (if tx % 2 = 1 then b / 16 else b % 16) o.pal))

/-! ### The compositor -/

/-- R300, R301: a pixel is inside an enabled window exactly when its column and its line are in the two spans, the start inclusive, the end exclusive,
each wrapping when the start is after the end; a window with a start equal to its end is empty. The mask in force is everything with no window
enabled, else window 0's, window 1's, the object window's, the outside's, in that order. -/
def Obligations.WindowRules : Prop :=
  (∀ (h v : Half) (x y : Nat),
      winInside false h v x y = false ∧
      (winInside true h v x y = true ↔
        (if h.toNat / 256 ≤ h.toNat % 256 then h.toNat / 256 ≤ x ∧ x < h.toNat % 256
          else h.toNat / 256 ≤ x ∨ x < h.toNat % 256) ∧
        (if v.toNat / 256 ≤ v.toNat % 256 then v.toNat / 256 ≤ y ∧ y < v.toNat % 256
          else v.toNat / 256 ≤ y ∨ y < v.toNat % 256)) ∧
      (h.toNat / 256 = h.toNat % 256 → winInside true h v x y = false)) ∧
  (∀ (r : Regs) (l : Line) (x : Nat),
      (r.dispcnt.toNat / 0x2000 = 0 → windowMask r l x = 0x3F#6) ∧
      (r.dispcnt.toNat / 0x2000 ≠ 0 →
        (Sparse.get false l.win0 x = true → (windowMask r l x).toNat = r.winin.toNat % 64) ∧
        (Sparse.get false l.win0 x = false → Sparse.get false l.win1 x = true →
          (windowMask r l x).toNat = r.winin.toNat / 256 % 64) ∧
        (Sparse.get false l.win0 x = false → Sparse.get false l.win1 x = false →
          (bit r.dispcnt 15 = true ∧ Sparse.get false l.objwin x = true →
            (windowMask r l x).toNat = r.winout.toNat / 256 % 64) ∧
          (bit r.dispcnt 15 = false ∨ Sparse.get false l.objwin x = false →
            (windowMask r l x).toNat = r.winout.toNat % 64))))

/-- R302, R303: the top layer is the candidate of least `(priority, rank)`, with its colour; the second is the least of the others, and the backdrop
when there is no other; with no candidate the backdrop is on top and there is no second layer. -/
def Obligations.TopTwoLayers : Prop :=
  ∀ (r : Regs) (mask : BitVec 6) (bg : PerBg (Option Colour)) (e : ObjEntry) (bd : Colour),
    (∀ c, c ∈ candidates r mask bg e ↔
      (e.opaque_ = true ∧ mask.getLsbD 4 = true ∧ c = ⟨.obj, e.prio, e.color⟩) ∨
      ∃ i col, bg.get i = some col ∧ mask.getLsbD i.index = true ∧
        c = ⟨.bg i, (r.bgcnt.get i).extractLsb' 0 2, col⟩) ∧
    (candidates r mask bg e = [] →
      topTwo (byPriority (candidates r mask bg e)) bd = ⟨.backdrop, bd, none⟩) ∧
    (∀ a ∈ candidates r mask bg e, (∀ c ∈ candidates r mask bg e, c ≠ a → a.key < c.key) →
      (topTwo (byPriority (candidates r mask bg e)) bd).top = a.layer ∧
      (topTwo (byPriority (candidates r mask bg e)) bd).colorA = a.color ∧
      ((∀ c ∈ candidates r mask bg e, c = a) →
        (topTwo (byPriority (candidates r mask bg e)) bd).second = some (.backdrop, bd)) ∧
      (∀ b ∈ candidates r mask bg e, b ≠ a →
        (∀ c ∈ candidates r mask bg e, c ≠ a → c ≠ b → b.key < c.key) →
        (topTwo (byPriority (candidates r mask bg e)) bd).second = some (b.layer, b.color)))

/-- R305, R306, R307: each channel of the alpha blend, of the fade to white and of the fade to black. -/
def Obligations.BlendChannels : Prop :=
  ∀ (r : Regs) (a b : Colour) (ch : Colour → Nat),
    (ch = (fun c => c.toNat % 32) ∨ ch = (fun c => c.toNat / 32 % 32) ∨ ch = (fun c => c.toNat / 1024)) →
    ch (r.alpha a b) =
      min 31 ((ch a * min 16 (r.bldalpha.toNat % 32) + ch b * min 16 (r.bldalpha.toNat / 256 % 32)) / 16) ∧
    ch (r.brighten a) = ch a + (31 - ch a) * min 16 (r.bldy.toNat % 32) / 16 ∧
    ch (r.darken a) = ch a - ch a * min 16 (r.bldy.toNat % 32) / 16

/-- R304, R308: which effect a pixel gets: the forced blend of a semi-transparent object, else none unless the window allows it and the top layer is a
first target, else the mode's. -/
def Obligations.EffectSelection : Prop :=
  ∀ (r : Regs) (p : Params) (eff semi : Bool) (t : Layer) (a : Colour) (u : Layer) (b : Colour),
    (t = .obj → semi = true → bit r.bldcnt (8 + u.index) = true → (eff = true ∨ p.semiObjWindowGated = false) →
      r.effect p eff semi ⟨t, a, some (u, b)⟩ = r.alpha a b) ∧
    ((t ≠ .obj ∨ semi = false ∨ bit r.bldcnt (8 + u.index) = false ∨ eff = false ∧ p.semiObjWindowGated = true) →
      ((eff = false ∨ bit r.bldcnt t.index = false) → r.effect p eff semi ⟨t, a, some (u, b)⟩ = a) ∧
      (eff = true → bit r.bldcnt t.index = true →
        (r.bldcnt.toNat / 64 % 4 = 0 → r.effect p eff semi ⟨t, a, some (u, b)⟩ = a) ∧
        (r.bldcnt.toNat / 64 % 4 = 1 →
          r.effect p eff semi ⟨t, a, some (u, b)⟩ =
            if bit r.bldcnt (8 + u.index) = true then r.alpha a b else a) ∧
        (r.bldcnt.toNat / 64 % 4 = 2 → r.effect p eff semi ⟨t, a, some (u, b)⟩ = r.brighten a) ∧
        (r.bldcnt.toNat / 64 % 4 = 3 → r.effect p eff semi ⟨t, a, some (u, b)⟩ = r.darken a))) ∧
    (r.effect p eff semi ⟨.backdrop, a, none⟩ =
      if eff = true ∧ bit r.bldcnt 5 = true then
        if r.bldcnt.toNat / 64 % 4 = 2 then r.brighten a
        else if r.bldcnt.toNat / 64 % 4 = 3 then r.darken a else a
      else a)

/-! ### The scanline callbacks -/

/-- R240, R264, R340, R343: DRAW_END with no response of the host (or no call of it): the rest of the line is produced, the references step by PB and PD on a visible line, the
blank begins, and its outputs follow; the next event is HBLANK_END, CYCLES_HBLANK later. Nothing else changes.
(No trace entry names the event itself: log entry 26. With a response: DmaResponseKeepsTiming.) -/
def Obligations.DrawEndEffect : Prop :=
  ∀ s : State, s.fatal = none → s.SchedInv → s.params.tsBits ≤ 64 → s.sched.n < s.params.schedCapacity →
    s.sched.now.toNat + s.params.cyclesHBlank < 2 ^ s.params.tsBits - 1 →
    (s.host.responses = [] ∨ s.params.vVisible ≤ s.ppu.vcount ∧ bit s.regs.dispstat 4 = false) →
    ∃ c, s.sched.Pushed (s.sched.now + BitVec.ofNat 64 s.params.cyclesHBlank) .hblankEnd c ∧
      exec .drawEnd s = .next
        { s with
          sched := c
          line := s.catchUp.line
          fb := s.catchUp.fb
          regs := { s.regs with dispstat := s.regs.dispstat ||| 2#16 }
          ppu :=
            { s.ppu with
              phase := .hblank
              ppuEv := s.sched.nextHandle
              ix :=
                if s.ppu.vcount < s.params.vVisible then
                  ⟨s.ppu.ix.k2 + s.regs.pb.k2.signExtend 32, s.ppu.ix.k3 + s.regs.pb.k3.signExtend 32⟩
                else s.ppu.ix
              iy :=
                if s.ppu.vcount < s.params.vVisible then
                  ⟨s.ppu.iy.k2 + s.regs.pd.k2.signExtend 32, s.ppu.iy.k3 + s.regs.pd.k3.signExtend 32⟩
                else s.ppu.iy }
          trace := s.trace ++
            (if bit s.regs.dispstat 4 then [.irqRequest .hblank s.sched.now] else []) ++
            (if s.ppu.vcount < s.params.vVisible then [.dmaNotify .hblank s.sched.now] else []) }

/-- R241, R242, R243, R248, R263: HBLANK_END with no response of the host (or no call of it): the next line begins, with the vertical-blank flag, the reference reload, the
frame hand-off, the line compare and the line's starting state where the rules say, and its outputs in their order; the next event is DRAW_END,
CYCLES_DRAW later. Nothing else changes. (That line 0 is compared with LYC too, setting VCOUNT_MATCH and requesting the interrupt under LYC 0, is the
rules' word against vector E1's trace, log entry 15; that no trace entry names the event itself, log entry 26. With a response: DmaResponseKeepsTiming.) -/
def Obligations.HblankEndEffect : Prop :=
  ∀ (s : State) (y : Nat), s.fatal = none → s.SchedInv → s.params.tsBits ≤ 64 → s.sched.n < s.params.schedCapacity →
    s.sched.now.toNat + s.params.cyclesDraw < 2 ^ s.params.tsBits - 1 → y = (s.ppu.vcount + 1) % s.params.vTotal →
    (s.host.responses = [] ∨
      y ≠ s.params.vVisible ∧ y ≠ 0 ∧ ¬ (y = s.regs.dispstat.toNat / 256 ∧ bit s.regs.dispstat 5 = true)) →
    ∃ c, s.sched.Pushed (s.sched.now + BitVec.ofNat 64 s.params.cyclesDraw) .drawEnd c ∧
      exec .hblankEnd s = .next
        { s with
          sched := c
          regs :=
            { s.regs with
              dispstat :=
                (s.regs.dispstat &&& 0xFFF8#16) |||
                  (if y + 1 = s.params.vTotal then 0#16
                    else if y = s.params.vVisible then 1#16 else s.regs.dispstat &&& 1#16) |||
                  (if y = s.regs.dispstat.toNat / 256 then 4#16 else 0#16) }
          ppu :=
            { vcount := y
              phase := .draw
              ls := s.sched.now
              ppuEv := s.sched.nextHandle
              ix := if y = s.params.vVisible then s.regs.refX else s.ppu.ix
              iy := if y = s.params.vVisible then s.regs.refY else s.ppu.iy
              mx := if y < s.params.vVisible ∧ y % (s.regs.mosaic.toNat / 16 % 16 + 1) = 0 then s.ppu.ix else s.ppu.mx
              my := if y < s.params.vVisible ∧ y % (s.regs.mosaic.toNat / 16 % 16 + 1) = 0 then s.ppu.iy else s.ppu.my }
          line :=
            if y < s.params.vVisible then
              let latch := y % (s.regs.mosaic.toNat / 16 % 16 + 1) = 0
              { nextX := 0
                hold := ⟨none, none, none, none⟩
                ax :=
                  ⟨if bit s.regs.bgcnt.bg2 6 = true ∧ ¬ latch then s.ppu.mx.k2 else s.ppu.ix.k2,
                    if bit s.regs.bgcnt.bg3 6 = true ∧ ¬ latch then s.ppu.mx.k3 else s.ppu.ix.k3⟩
                ay :=
                  ⟨if bit s.regs.bgcnt.bg2 6 = true ∧ ¬ latch then s.ppu.my.k2 else s.ppu.iy.k2,
                    if bit s.regs.bgcnt.bg3 6 = true ∧ ¬ latch then s.ppu.my.k3 else s.ppu.iy.k3⟩
                objbuf := []
                objwin := []
                win0 := []
                win1 := [] }
            else { s.line with nextX := 0 }
          trace := s.trace ++
            (if y = s.params.vVisible then
              (if bit s.regs.dispstat 3 then [.irqRequest .vblank s.sched.now] else []) ++
                [.dmaNotify .vblank s.sched.now]
              else []) ++
            (if y = 0 then [.present s.fb s.sched.now] else []) ++
            (if y = s.regs.dispstat.toNat / 256 ∧ bit s.regs.dispstat 5 = true then
              [.irqRequest .vcount s.sched.now] else []) }

/-- R6, R247, R336, R373: whatever READs, WRITEs and time queries the host answers the handlers' calls with (interrupt requests, DMA notifications, the frame
hand-off), DRAW_END and HBLANK_END complete with room in the heap: `now` is unchanged, the handler's event is inserted, the status bits and the position
are the handler's own, and the responses produce no pixel. An ADVANCE in the response to a handler's first call is issued inside a callback: it is
`NestedAdvance`, and the callback ends there. (A command of any other kind in a response is refused, log entries 10 and 19. That interrupt requests and
hand-offs are answered as DMA notifications are: log entry 25.) And in every case the handler's outcome is the sequence of its assignments, of its calls, each
using up the next response, whose commands run in order with the meaning they have outside a callback, and of its Insert; each part works on the state the
one before leaves, and a fatal error ends the sequence. -/
def Obligations.DmaResponseKeepsTiming : Prop :=
  ∀ (s : State) (y : Nat), s.fatal = none → s.SchedInv → s.params.tsBits ≤ 64 → s.sched.n < s.params.schedCapacity →
    s.sched.now.toNat + s.params.cyclesHBlank < 2 ^ s.params.tsBits - 1 →
    s.sched.now.toNat + s.params.cyclesDraw < 2 ^ s.params.tsBits - 1 →
    y = (s.ppu.vcount + 1) % s.params.vTotal →
    (s.host.held →
      (∃ t, exec .drawEnd s = .next t ∧ t.fatal = none ∧
        s.sched.Pushed (s.sched.now + BitVec.ofNat 64 s.params.cyclesHBlank) .hblankEnd t.sched ∧
        t.ppu.phase = .hblank ∧ t.ppu.ppuEv = s.sched.nextHandle ∧ t.ppu.vcount = s.ppu.vcount ∧ t.ppu.ls = s.ppu.ls ∧
        t.line = s.catchUp.line ∧ t.fb = s.catchUp.fb ∧
        t.regs.dispstat.extractLsb' 0 3 = s.regs.dispstat.extractLsb' 0 3 ||| 2#3) ∧
      (∃ t, exec .hblankEnd s = .next t ∧ t.fatal = none ∧
        s.sched.Pushed (s.sched.now + BitVec.ofNat 64 s.params.cyclesDraw) .drawEnd t.sched ∧
        t.ppu.phase = .draw ∧ t.ppu.ppuEv = s.sched.nextHandle ∧ t.ppu.vcount = y ∧ t.ppu.ls = s.sched.now ∧
        t.line.nextX = 0 ∧ t.fb = s.fb ∧ bit t.regs.dispstat 1 = false)) ∧
    ((∃ r, s.host.responses.head? = some r ∧ ¬ noAdvance r) →
      ((bit s.regs.dispstat 4 = true ∨ s.ppu.vcount < s.params.vVisible) →
        ∃ t, exec .drawEnd s = .next t ∧ t.fatal = some .nestedAdvance ∧ t.sched = s.sched ∧
          t.ppu.phase = .hblank ∧ t.ppu.ppuEv = s.ppu.ppuEv ∧
          t.trace.getLast? = some (.fatal .nestedAdvance s.sched.now)) ∧
      ((y = s.params.vVisible ∨ y = 0 ∨ y = s.regs.dispstat.toNat / 256 ∧ bit s.regs.dispstat 5 = true) →
        ∃ t, exec .hblankEnd s = .next t ∧ t.fatal = some .nestedAdvance ∧ t.sched = s.sched ∧
          t.ppu.vcount = y ∧ t.ppu.ppuEv = s.ppu.ppuEv ∧
          t.trace.getLast? = some (.fatal .nestedAdvance s.sched.now))) ∧
    (∃ c, s.sched.Pushed (s.sched.now + BitVec.ofNat 64 s.params.cyclesHBlank) .hblankEnd c ∧
      exec .drawEnd s =
        andThen
          (State.calls
            { s with
              line := s.catchUp.line
              fb := s.catchUp.fb
              regs := { s.regs with dispstat := s.regs.dispstat ||| 2#16 }
              ppu :=
                { s.ppu with
                  phase := .hblank
                  ix :=
                    if s.ppu.vcount < s.params.vVisible then
                      ⟨s.ppu.ix.k2 + s.regs.pb.k2.signExtend 32, s.ppu.ix.k3 + s.regs.pb.k3.signExtend 32⟩
                    else s.ppu.ix
                  iy :=
                    if s.ppu.vcount < s.params.vVisible then
                      ⟨s.ppu.iy.k2 + s.regs.pd.k2.signExtend 32, s.ppu.iy.k3 + s.regs.pd.k3.signExtend 32⟩
                    else s.ppu.iy } }
            (bit s.regs.dispstat 4) (.irqRequest .hblank s.sched.now)) fun t =>
          andThen (t.calls (decide (s.ppu.vcount < s.params.vVisible)) (.dmaNotify .hblank s.sched.now)) fun u =>
            .next { u with sched := c, ppu := { u.ppu with ppuEv := s.sched.nextHandle } }) ∧
    (∃ c, s.sched.Pushed (s.sched.now + BitVec.ofNat 64 s.params.cyclesDraw) .drawEnd c ∧
      exec .hblankEnd s =
        andThen
          (State.calls
            { s with
              line := { s.line with nextX := 0 }
              regs :=
                { s.regs with
                  dispstat := (s.regs.dispstat &&& 0xFFFD#16) ||| (if y = s.params.vVisible then 1#16 else 0#16) }
              ppu :=
                { s.ppu with
                  vcount := y
                  phase := .draw
                  ls := s.sched.now
                  ix := if y = s.params.vVisible then s.regs.refX else s.ppu.ix
                  iy := if y = s.params.vVisible then s.regs.refY else s.ppu.iy } }
            (decide (y = s.params.vVisible) && bit s.regs.dispstat 3) (.irqRequest .vblank s.sched.now)) fun t =>
          andThen (t.calls (decide (y = s.params.vVisible)) (.dmaNotify .vblank s.sched.now)) fun u =>
            andThen
              (State.calls
                { u with
                  regs :=
                    { u.regs with
                      dispstat := if y + 1 = s.params.vTotal then u.regs.dispstat &&& 0xFFFE#16 else u.regs.dispstat } }
                (decide (y = 0)) (.present s.fb s.sched.now)) fun v =>
              andThen
                (State.calls
                  { v with
                    regs :=
                      { v.regs with
                        dispstat := (v.regs.dispstat &&& 0xFFFB#16) ||| (if y = v.regs.dispstat.toNat / 256 then 4#16 else 0#16) } }
                  (decide (y = v.regs.dispstat.toNat / 256) && bit v.regs.dispstat 5) (.irqRequest .vcount s.sched.now)) fun w =>
                .next
                  { w with
                    sched := c
                    ppu :=
                      { w.ppu with
                        ppuEv := s.sched.nextHandle
                        mx := if y < s.params.vVisible ∧ y % (w.regs.mosaic.toNat / 16 % 16 + 1) = 0 then w.ppu.ix else w.ppu.mx
                        my := if y < s.params.vVisible ∧ y % (w.regs.mosaic.toNat / 16 % 16 + 1) = 0 then w.ppu.iy else w.ppu.my }
                    line :=
                      if y < s.params.vVisible then
                        let latch := y % (w.regs.mosaic.toNat / 16 % 16 + 1) = 0
                        { nextX := 0
                          hold := ⟨none, none, none, none⟩
                          ax :=
                            ⟨if bit w.regs.bgcnt.bg2 6 = true ∧ ¬ latch then w.ppu.mx.k2 else w.ppu.ix.k2,
                              if bit w.regs.bgcnt.bg3 6 = true ∧ ¬ latch then w.ppu.mx.k3 else w.ppu.ix.k3⟩
                          ay :=
                            ⟨if bit w.regs.bgcnt.bg2 6 = true ∧ ¬ latch then w.ppu.my.k2 else w.ppu.iy.k2,
                              if bit w.regs.bgcnt.bg3 6 = true ∧ ¬ latch then w.ppu.my.k3 else w.ppu.iy.k3⟩
                          objbuf := []
                          objwin := []
                          win0 := []
                          win1 := [] }
                      else w.line })

/-- R332: when the heap is full, the PPU's own Insert fails, whatever the host's responses hold that is no ADVANCE: the callback ends with `CapacityExceeded` and
the tag it could not insert as its last output, the scheduler as it was. (A SCHEDULE in a response is refused and inserts nothing, so it raises no
fatal error of its own, log entry 10.) -/
def Obligations.PpuInsertFatal : Prop :=
  ∀ s : State, s.fatal = none → s.SchedInv → s.sched.n = s.params.schedCapacity → s.host.held →
    (∃ t, exec .drawEnd s = .next t ∧ t.fatal = some (.capacityExceeded .hblankEnd) ∧ t.sched = s.sched ∧
      t.trace.getLast? = some (.fatal (.capacityExceeded .hblankEnd) s.sched.now)) ∧
    (∃ t, exec .hblankEnd s = .next t ∧ t.fatal = some (.capacityExceeded .drawEnd) ∧ t.sched = s.sched ∧
      t.trace.getLast? = some (.fatal (.capacityExceeded .drawEnd) s.sched.now))

/-- R330, R331: reaching the sentinel raises `EndOfTime` with `now`: the mark is set, the record appended, and nothing is rolled back or changed. -/
def Obligations.EndOfTimeFatal : Prop :=
  ∀ s : State, exec .endOfTime s = .next
    { s with
      fatal := some (.endOfTime s.sched.now)
      trace := s.trace ++ [.fatal (.endOfTime s.sched.now) s.sched.now] }

/-- R118, R163, R245, R334: EXTERNAL(k) runs the host's action for the tag, the empty one where it gives none (log entry 24): its commands in order, each with the
meaning it has outside a callback, until one raises a fatal error; an EVENT or a command that does not decode is refused as `BadCommand` there too (log
entry 19). With the scheduler's invariants it always completes. -/
def Obligations.ExternalRunsAction : Prop :=
  ∀ (s : State) (k : Word), s.fatal = none →
    exec (.external k) s = inOrder (s.host.actionOf k) s ∧
    (s.host.actionOf k = [] → exec (.external k) s = .next s) ∧
    (s.SchedInv → ∃ t, exec (.external k) s = .next t)

/-! ### The whole machine -/

/-- R9, R51 to R54: every step keeps the memories, the framebuffer and the line buffers in canonical form and within their sizes. -/
def Obligations.MemoryInvariant : Prop := ∀ s t : State, s.MemInv → step s = .next t → t.MemInv

/-- R29, R37: "A stored bit outside the stored mask is always 0", and reference points stay sign-extended 28-bit values: every step keeps both. -/
def Obligations.RegisterInvariant : Prop := ∀ s t : State, s.regs.Inv → step s = .next t → t.regs.Inv

/-- R23, R25, R26, R27, R164: every step keeps the scheduler's invariants: heap order, the heap and the events naming each other, the sentinel, no live
event in the past, every live handle issued, and the firing event live. -/
def Obligations.SchedulerInvariant : Prop := ∀ s t : State, s.SchedInv → step s = .next t → t.SchedInv

/-- R246, R372, with all of the above: every step keeps the whole invariant: one PPU event pending and due at its fixed time, the line start on the
frame's grid, and the blank flags those of the phase and the line. -/
def Obligations.TimelineInvariant : Prop := ∀ s t : State, s.Inv → step s = .next t → t.Inv

/-- R25, R156, R161: from every state that meets the scheduler's invariants the machine takes a step: no instruction, fired event or ADVANCE turn stops on a
fault or a refusal, since the heap is never empty and the event being fired is live. -/
def Obligations.EveryStepCompletes : Prop := ∀ s : State, s.SchedInv → ∃ t, step s = .next t

/-- R24, R164: `now` never decreases. -/
def Obligations.TimeNeverDecreases : Prop :=
  ∀ s t : State, s.SchedInv → step s = .next t → s.sched.now ≤ t.sched.now

/-- R7, R20, R28: a step only appends to the trace, never clears a fatal error and never changes the parameters. -/
def Obligations.TraceGrows : Prop :=
  ∀ s t : State, step s = .next t →
    (∃ os, t.trace = s.trace ++ os) ∧ (s.fatal ≠ none → t.fatal = s.fatal) ∧ t.params = s.params

/-- R360: the reset procedure, step by step, leaves the state after reset, for any legal parameters and any initial memories. (R50's "all entries `false`/0"
of the object buffer stands only until the procedure's LineStart(0), which leaves its `prio` 3 by R263, log entry 16.) Both give the model's own fields
`target` and `draws` 0 (log entry 21). -/
def Obligations.ResetProcedure : Prop :=
  ∀ (p : Params) (host : HostInput) (pram oam vram : Memory) (fb : Frame), p.Legal →
    resetProcedure p host pram oam vram fb = State.resetWith p host pram oam vram fb

/-- R56, R164, R246: the state after reset meets the whole invariant, for any legal parameters (log entry 8) and any initial memories that are in
canonical form and within their sizes. -/
def Obligations.ResetInvariant : Prop :=
  ∀ (p : Params) (host : HostInput) (pram oam vram : Memory) (fb : Frame), p.Legal →
    Sparse.bounded 0#8 0x400 pram → Sparse.bounded 0#8 0x400 oam → Sparse.bounded 0#8 0x18000 vram →
    Sparse.bounded 0#15 (p.hVisible * p.vVisible) fb → (State.resetWith p host pram oam vram fb).Inv

end
end

