-- ==== Sys2Proof/Laws/Sparse.lean ====
section
/-! SUPPORT. The laws of sparse data: a read after a write, and the canonical form. -/

namespace Sys2Proof.Machine

variable {α : Type} (d : α)

@[simp] theorem Sparse.get_nil (k : Nat) : Sparse.get d [] k = d := rfl

/-- An index below every listed one reads as the default. -/
theorem Sparse.get_of_lt_head (m : Sparse α) (k : Nat) (h : ∀ p ∈ m.head?, k < p.1) : Sparse.get d m k = d := by
  cases m with
  | nil => rfl
  | cons p m =>
    obtain ⟨k', v⟩ := p
    have : k < k' := h (k', v) (by simp)
    simp [Sparse.get, this]

/-- Dropping the entries at or below `j` does not change what is read above `j`. -/
theorem Sparse.get_dropWhile_gt (m : Sparse α) {j k : Nat} (h : j < k) :
    Sparse.get d (m.dropWhile (fun p => p.1 ≤ j)) k = Sparse.get d m k := by
  induction m with
  | nil => rfl
  | cons p m ih =>
    obtain ⟨k', v⟩ := p
    by_cases hk : k' ≤ j
    · have h1 : ¬ k < k' := by omega
      have h2 : k ≠ k' := by omega
      simp [hk, ih, Sparse.get, h1, h2]
    · simp [hk]

/-- After the entries at or below `j` are dropped, `j` and what is below it read as the default. -/
theorem Sparse.get_dropWhile_le (m : Sparse α) {j k : Nat} (h : k ≤ j) :
    Sparse.get d (m.dropWhile (fun p => p.1 ≤ j)) k = d := by
  induction m with
  | nil => rfl
  | cons p m ih =>
    obtain ⟨k', v⟩ := p
    by_cases hk : k' ≤ j
    · simp [hk, ih]
    · have : k < k' := by omega
      simp [hk, Sparse.get, this]

/-- An index at or above the bound reads as the default. -/
theorem Sparse.get_of_bounded {m : Sparse α} {size k : Nat} (hm : ∀ p ∈ m, p.1 < size) (hk : size ≤ k) :
    Sparse.get d m k = d := by
  induction m with
  | nil => rfl
  | cons p m ih =>
    obtain ⟨k', v⟩ := p
    have h1 : k' < size := hm (k', v) (List.mem_cons_self ..)
    have h2 : ¬ k < k' := by omega
    have h3 : k ≠ k' := by omega
    simp [Sparse.get, h2, h3, ih (fun p hp => hm p (List.mem_cons_of_mem _ hp))]

/-- Two canonical lists that read alike are equal: equal memories are equal data. -/
theorem Sparse.ext_of_wf {m m' : Sparse α} (hm : Sparse.wf d m) (hm' : Sparse.wf d m')
    (h : ∀ k, Sparse.get d m k = Sparse.get d m' k) : m = m' := by
  induction m generalizing m' with
  | nil =>
    cases m' with
    | nil => rfl
    | cons p m' =>
      obtain ⟨k, v⟩ := p
      have := h k
      simp only [Sparse.get, Nat.lt_irrefl, if_false, if_true] at this
      exact absurd this.symm (hm'.2 (k, v) (List.mem_cons_self ..))
  | cons p m ih =>
    obtain ⟨k, v⟩ := p
    cases m' with
    | nil =>
      have := h k
      simp only [Sparse.get, Nat.lt_irrefl, if_false, if_true] at this
      exact absurd this (hm.2 (k, v) (List.mem_cons_self ..))
    | cons p' m' =>
      obtain ⟨k', v'⟩ := p'
      have hv : v ≠ d := hm.2 (k, v) (List.mem_cons_self ..)
      have hv' : v' ≠ d := hm'.2 (k', v') (List.mem_cons_self ..)
      have hk : k = k' := by
        rcases Nat.lt_trichotomy k k' with hlt | heq | hgt
        · have := h k
          simp [Sparse.get, hlt] at this
          exact absurd this hv
        · exact heq
        · have := h k'
          simp [Sparse.get, hgt] at this
          exact absurd this.symm hv'
      subst hk
      have h1 := h k
      simp only [Sparse.get, Nat.lt_irrefl, if_false, if_true] at h1
      subst h1
      have hs := List.pairwise_cons.1 hm.1
      have hs' := List.pairwise_cons.1 hm'.1
      congr 1
      refine ih ⟨hs.2, fun p hp => hm.2 p (List.mem_cons_of_mem _ hp)⟩
        ⟨hs'.2, fun p hp => hm'.2 p (List.mem_cons_of_mem _ hp)⟩ fun j => ?_
      rcases Nat.lt_trichotomy j k with hj | rfl | hj
      · rw [Sparse.get_of_lt_head d m j, Sparse.get_of_lt_head d m' j]
        · intro p hp
          exact Nat.lt_trans hj (hs'.1 p (List.mem_of_mem_head? hp))
        · intro p hp
          exact Nat.lt_trans hj (hs.1 p (List.mem_of_mem_head? hp))
      · rw [Sparse.get_of_lt_head d m j, Sparse.get_of_lt_head d m' j]
        · intro p hp
          exact hs'.1 p (List.mem_of_mem_head? hp)
        · intro p hp
          exact hs.1 p (List.mem_of_mem_head? hp)
      · have h2 := h j
        have a : ¬ j < k := by omega
        have b : j ≠ k := by omega
        simpa [Sparse.get, a, b] using h2

variable [DecidableEq α]

/-- A read after a write to the same index gives the value written. -/
@[simp] theorem Sparse.get_set_same (m : Sparse α) (k : Nat) (v : α) : Sparse.get d (Sparse.set d m k v) k = v := by
  induction m with
  | nil => by_cases hv : v = d <;> simp [Sparse.set, Sparse.get, hv]
  | cons p m ih =>
    obtain ⟨k', v'⟩ := p
    unfold Sparse.set
    split_ifs with h1 h2 h3 h4
    · simp [Sparse.get, h1, h2]
    · simp [Sparse.get]
    · rw [Sparse.get_dropWhile_le d m (Nat.le_refl k), h4]
    · simp [Sparse.get]
    · simp [Sparse.get, h1, h3, ih]

/-- A write leaves every other index alone. -/
theorem Sparse.get_set_ne (m : Sparse α) {j k : Nat} (v : α) (h : k ≠ j) :
    Sparse.get d (Sparse.set d m j v) k = Sparse.get d m k := by
  induction m with
  | nil =>
    by_cases hv : v = d
    · simp [Sparse.set, hv]
    · simp [Sparse.set, Sparse.get, hv, h]
  | cons p m ih =>
    obtain ⟨k', v'⟩ := p
    unfold Sparse.set
    split_ifs with h1 h2 h3 h4
    · rfl
    · by_cases hk : k < j
      · have : k < k' := by omega
        simp [Sparse.get, hk, this]
      · simp [Sparse.get, hk, h]
    · subst h3
      rcases Nat.lt_or_gt_of_ne h with hk | hk
      · rw [Sparse.get_dropWhile_le d m (Nat.le_of_lt hk)]
        simp [Sparse.get, hk]
      · rw [Sparse.get_dropWhile_gt d m hk]
        have : ¬ k < j := by omega
        simp [Sparse.get, this, h]
    · subst h3
      simp [Sparse.get, h]
    · simp [Sparse.get, ih]

/-- Every index of a write's result is one of the data's, or the index written. -/
theorem Sparse.mem_set {m : Sparse α} {k : Nat} {v : α} {p : Nat × α} (hp : p ∈ Sparse.set d m k v) :
    p ∈ m ∨ (p = (k, v) ∧ v ≠ d) := by
  induction m with
  | nil =>
    unfold Sparse.set at hp
    split_ifs at hp with hv
    · simp at hp
    · exact .inr ⟨by simpa using hp, hv⟩
  | cons q m ih =>
    obtain ⟨k', v'⟩ := q
    unfold Sparse.set at hp
    split_ifs at hp with h1 h2 h3 h4
    · exact .inl hp
    · rcases List.mem_cons.1 hp with rfl | hp
      · exact .inr ⟨rfl, h2⟩
      · exact .inl hp
    · exact .inl (List.mem_cons_of_mem _ ((List.dropWhile_suffix _).subset hp))
    · rcases List.mem_cons.1 hp with rfl | hp
      · exact .inr ⟨rfl, h4⟩
      · exact .inl (List.mem_cons_of_mem _ hp)
    · rcases List.mem_cons.1 hp with rfl | hp
      · exact .inl (List.mem_cons_self ..)
      · exact (ih hp).imp_left (List.mem_cons_of_mem _)

/-- A write keeps the canonical form. -/
theorem Sparse.wf_set {m : Sparse α} (hm : Sparse.wf d m) (k : Nat) (v : α) : Sparse.wf d (Sparse.set d m k v) := by
  refine ⟨?_, fun p hp => ?_⟩
  · obtain ⟨hs, -⟩ := hm
    induction m with
    | nil => unfold Sparse.set; split_ifs <;> simp
    | cons q m ih =>
      obtain ⟨k', v'⟩ := q
      rw [List.pairwise_cons] at hs
      unfold Sparse.set
      split_ifs with h1 h2 h3 h4
      · exact List.pairwise_cons.2 hs
      · refine List.pairwise_cons.2 ⟨fun p hp => ?_, List.pairwise_cons.2 hs⟩
        rcases List.mem_cons.1 hp with rfl | hp
        · exact h1
        · exact Nat.lt_trans h1 (hs.1 p hp)
      · exact hs.2.sublist (List.dropWhile_suffix _).sublist
      · exact List.pairwise_cons.2 ⟨fun p hp => h3 ▸ hs.1 p hp, hs.2⟩
      · refine List.pairwise_cons.2 ⟨fun p hp => ?_, ih hs.2⟩
        rcases Sparse.mem_set d hp with hp | ⟨rfl, -⟩
        · exact hs.1 p hp
        · exact Nat.lt_of_le_of_ne (Nat.le_of_not_lt h1) (Ne.symm h3)
  · rcases Sparse.mem_set d hp with hp | ⟨rfl, h⟩
    · exact hm.2 p hp
    · exact h

/-- A write below the bound keeps the bound. -/
theorem Sparse.bounded_set {m : Sparse α} {size : Nat} (hm : Sparse.bounded d size m) {k : Nat} (hk : k < size)
    (v : α) : Sparse.bounded d size (Sparse.set d m k v) := by
  refine ⟨Sparse.wf_set d hm.1 k v, fun p hp => ?_⟩
  rcases Sparse.mem_set d hp with hp | ⟨rfl, -⟩
  · exact hm.2 p hp
  · exact hk

end Sys2Proof.Machine
end

