-- ==== Sys2Proof/Laws/Words.lean ====
section
/-! SUPPORT. Fields, lanes and addresses as arithmetic on numbers. -/

namespace Sys2Proof.Machine

/-- A field as division and remainder. -/
theorem field_eq {n : Nat} (v : BitVec n) (lo len : Nat) : field v lo len = v.toNat / 2 ^ lo % 2 ^ len := by
  simp [field, Nat.shiftRight_eq_div_pow]

theorem mmioOffset_eq (a : Word) : mmioOffset a = a.toNat % 0x1000000 := by
  simp [mmioOffset, field_eq]

theorem bankOffset_eq (a : Word) : bankOffset a = a.toNat % 0x400 := by
  simp [bankOffset, field_eq]

theorem vramWindow_eq (a : Word) : vramWindow a = a.toNat % 0x20000 := by
  simp [vramWindow, field_eq]

theorem bgMode_eq (r : Regs) : r.bgMode = r.dispcnt.toNat % 8 := by
  simp [Regs.bgMode, field_eq]

/-- An address in a space, by its top byte and the rest. -/
theorem Space.holds_iff (sp : Space) (a : Word) :
    sp.holds a = true ↔ a.toNat / 0x1000000 = sp.topByte.toNat ∧ a.toNat % 0x1000000 ≤ sp.lastOffset := by
  have h : a.toNat / 16777216 < 256 := by omega
  simp [Space.holds, BitVec.toNat_eq, Nat.shiftRight_eq_div_pow, Nat.mod_eq_of_lt h]

/-- Byte `b` of a halfword. -/
theorem extract_append_hi (b c : Byte) : (b ++ c).extractLsb' 8 8 = b := BitVec.extractLsb'_append_eq_left

theorem extract_append_lo (b c : Byte) : (b ++ c).extractLsb' 0 8 = c := BitVec.extractLsb'_append_eq_right

theorem byteLane_eq (h : Half) (o : Nat) : byteLane h o = h.extractLsb' (8 * (o % 2)) 8 := by
  unfold byteLane
  rcases Nat.mod_two_eq_zero_or_one o with h0 | h0 <;> simp [h0, loByte, hiByte]

theorem lane_replicate (b : Byte) (j : Nat) : (replicate b).extractLsb' (8 * (j % 2)) 8 = b := by
  rcases Nat.mod_two_eq_zero_or_one j with h0 | h0
  · rw [h0]
    exact extract_append_lo b b
  · rw [h0]
    exact extract_append_hi b b

end Sys2Proof.Machine
end

