-- ==== Sys2Proof/Laws/Memory.lean ====
section
/-! SUPPORT. The laws of the banks: a read after a write, the bytes a wider write stores, and the canonical form and bounds that every write keeps. -/

namespace Sys2Proof.Machine

@[simp] theorem Memory.read8_write8_same (m : Memory) (o : Nat) (b : Byte) : (m.write8 o b).read8 o = b :=
  Sparse.get_set_same _ _ _ _

theorem Memory.read8_write8_ne (m : Memory) {o j : Nat} (b : Byte) (h : j ≠ o) : (m.write8 o b).read8 j = m.read8 j :=
  Sparse.get_set_ne _ _ _ h

theorem Memory.read8_write8 (m : Memory) (o j : Nat) (b : Byte) :
    (m.write8 o b).read8 j = if j = o then b else m.read8 j := by
  split_ifs with h
  · subst h
    exact Memory.read8_write8_same m j b
  · exact Memory.read8_write8_ne m b h

/-- The bytes after a halfword is stored. -/
theorem Memory.read8_write16 (m : Memory) (o j : Nat) (h : Half) :
    (m.write16 o h).read8 j = if j = o then loByte h else if j = o + 1 then hiByte h else m.read8 j := by
  unfold Memory.write16
  rw [Memory.read8_write8, Memory.read8_write8]
  split_ifs <;> first | rfl | omega

/-- The bytes after a halfword is stored at an even offset. -/
theorem Memory.read8_write16_even (m : Memory) {o : Nat} (j : Nat) (h : Half) (ho : o % 2 = 0) :
    (m.write16 o h).read8 j = if j / 2 = o / 2 then h.extractLsb' (8 * (j % 2)) 8 else m.read8 j := by
  rw [Memory.read8_write16]
  by_cases h1 : j = o
  · subst h1
    simp [ho, loByte]
  · by_cases h2 : j = o + 1
    · subst h2
      have a : (o + 1) / 2 = o / 2 := by omega
      have b : (o + 1) % 2 = 1 := by omega
      simp [a, b, hiByte]
    · have : j / 2 ≠ o / 2 := by omega
      simp [h1, h2, this]

/-- The bytes after a word is stored at a multiple of 4. -/
theorem Memory.read8_write32 (m : Memory) {o : Nat} (j : Nat) (w : Word) (ho : o % 4 = 0) :
    (m.write32 o w).read8 j = if j / 4 = o / 4 then w.extractLsb' (8 * (j % 4)) 8 else m.read8 j := by
  have hl : ∀ (a b : Nat), b + 8 ≤ 16 → ((w.extractLsb' a 16).extractLsb' b 8) = w.extractLsb' (a + b) 8 := by
    intro a b hb
    ext i hi
    have : b + i < 16 := by omega
    simp [this, Nat.add_assoc]
  unfold Memory.write32
  rw [Memory.read8_write16, Memory.read8_write16]
  by_cases h0 : j / 4 = o / 4
  · rw [if_pos h0]
    have hj : j = o + j % 4 := by omega
    have : j % 4 < 4 := Nat.mod_lt _ (by omega)
    rcases (by omega : j % 4 = 0 ∨ j % 4 = 1 ∨ j % 4 = 2 ∨ j % 4 = 3) with h | h | h | h <;> rw [h] at hj ⊢
    · rw [if_neg (by omega), if_neg (by omega), if_pos (by omega)]
      exact hl 0 0 (by omega)
    · rw [if_neg (by omega), if_neg (by omega), if_neg (by omega), if_pos (by omega)]
      exact hl 0 8 (by omega)
    · rw [if_pos (by omega)]
      exact hl 16 0 (by omega)
    · rw [if_neg (by omega), if_pos (by omega)]
      exact hl 16 8 (by omega)
  · rw [if_neg h0, if_neg (by omega), if_neg (by omega), if_neg (by omega), if_neg (by omega)]

theorem Memory.wf_write8 {m : Memory} (hm : m.wf) (o : Nat) (b : Byte) : (m.write8 o b).wf := Sparse.wf_set _ hm _ _

theorem Memory.wf_write16 {m : Memory} (hm : m.wf) (o : Nat) (h : Half) : (m.write16 o h).wf :=
  Memory.wf_write8 (Memory.wf_write8 hm _ _) _ _

theorem Memory.wf_write32 {m : Memory} (hm : m.wf) (o : Nat) (w : Word) : (m.write32 o w).wf :=
  Memory.wf_write16 (Memory.wf_write16 hm _ _) _ _

theorem Memory.bounded_write16 {m : Memory} {size : Nat} (hm : Sparse.bounded 0#8 size m) {o : Nat} (ho : o + 1 < size)
    (h : Half) : Sparse.bounded 0#8 size (m.write16 o h) :=
  Sparse.bounded_set _ (Sparse.bounded_set _ hm (by omega) _) ho _

theorem Memory.bounded_write32 {m : Memory} {size : Nat} (hm : Sparse.bounded 0#8 size m) {o : Nat} (ho : o + 3 < size)
    (w : Word) : Sparse.bounded 0#8 size (m.write32 o w) :=
  Memory.bounded_write16 (Memory.bounded_write16 hm (by omega) _) (by omega) _

/-- Canonical banks that read alike are equal. -/
theorem Memory.ext_of_wf {m m' : Memory} (hm : m.wf) (hm' : m'.wf) (h : ∀ j, m.read8 j = m'.read8 j) : m = m' :=
  Sparse.ext_of_wf _ hm hm' h

/-- Storing a halfword again changes nothing. -/
theorem Memory.write16_again {m : Memory} (hm : m.wf) (o : Nat) (h : Half) : (m.write16 o h).write16 o h = m.write16 o h := by
  refine Memory.ext_of_wf (Memory.wf_write16 (Memory.wf_write16 hm _ _) _ _) (Memory.wf_write16 hm _ _) fun j => ?_
  rw [Memory.read8_write16, Memory.read8_write16]
  split_ifs <;> rfl

/-- Storing a word again changes nothing. -/
theorem Memory.write32_again {m : Memory} (hm : m.wf) {o : Nat} (w : Word) (ho : o % 4 = 0) :
    (m.write32 o w).write32 o w = m.write32 o w := by
  refine Memory.ext_of_wf (Memory.wf_write32 (Memory.wf_write32 hm _ _) _ _) (Memory.wf_write32 hm _ _) fun j => ?_
  rw [Memory.read8_write32 _ j w ho, Memory.read8_write32 _ j w ho]
  split_ifs <;> rfl

end Sys2Proof.Machine
end

