-- ==== Sys2Proof/Laws/State.lean ====
section
/-! SUPPORT. One lemma for each field of State under each update, so that no proof unfolds a record update. -/

namespace Sys2Proof.Machine

@[simp] theorem State.setSched_sched (s : State) (c : Sched) : (s.setSched c).sched = c := rfl
@[simp] theorem State.setSched_fatal (s : State) (c : Sched) : (s.setSched c).fatal = s.fatal := rfl
@[simp] theorem State.setSched_regs (s : State) (c : Sched) : (s.setSched c).regs = s.regs := rfl
@[simp] theorem State.setSched_ppu (s : State) (c : Sched) : (s.setSched c).ppu = s.ppu := rfl
@[simp] theorem State.setSched_line (s : State) (c : Sched) : (s.setSched c).line = s.line := rfl
@[simp] theorem State.setSched_pram (s : State) (c : Sched) : (s.setSched c).pram = s.pram := rfl
@[simp] theorem State.setSched_oam (s : State) (c : Sched) : (s.setSched c).oam = s.oam := rfl
@[simp] theorem State.setSched_vram (s : State) (c : Sched) : (s.setSched c).vram = s.vram := rfl
@[simp] theorem State.setSched_fb (s : State) (c : Sched) : (s.setSched c).fb = s.fb := rfl
@[simp] theorem State.setSched_trace (s : State) (c : Sched) : (s.setSched c).trace = s.trace := rfl
@[simp] theorem State.setSched_params (s : State) (c : Sched) : (s.setSched c).params = s.params := rfl
@[simp] theorem State.setSched_host (s : State) (c : Sched) : (s.setSched c).host = s.host := rfl
@[simp] theorem State.setSched_draws (s : State) (c : Sched) : (s.setSched c).draws = s.draws := rfl

@[simp] theorem State.setRegs_sched (s : State) (r : Regs) : (s.setRegs r).sched = s.sched := rfl
@[simp] theorem State.setRegs_fatal (s : State) (r : Regs) : (s.setRegs r).fatal = s.fatal := rfl
@[simp] theorem State.setRegs_regs (s : State) (r : Regs) : (s.setRegs r).regs = r := rfl
@[simp] theorem State.setRegs_ppu (s : State) (r : Regs) : (s.setRegs r).ppu = s.ppu := rfl
@[simp] theorem State.setRegs_line (s : State) (r : Regs) : (s.setRegs r).line = s.line := rfl
@[simp] theorem State.setRegs_pram (s : State) (r : Regs) : (s.setRegs r).pram = s.pram := rfl
@[simp] theorem State.setRegs_oam (s : State) (r : Regs) : (s.setRegs r).oam = s.oam := rfl
@[simp] theorem State.setRegs_vram (s : State) (r : Regs) : (s.setRegs r).vram = s.vram := rfl
@[simp] theorem State.setRegs_fb (s : State) (r : Regs) : (s.setRegs r).fb = s.fb := rfl
@[simp] theorem State.setRegs_trace (s : State) (r : Regs) : (s.setRegs r).trace = s.trace := rfl
@[simp] theorem State.setRegs_params (s : State) (r : Regs) : (s.setRegs r).params = s.params := rfl
@[simp] theorem State.setRegs_host (s : State) (r : Regs) : (s.setRegs r).host = s.host := rfl
@[simp] theorem State.setRegs_draws (s : State) (r : Regs) : (s.setRegs r).draws = s.draws := rfl

@[simp] theorem State.setPpu_sched (s : State) (p : Ppu) : (s.setPpu p).sched = s.sched := rfl
@[simp] theorem State.setPpu_fatal (s : State) (p : Ppu) : (s.setPpu p).fatal = s.fatal := rfl
@[simp] theorem State.setPpu_regs (s : State) (p : Ppu) : (s.setPpu p).regs = s.regs := rfl
@[simp] theorem State.setPpu_ppu (s : State) (p : Ppu) : (s.setPpu p).ppu = p := rfl
@[simp] theorem State.setPpu_line (s : State) (p : Ppu) : (s.setPpu p).line = s.line := rfl
@[simp] theorem State.setPpu_pram (s : State) (p : Ppu) : (s.setPpu p).pram = s.pram := rfl
@[simp] theorem State.setPpu_oam (s : State) (p : Ppu) : (s.setPpu p).oam = s.oam := rfl
@[simp] theorem State.setPpu_vram (s : State) (p : Ppu) : (s.setPpu p).vram = s.vram := rfl
@[simp] theorem State.setPpu_fb (s : State) (p : Ppu) : (s.setPpu p).fb = s.fb := rfl
@[simp] theorem State.setPpu_trace (s : State) (p : Ppu) : (s.setPpu p).trace = s.trace := rfl
@[simp] theorem State.setPpu_params (s : State) (p : Ppu) : (s.setPpu p).params = s.params := rfl
@[simp] theorem State.setPpu_host (s : State) (p : Ppu) : (s.setPpu p).host = s.host := rfl
@[simp] theorem State.setPpu_draws (s : State) (p : Ppu) : (s.setPpu p).draws = s.draws := rfl

@[simp] theorem State.setLine_sched (s : State) (l : Line) : (s.setLine l).sched = s.sched := rfl
@[simp] theorem State.setLine_fatal (s : State) (l : Line) : (s.setLine l).fatal = s.fatal := rfl
@[simp] theorem State.setLine_regs (s : State) (l : Line) : (s.setLine l).regs = s.regs := rfl
@[simp] theorem State.setLine_ppu (s : State) (l : Line) : (s.setLine l).ppu = s.ppu := rfl
@[simp] theorem State.setLine_line (s : State) (l : Line) : (s.setLine l).line = l := rfl
@[simp] theorem State.setLine_pram (s : State) (l : Line) : (s.setLine l).pram = s.pram := rfl
@[simp] theorem State.setLine_oam (s : State) (l : Line) : (s.setLine l).oam = s.oam := rfl
@[simp] theorem State.setLine_vram (s : State) (l : Line) : (s.setLine l).vram = s.vram := rfl
@[simp] theorem State.setLine_fb (s : State) (l : Line) : (s.setLine l).fb = s.fb := rfl
@[simp] theorem State.setLine_trace (s : State) (l : Line) : (s.setLine l).trace = s.trace := rfl
@[simp] theorem State.setLine_params (s : State) (l : Line) : (s.setLine l).params = s.params := rfl
@[simp] theorem State.setLine_host (s : State) (l : Line) : (s.setLine l).host = s.host := rfl
@[simp] theorem State.setLine_draws (s : State) (l : Line) : (s.setLine l).draws = s.draws := rfl

@[simp] theorem State.setPram_sched (s : State) (m : Memory) : (s.setPram m).sched = s.sched := rfl
@[simp] theorem State.setPram_fatal (s : State) (m : Memory) : (s.setPram m).fatal = s.fatal := rfl
@[simp] theorem State.setPram_regs (s : State) (m : Memory) : (s.setPram m).regs = s.regs := rfl
@[simp] theorem State.setPram_ppu (s : State) (m : Memory) : (s.setPram m).ppu = s.ppu := rfl
@[simp] theorem State.setPram_line (s : State) (m : Memory) : (s.setPram m).line = s.line := rfl
@[simp] theorem State.setPram_pram (s : State) (m : Memory) : (s.setPram m).pram = m := rfl
@[simp] theorem State.setPram_oam (s : State) (m : Memory) : (s.setPram m).oam = s.oam := rfl
@[simp] theorem State.setPram_vram (s : State) (m : Memory) : (s.setPram m).vram = s.vram := rfl
@[simp] theorem State.setPram_fb (s : State) (m : Memory) : (s.setPram m).fb = s.fb := rfl
@[simp] theorem State.setPram_trace (s : State) (m : Memory) : (s.setPram m).trace = s.trace := rfl
@[simp] theorem State.setPram_params (s : State) (m : Memory) : (s.setPram m).params = s.params := rfl
@[simp] theorem State.setPram_host (s : State) (m : Memory) : (s.setPram m).host = s.host := rfl
@[simp] theorem State.setPram_draws (s : State) (m : Memory) : (s.setPram m).draws = s.draws := rfl

@[simp] theorem State.setOam_sched (s : State) (m : Memory) : (s.setOam m).sched = s.sched := rfl
@[simp] theorem State.setOam_fatal (s : State) (m : Memory) : (s.setOam m).fatal = s.fatal := rfl
@[simp] theorem State.setOam_regs (s : State) (m : Memory) : (s.setOam m).regs = s.regs := rfl
@[simp] theorem State.setOam_ppu (s : State) (m : Memory) : (s.setOam m).ppu = s.ppu := rfl
@[simp] theorem State.setOam_line (s : State) (m : Memory) : (s.setOam m).line = s.line := rfl
@[simp] theorem State.setOam_pram (s : State) (m : Memory) : (s.setOam m).pram = s.pram := rfl
@[simp] theorem State.setOam_oam (s : State) (m : Memory) : (s.setOam m).oam = m := rfl
@[simp] theorem State.setOam_vram (s : State) (m : Memory) : (s.setOam m).vram = s.vram := rfl
@[simp] theorem State.setOam_fb (s : State) (m : Memory) : (s.setOam m).fb = s.fb := rfl
@[simp] theorem State.setOam_trace (s : State) (m : Memory) : (s.setOam m).trace = s.trace := rfl
@[simp] theorem State.setOam_params (s : State) (m : Memory) : (s.setOam m).params = s.params := rfl
@[simp] theorem State.setOam_host (s : State) (m : Memory) : (s.setOam m).host = s.host := rfl
@[simp] theorem State.setOam_draws (s : State) (m : Memory) : (s.setOam m).draws = s.draws := rfl

@[simp] theorem State.setVram_sched (s : State) (m : Memory) : (s.setVram m).sched = s.sched := rfl
@[simp] theorem State.setVram_fatal (s : State) (m : Memory) : (s.setVram m).fatal = s.fatal := rfl
@[simp] theorem State.setVram_regs (s : State) (m : Memory) : (s.setVram m).regs = s.regs := rfl
@[simp] theorem State.setVram_ppu (s : State) (m : Memory) : (s.setVram m).ppu = s.ppu := rfl
@[simp] theorem State.setVram_line (s : State) (m : Memory) : (s.setVram m).line = s.line := rfl
@[simp] theorem State.setVram_pram (s : State) (m : Memory) : (s.setVram m).pram = s.pram := rfl
@[simp] theorem State.setVram_oam (s : State) (m : Memory) : (s.setVram m).oam = s.oam := rfl
@[simp] theorem State.setVram_vram (s : State) (m : Memory) : (s.setVram m).vram = m := rfl
@[simp] theorem State.setVram_fb (s : State) (m : Memory) : (s.setVram m).fb = s.fb := rfl
@[simp] theorem State.setVram_trace (s : State) (m : Memory) : (s.setVram m).trace = s.trace := rfl
@[simp] theorem State.setVram_params (s : State) (m : Memory) : (s.setVram m).params = s.params := rfl
@[simp] theorem State.setVram_host (s : State) (m : Memory) : (s.setVram m).host = s.host := rfl
@[simp] theorem State.setVram_draws (s : State) (m : Memory) : (s.setVram m).draws = s.draws := rfl

@[simp] theorem State.setFb_sched (s : State) (f : Frame) : (s.setFb f).sched = s.sched := rfl
@[simp] theorem State.setFb_fatal (s : State) (f : Frame) : (s.setFb f).fatal = s.fatal := rfl
@[simp] theorem State.setFb_regs (s : State) (f : Frame) : (s.setFb f).regs = s.regs := rfl
@[simp] theorem State.setFb_ppu (s : State) (f : Frame) : (s.setFb f).ppu = s.ppu := rfl
@[simp] theorem State.setFb_line (s : State) (f : Frame) : (s.setFb f).line = s.line := rfl
@[simp] theorem State.setFb_pram (s : State) (f : Frame) : (s.setFb f).pram = s.pram := rfl
@[simp] theorem State.setFb_oam (s : State) (f : Frame) : (s.setFb f).oam = s.oam := rfl
@[simp] theorem State.setFb_vram (s : State) (f : Frame) : (s.setFb f).vram = s.vram := rfl
@[simp] theorem State.setFb_fb (s : State) (f : Frame) : (s.setFb f).fb = f := rfl
@[simp] theorem State.setFb_trace (s : State) (f : Frame) : (s.setFb f).trace = s.trace := rfl
@[simp] theorem State.setFb_params (s : State) (f : Frame) : (s.setFb f).params = s.params := rfl
@[simp] theorem State.setFb_host (s : State) (f : Frame) : (s.setFb f).host = s.host := rfl
@[simp] theorem State.setFb_draws (s : State) (f : Frame) : (s.setFb f).draws = s.draws := rfl

@[simp] theorem State.setHost_sched (s : State) (h : HostInput) : (s.setHost h).sched = s.sched := rfl
@[simp] theorem State.setHost_fatal (s : State) (h : HostInput) : (s.setHost h).fatal = s.fatal := rfl
@[simp] theorem State.setHost_regs (s : State) (h : HostInput) : (s.setHost h).regs = s.regs := rfl
@[simp] theorem State.setHost_ppu (s : State) (h : HostInput) : (s.setHost h).ppu = s.ppu := rfl
@[simp] theorem State.setHost_line (s : State) (h : HostInput) : (s.setHost h).line = s.line := rfl
@[simp] theorem State.setHost_pram (s : State) (h : HostInput) : (s.setHost h).pram = s.pram := rfl
@[simp] theorem State.setHost_oam (s : State) (h : HostInput) : (s.setHost h).oam = s.oam := rfl
@[simp] theorem State.setHost_vram (s : State) (h : HostInput) : (s.setHost h).vram = s.vram := rfl
@[simp] theorem State.setHost_fb (s : State) (h : HostInput) : (s.setHost h).fb = s.fb := rfl
@[simp] theorem State.setHost_trace (s : State) (h : HostInput) : (s.setHost h).trace = s.trace := rfl
@[simp] theorem State.setHost_params (s : State) (h : HostInput) : (s.setHost h).params = s.params := rfl
@[simp] theorem State.setHost_host (s : State) (h : HostInput) : (s.setHost h).host = h := rfl
@[simp] theorem State.setHost_draws (s : State) (h : HostInput) : (s.setHost h).draws = s.draws := rfl

@[simp] theorem State.drew_sched (s : State) (n : Nat) : (s.drew n).sched = s.sched := rfl
@[simp] theorem State.drew_fatal (s : State) (n : Nat) : (s.drew n).fatal = s.fatal := rfl
@[simp] theorem State.drew_regs (s : State) (n : Nat) : (s.drew n).regs = s.regs := rfl
@[simp] theorem State.drew_ppu (s : State) (n : Nat) : (s.drew n).ppu = s.ppu := rfl
@[simp] theorem State.drew_line (s : State) (n : Nat) : (s.drew n).line = s.line := rfl
@[simp] theorem State.drew_pram (s : State) (n : Nat) : (s.drew n).pram = s.pram := rfl
@[simp] theorem State.drew_oam (s : State) (n : Nat) : (s.drew n).oam = s.oam := rfl
@[simp] theorem State.drew_vram (s : State) (n : Nat) : (s.drew n).vram = s.vram := rfl
@[simp] theorem State.drew_fb (s : State) (n : Nat) : (s.drew n).fb = s.fb := rfl
@[simp] theorem State.drew_trace (s : State) (n : Nat) : (s.drew n).trace = s.trace := rfl
@[simp] theorem State.drew_params (s : State) (n : Nat) : (s.drew n).params = s.params := rfl
@[simp] theorem State.drew_host (s : State) (n : Nat) : (s.drew n).host = s.host := rfl
@[simp] theorem State.drew_draws (s : State) (n : Nat) : (s.drew n).draws = s.draws + n := rfl

@[simp] theorem State.emit_sched (s : State) (o : Output) : (s.emit o).sched = s.sched := rfl
@[simp] theorem State.emit_fatal (s : State) (o : Output) : (s.emit o).fatal = s.fatal := rfl
@[simp] theorem State.emit_regs (s : State) (o : Output) : (s.emit o).regs = s.regs := rfl
@[simp] theorem State.emit_ppu (s : State) (o : Output) : (s.emit o).ppu = s.ppu := rfl
@[simp] theorem State.emit_line (s : State) (o : Output) : (s.emit o).line = s.line := rfl
@[simp] theorem State.emit_pram (s : State) (o : Output) : (s.emit o).pram = s.pram := rfl
@[simp] theorem State.emit_oam (s : State) (o : Output) : (s.emit o).oam = s.oam := rfl
@[simp] theorem State.emit_vram (s : State) (o : Output) : (s.emit o).vram = s.vram := rfl
@[simp] theorem State.emit_fb (s : State) (o : Output) : (s.emit o).fb = s.fb := rfl
@[simp] theorem State.emit_trace (s : State) (o : Output) : (s.emit o).trace = s.trace ++ [o] := rfl
@[simp] theorem State.emit_params (s : State) (o : Output) : (s.emit o).params = s.params := rfl
@[simp] theorem State.emit_host (s : State) (o : Output) : (s.emit o).host = s.host := rfl
@[simp] theorem State.emit_draws (s : State) (o : Output) : (s.emit o).draws = s.draws := rfl

@[simp] theorem State.refuse_sched (s : State) (r : RefuseReason) : (s.refuse r).sched = s.sched := rfl
@[simp] theorem State.refuse_fatal (s : State) (r : RefuseReason) : (s.refuse r).fatal = s.fatal := rfl
@[simp] theorem State.refuse_regs (s : State) (r : RefuseReason) : (s.refuse r).regs = s.regs := rfl
@[simp] theorem State.refuse_ppu (s : State) (r : RefuseReason) : (s.refuse r).ppu = s.ppu := rfl
@[simp] theorem State.refuse_line (s : State) (r : RefuseReason) : (s.refuse r).line = s.line := rfl
@[simp] theorem State.refuse_pram (s : State) (r : RefuseReason) : (s.refuse r).pram = s.pram := rfl
@[simp] theorem State.refuse_oam (s : State) (r : RefuseReason) : (s.refuse r).oam = s.oam := rfl
@[simp] theorem State.refuse_vram (s : State) (r : RefuseReason) : (s.refuse r).vram = s.vram := rfl
@[simp] theorem State.refuse_fb (s : State) (r : RefuseReason) : (s.refuse r).fb = s.fb := rfl
@[simp] theorem State.refuse_trace (s : State) (r : RefuseReason) : (s.refuse r).trace = s.trace ++ [.refused r] := rfl
@[simp] theorem State.refuse_params (s : State) (r : RefuseReason) : (s.refuse r).params = s.params := rfl
@[simp] theorem State.refuse_host (s : State) (r : RefuseReason) : (s.refuse r).host = s.host := rfl
@[simp] theorem State.refuse_draws (s : State) (r : RefuseReason) : (s.refuse r).draws = s.draws := rfl

@[simp] theorem State.raise_sched (s : State) (r : FatalReason) : (s.raise r).sched = s.sched := rfl
@[simp] theorem State.raise_fatal (s : State) (r : FatalReason) : (s.raise r).fatal = some r := rfl
@[simp] theorem State.raise_regs (s : State) (r : FatalReason) : (s.raise r).regs = s.regs := rfl
@[simp] theorem State.raise_ppu (s : State) (r : FatalReason) : (s.raise r).ppu = s.ppu := rfl
@[simp] theorem State.raise_line (s : State) (r : FatalReason) : (s.raise r).line = s.line := rfl
@[simp] theorem State.raise_pram (s : State) (r : FatalReason) : (s.raise r).pram = s.pram := rfl
@[simp] theorem State.raise_oam (s : State) (r : FatalReason) : (s.raise r).oam = s.oam := rfl
@[simp] theorem State.raise_vram (s : State) (r : FatalReason) : (s.raise r).vram = s.vram := rfl
@[simp] theorem State.raise_fb (s : State) (r : FatalReason) : (s.raise r).fb = s.fb := rfl
@[simp] theorem State.raise_trace (s : State) (r : FatalReason) : (s.raise r).trace = s.trace ++ [.fatal r s.sched.now] := rfl
@[simp] theorem State.raise_params (s : State) (r : FatalReason) : (s.raise r).params = s.params := rfl
@[simp] theorem State.raise_host (s : State) (r : FatalReason) : (s.raise r).host = s.host := rfl
@[simp] theorem State.raise_draws (s : State) (r : FatalReason) : (s.raise r).draws = s.draws := rfl

end Sys2Proof.Machine
end

