-- ==== Sys2Proof/Laws/Renderer.lean ====
section
/-! SUPPORT. What producing pixels changes, said once: the line's own state and the framebuffer entries of the pixels produced (43_renderer.md R260). -/

namespace Sys2Proof.Machine

/-- All of the state that producing pixels leaves alone. -/
structure State.SameButLine (s t : State) : Prop where
  eq : t = { s with line := t.line, fb := t.fb }

theorem State.SameButLine.rfl' (s : State) : s.SameButLine s := ⟨rfl⟩

theorem State.SameButLine.trans {a b c : State} (h : a.SameButLine b) (k : b.SameButLine c) : a.SameButLine c := by
  obtain ⟨h⟩ := h
  obtain ⟨k⟩ := k
  refine ⟨?_⟩
  rw [k, h]

theorem State.sameButLine_producePixel (s : State) : s.SameButLine s.producePixel := ⟨rfl⟩

theorem State.sameButLine_producePixels (n : Nat) (s : State) : s.SameButLine (s.producePixels n) := by
  induction n generalizing s with
  | zero => exact .rfl' s
  | succ n ih => exact (State.sameButLine_producePixel s).trans (ih s.producePixel)

theorem State.sameButLine_catchUp (s : State) : s.SameButLine s.catchUp := by
  unfold State.catchUp
  split_ifs
  · exact .rfl' s
  · exact State.sameButLine_producePixels _ s

/-- CatchUp writes "only `next_x`, the line buffers, the accumulators, the holds and `fb`" (R260). -/
theorem State.catchUp_frame (s : State) : s.catchUp = { s with line := s.catchUp.line, fb := s.catchUp.fb } :=
  s.sameButLine_catchUp.eq

@[simp] theorem State.catchUp_sched (s : State) : s.catchUp.sched = s.sched := by rw [State.catchUp_frame]
@[simp] theorem State.catchUp_fatal (s : State) : s.catchUp.fatal = s.fatal := by rw [State.catchUp_frame]
@[simp] theorem State.catchUp_regs (s : State) : s.catchUp.regs = s.regs := by rw [State.catchUp_frame]
@[simp] theorem State.catchUp_ppu (s : State) : s.catchUp.ppu = s.ppu := by rw [State.catchUp_frame]
@[simp] theorem State.catchUp_pram (s : State) : s.catchUp.pram = s.pram := by rw [State.catchUp_frame]
@[simp] theorem State.catchUp_oam (s : State) : s.catchUp.oam = s.oam := by rw [State.catchUp_frame]
@[simp] theorem State.catchUp_vram (s : State) : s.catchUp.vram = s.vram := by rw [State.catchUp_frame]
@[simp] theorem State.catchUp_trace (s : State) : s.catchUp.trace = s.trace := by rw [State.catchUp_frame]
@[simp] theorem State.catchUp_params (s : State) : s.catchUp.params = s.params := by rw [State.catchUp_frame]
@[simp] theorem State.catchUp_host (s : State) : s.catchUp.host = s.host := by rw [State.catchUp_frame]
@[simp] theorem State.catchUp_draws (s : State) : s.catchUp.draws = s.draws := by rw [State.catchUp_frame]

/-- The pipeline is disengaged outside the draw phase of a visible line (R48, R260). -/
theorem State.catchUp_of_disengaged {s : State} (h : s.params.vVisible ≤ s.ppu.vcount ∨ s.ppu.phase ≠ .draw) : s.catchUp = s := by
  unfold State.catchUp
  rw [if_pos h]

theorem State.catchUp_of_engaged {s : State} (h : s.ppu.vcount < s.params.vVisible) (hp : s.ppu.phase = .draw) :
    s.catchUp = s.producePixels (s.pixelsDue - s.line.nextX) := by
  unfold State.catchUp
  rw [if_neg]
  rintro (h' | h')
  · exact absurd h (Nat.not_lt.2 h')
  · exact h' hp

@[simp] theorem State.producePixel_nextX (s : State) : s.producePixel.line.nextX = s.line.nextX + 1 := rfl

theorem State.producePixels_nextX (n : Nat) (s : State) : (s.producePixels n).line.nextX = s.line.nextX + n := by
  induction n generalizing s with
  | zero => rfl
  | succ n ih =>
    show (s.producePixel.producePixels n).line.nextX = _
    rw [ih, State.producePixel_nextX]
    omega

/-- How far a catch-up gets (R260). -/
theorem State.catchUp_nextX {s : State} (h : s.ppu.vcount < s.params.vVisible) (hp : s.ppu.phase = .draw) :
    s.catchUp.line.nextX = max s.line.nextX s.pixelsDue := by
  rw [State.catchUp_of_engaged h hp, State.producePixels_nextX]
  omega

/-- Once caught up, and with nothing of the time and the position changed, a further catch-up does nothing. -/
theorem State.catchUp_again {s t : State} (hpar : t.params = s.params) (hs : t.sched.now = s.sched.now) (hp : t.ppu.vcount = s.ppu.vcount)
    (hph : t.ppu.phase = s.ppu.phase) (hls : t.ppu.ls = s.ppu.ls) (hl : t.line = s.catchUp.line) : t.catchUp = t := by
  by_cases h : s.ppu.vcount < s.params.vVisible ∧ s.ppu.phase = .draw
  · have h1 := State.catchUp_nextX h.1 h.2
    have hd : t.pixelsDue = s.pixelsDue := by simp only [State.pixelsDue, hs, hls, hpar]
    rw [State.catchUp_of_engaged (by rw [hp, hpar]; exact h.1) (by rw [hph]; exact h.2), hd, hl, h1]
    rw [show s.pixelsDue - max s.line.nextX s.pixelsDue = 0 by omega]
    rfl
  · refine State.catchUp_of_disengaged ?_
    rw [hp, hph, hpar]
    by_cases h1 : s.ppu.vcount < s.params.vVisible
    · exact .inr fun h2 => h ⟨h1, h2⟩
    · exact .inl (Nat.not_lt.1 h1)

/-- A pixel's framebuffer index lies in the frame. -/
theorem fbIndex_lt {w h x y : Nat} (hx : x < w) (hy : y < h) : fbIndex w x y < w * h :=
  calc w * y + x < w * (y + 1) := by rw [Nat.mul_succ]; omega
    _ ≤ w * h := Nat.mul_le_mul_left _ hy

/-- A pixel's framebuffer index is its own. -/
theorem fbIndex_inj {w x x' y y' : Nat} (hx : x < w) (hx' : x' < w) : fbIndex w x y = fbIndex w x' y' ↔ x = x' ∧ y = y' := by
  refine ⟨fun h => ?_, fun h => by rw [h.1, h.2]⟩
  have h1 : (w * y + x) / w = y := by rw [Nat.mul_add_div (by omega), Nat.div_eq_of_lt hx, Nat.add_zero]
  have h2 : (w * y' + x') / w = y' := by rw [Nat.mul_add_div (by omega), Nat.div_eq_of_lt hx', Nat.add_zero]
  have hy : y = y' := by rw [← h1, ← h2]; exact congrArg (· / w) h
  subst hy
  exact ⟨Nat.add_left_cancel h, rfl⟩

/-- Which framebuffer entries a run of pixels writes. -/
theorem State.producePixels_fb (n : Nat) (s : State) {j : Nat}
    (hj : ∀ x, s.line.nextX ≤ x → x < s.line.nextX + n → j ≠ fbIndex s.params.hVisible x s.ppu.vcount) :
    Sparse.get 0#15 (s.producePixels n).fb j = Sparse.get 0#15 s.fb j := by
  induction n generalizing s with
  | zero => rfl
  | succ n ih =>
    show Sparse.get 0#15 (s.producePixel.producePixels n).fb j = _
    rw [ih s.producePixel fun x h1 h2 => hj x (by simp at h1; omega) (by simp at h2; omega)]
    exact Sparse.get_set_ne 0#15 _ _ (hj _ (Nat.le_refl _) (by omega))

end Sys2Proof.Machine
end

