-- ==== Sys2Proof/Laws/Exec.lean ====
section
/-! SUPPORT. What the bus commands and time queries do, said once for all of them: they keep the scheduler, the position, the status bits and the
invariants of the memories and the registers; and the sequences of commands inside a callback follow. -/

namespace Sys2Proof.Machine

/-! ### Sequencing -/

theorem andThen_next (s : State) (f : State → Result) :
    andThen (.next s) f = if s.fatal.isSome then .next s else f s := rfl

theorem andThen_of_none {s : State} (h : s.fatal = none) (f : State → Result) : andThen (.next s) f = f s := by
  simp [andThen_next, h]

theorem andThen_of_some {s : State} (h : s.fatal ≠ none) (f : State → Result) : andThen (.next s) f = .next s := by
  rw [andThen_next, if_pos (Option.isSome_iff_ne_none.2 h)]

/-- A bus command either is refused or does its work. -/
theorem whenLegal_cases {P : Result → Prop} {legal : Bool} {s : State} {body : State → Result}
    (h1 : P (.next (s.refuse .badCommand))) (h2 : legal = true → P (body s)) : P (whenLegal legal s body) := by
  cases legal
  · exact h1
  · exact h2 rfl

/-! ### Registers -/

/-- A register write keeps the three status bits of DISPSTAT (R207). -/
theorem Regs.written_status (r : Regs) (h : RegHalf) (v : Half) :
    (r.written h v).dispstat.extractLsb' 0 3 = r.dispstat.extractLsb' 0 3 := by
  cases h with
  | dispstat =>
    ext i hi
    simp only [Regs.written, dispstatKept, dispstatWritable]
    interval_cases i <;> simp
  | bgcnt i => cases i <;> rfl
  | _ => rfl

theorem sextRef_sextRef (w : Word) : sextRef (sextRef w) = sextRef w := by
  ext i hi
  simp only [sextRef, BitVec.getElem_signExtend, BitVec.getElem_extractLsb', BitVec.getLsbD_extractLsb',
    BitVec.getLsbD_signExtend, BitVec.msb_eq_getLsbD_last]
  simp
  split_ifs with h <;> simp [hi, h]

theorem PerBg.get_set {α : Type} (p : PerBg α) (i j : Bg) (v : α) : (p.set i v).get j = if j = i then v else p.get j := by
  cases i <;> cases j <;> rfl

theorem PerAff.get_set {α : Type} (p : PerAff α) (i j : Aff) (v : α) : (p.set i v).get j = if j = i then v else p.get j := by
  cases i <;> cases j <;> rfl

/-- A mask applied twice. -/
theorem and_and_mask (v m : Half) : v &&& m &&& m = v &&& m := by
  rw [BitVec.and_assoc, BitVec.and_self]

/-- A register write keeps the invariant of the bank (R29, R206 to R220). -/
theorem Regs.inv_written {r : Regs} (hr : r.Inv) (h : RegHalf) (v : Half) : (r.written h v).Inv := by
  cases h with
  | dispcnt => exact { hr with dispcnt := and_and_mask v _ }
  | dispstat =>
    refine { hr with dispstat := ?_ }
    have h0 := hr.dispstat
    simp only [Regs.written, dispstatKept, dispstatWritable] at h0 ⊢
    ext i hi
    have h1 : (r.dispstat &&& 0xFF3F#16)[i] = r.dispstat[i] := by rw [h0]
    revert h1
    interval_cases i <;> simp
  | vcount => exact hr
  | bgcnt i =>
    cases i with
    | bg0 => exact { hr with bg0cnt := and_and_mask v _ }
    | bg1 => exact { hr with bg1cnt := and_and_mask v _ }
    | bg2 => exact { hr with }
    | bg3 => exact { hr with }
  | hofs i =>
    refine { hr with hofs := fun j => ?_ }
    simp only [Regs.written, PerBg.get_set]
    split_ifs
    · exact and_and_mask v _
    · exact hr.hofs j
  | vofs i =>
    refine { hr with vofs := fun j => ?_ }
    simp only [Regs.written, PerBg.get_set]
    split_ifs
    · exact and_and_mask v _
    · exact hr.vofs j
  | pa k => exact { hr with }
  | pb k => exact { hr with }
  | pc k => exact { hr with }
  | pd k => exact { hr with }
  | refXLo k | refXHi k =>
    refine { hr with refX := fun j => ?_ }
    simp only [Regs.written, PerAff.get_set]
    split_ifs
    · exact sextRef_sextRef _
    · exact hr.refX j
  | refYLo k | refYHi k =>
    refine { hr with refY := fun j => ?_ }
    simp only [Regs.written, PerAff.get_set]
    split_ifs
    · exact sextRef_sextRef _
    · exact hr.refY j
  | win0h => exact { hr with }
  | win1h => exact { hr with }
  | win0v => exact { hr with }
  | win1v => exact { hr with }
  | winin => exact { hr with winin := and_and_mask v _ }
  | winout => exact { hr with winout := and_and_mask v _ }
  | mosaic => exact { hr with }
  | bldcnt => exact { hr with bldcnt := and_and_mask v _ }
  | bldalpha => exact { hr with bldalpha := and_and_mask v _ }
  | bldy => exact { hr with bldy := and_and_mask v _ }
  | unused => exact hr

/-- A status bit set or cleared keeps the invariant of the bank. -/
theorem Regs.inv_setStatus {r : Regs} (hr : r.Inv) {i : Nat} (hi : i < 3) (b : Bool) :
    ({ r with dispstat := setBit r.dispstat i b } : Regs).Inv := by
  refine { hr with dispstat := ?_ }
  have h0 := hr.dispstat
  ext j hj
  have h1 : (r.dispstat &&& 0xFF3F#16)[j] = r.dispstat[j] := by rw [h0]
  revert h1
  interval_cases i <;> cases b <;> interval_cases j <;> simp [setBit]

/-- An internal reference load keeps the position. -/
theorem Ppu.refLoaded_position (p : Ppu) (r : Regs) (h : RegHalf) :
    (p.refLoaded r h).vcount = p.vcount ∧ (p.refLoaded r h).phase = p.phase ∧ (p.refLoaded r h).ls = p.ls ∧
      (p.refLoaded r h).ppuEv = p.ppuEv := by
  cases h <;> exact ⟨rfl, rfl, rfl, rfl⟩

/-! ### What a bus command keeps -/

/-- What every bus command, time query and call of the host keeps. -/
structure State.Called (s t : State) : Prop where
  sched : t.sched = s.sched
  fatal : t.fatal = s.fatal
  params : t.params = s.params
  held : s.host.held → t.host.held
  vcount : t.ppu.vcount = s.ppu.vcount
  phase : t.ppu.phase = s.ppu.phase
  ls : t.ppu.ls = s.ppu.ls
  ppuEv : t.ppu.ppuEv = s.ppu.ppuEv
  status : t.regs.dispstat.extractLsb' 0 3 = s.regs.dispstat.extractLsb' 0 3
  trace : ∃ os, t.trace = s.trace ++ os
  regs : s.regs.Inv → t.regs.Inv
  mem : s.MemInv → t.MemInv
  caught : s.catchUp = s → t.line = s.line ∧ t.fb = s.fb
  produced : s.params.cyclesPerDot * s.line.nextX ≤ s.sched.now.toNat - s.ppu.ls.toNat →
    s.params.cyclesPerDot * t.line.nextX ≤ s.sched.now.toNat - s.ppu.ls.toNat

/-- What every bus command and time query keeps. -/
structure State.Kept (s t : State) : Prop extends State.Called s t where
  host : t.host = s.host

theorem State.Kept.rfl' (s : State) : s.Kept s where
  held := id
  sched := rfl
  fatal := rfl
  params := rfl
  host := rfl
  vcount := rfl
  phase := rfl
  ls := rfl
  ppuEv := rfl
  status := rfl
  trace := ⟨[], by simp⟩
  regs := id
  mem := id
  caught := fun _ => ⟨rfl, rfl⟩
  produced := id

theorem State.Called.trans {a b c : State} (h : a.Called b) (k : b.Called c) : a.Called c where
  sched := k.sched.trans h.sched
  fatal := k.fatal.trans h.fatal
  params := k.params.trans h.params
  held := k.held ∘ h.held
  vcount := k.vcount.trans h.vcount
  phase := k.phase.trans h.phase
  ls := k.ls.trans h.ls
  ppuEv := k.ppuEv.trans h.ppuEv
  status := k.status.trans h.status
  trace := by
    obtain ⟨x, hx⟩ := h.trace
    obtain ⟨y, hy⟩ := k.trace
    exact ⟨x ++ y, by rw [hy, hx, List.append_assoc]⟩
  regs := k.regs ∘ h.regs
  mem := k.mem ∘ h.mem
  caught := fun ha => by
    obtain ⟨h1, h2⟩ := h.caught ha
    have hb : b.catchUp = b :=
      State.catchUp_again (s := a) h.params (by rw [h.sched]) h.vcount h.phase h.ls (by rw [h1, ha])
    obtain ⟨k1, k2⟩ := k.caught hb
    exact ⟨k1.trans h1, k2.trans h2⟩
  produced := fun ha => by
    have := k.produced (by rw [h.sched, h.ls, h.params]; exact h.produced ha)
    rwa [h.sched, h.ls, h.params] at this

theorem State.Kept.trans {a b c : State} (h : a.Kept b) (k : b.Kept c) : a.Kept c :=
  { h.toCalled.trans k.toCalled with host := k.host.trans h.host }

theorem State.kept_emit (s : State) (o : Output) : s.Kept (s.emit o) :=
  { State.Kept.rfl' s with
    trace := ⟨[o], rfl⟩
    mem := fun h => ⟨h.pram, h.oam, h.vram, h.fb, h.objbuf, h.objwin, h.win0, h.win1, h.nextX⟩ }

theorem State.kept_drew (s : State) (n : Nat) : s.Kept (s.drew n) :=
  { State.Kept.rfl' s with
    mem := fun h => ⟨h.pram, h.oam, h.vram, h.fb, h.objbuf, h.objwin, h.win0, h.win1, h.nextX⟩ }

theorem State.kept_refuse (s : State) (r : RefuseReason) : s.Kept (s.refuse r) := s.kept_emit _

/-- Producing a pixel of a visible line keeps the memories canonical and within their sizes. -/
theorem State.memInv_producePixel {s : State} (h : s.MemInv) (hx : s.line.nextX < s.params.hVisible)
    (hy : s.ppu.vcount < s.params.vVisible) :
    s.producePixel.MemInv where
  pram := h.pram
  oam := h.oam
  vram := h.vram
  fb := Sparse.bounded_set _ h.fb (fbIndex_lt hx hy) _
  objbuf := Sparse.bounded_set _ h.objbuf hx _
  objwin := Sparse.bounded_set _ h.objwin hx _
  win0 := Sparse.bounded_set _ h.win0 hx _
  win1 := Sparse.bounded_set _ h.win1 hx _
  nextX := hx

theorem State.memInv_producePixels (n : Nat) {s : State} (h : s.MemInv) (hx : s.line.nextX + n ≤ s.params.hVisible)
    (hy : s.ppu.vcount < s.params.vVisible) : (s.producePixels n).MemInv := by
  induction n generalizing s with
  | zero => exact h
  | succ n ih =>
    exact ih (State.memInv_producePixel h (by omega) hy)
      (by show s.line.nextX + 1 + n ≤ s.params.hVisible; omega) hy

theorem State.pixelsDue_le (s : State) : s.pixelsDue ≤ s.params.hVisible := Nat.min_le_left _ _

theorem State.pixelsDue_time (s : State) : s.params.cyclesPerDot * s.pixelsDue ≤ s.sched.now.toNat - s.ppu.ls.toNat := by
  have : s.pixelsDue ≤ (s.sched.now.toNat - s.ppu.ls.toNat) / s.params.cyclesPerDot := Nat.min_le_right _ _
  exact (Nat.mul_le_mul_left _ this).trans (Nat.mul_div_le _ _)

theorem State.kept_catchUp (s : State) : s.Kept s.catchUp := by
  have hf := s.catchUp_frame
  by_cases h : s.ppu.vcount < s.params.vVisible ∧ s.ppu.phase = .draw
  · refine
      { sched := by simp, fatal := by simp, params := by simp, held := by simp, host := by simp, vcount := by simp, phase := by simp, ls := by simp
        ppuEv := by simp, status := by simp, trace := ⟨[], by simp⟩, regs := by simp, mem := fun hm => ?_
        caught := fun hc => by rw [hc]; exact ⟨rfl, rfl⟩, produced := fun hp => ?_ }
    · rw [State.catchUp_of_engaged h.1 h.2]
      have := s.pixelsDue_le
      have := hm.nextX
      exact State.memInv_producePixels _ hm (by omega) h.1
    · rw [State.catchUp_nextX h.1 h.2]
      rcases Nat.le_total s.line.nextX s.pixelsDue with h | h
      · rw [Nat.max_eq_right h]
        exact s.pixelsDue_time
      · rw [Nat.max_eq_left h]
        exact hp
  · rw [State.catchUp_of_disengaged]
    · exact .rfl' s
    · by_cases h1 : s.ppu.vcount < s.params.vVisible
      · exact .inr fun h2 => h ⟨h1, h2⟩
      · exact .inl (Nat.not_lt.1 h1)

theorem State.kept_setPram {s : State} {m : Memory} (h : s.MemInv → Sparse.bounded 0#8 Config.pramBytes m) :
    s.Kept (s.setPram m) :=
  { State.Kept.rfl' s with
    mem := fun k => ⟨h k, k.oam, k.vram, k.fb, k.objbuf, k.objwin, k.win0, k.win1, k.nextX⟩
    caught := fun _ => ⟨rfl, rfl⟩ }

theorem State.kept_setOam {s : State} {m : Memory} (h : s.MemInv → Sparse.bounded 0#8 Config.oamBytes m) :
    s.Kept (s.setOam m) :=
  { State.Kept.rfl' s with
    mem := fun k => ⟨k.pram, h k, k.vram, k.fb, k.objbuf, k.objwin, k.win0, k.win1, k.nextX⟩
    caught := fun _ => ⟨rfl, rfl⟩ }

theorem State.kept_setVram {s : State} {m : Memory} (h : s.MemInv → Sparse.bounded 0#8 Config.vramBytes m) :
    s.Kept (s.setVram m) :=
  { State.Kept.rfl' s with
    mem := fun k => ⟨k.pram, k.oam, h k, k.fb, k.objbuf, k.objwin, k.win0, k.win1, k.nextX⟩
    caught := fun _ => ⟨rfl, rfl⟩ }

theorem State.kept_regWrite16 (s : State) (o : Nat) (v : Half) : s.Kept (s.regWrite16 o v) := by
  obtain ⟨h1, h2, h3, h4⟩ := Ppu.refLoaded_position s.ppu (s.regs.written (regAt o) v) (regAt o)
  exact
    { State.Kept.rfl' s with
      vcount := h1
      phase := h2
      ls := h3
      ppuEv := h4
      status := Regs.written_status _ _ _
      regs := fun hr => Regs.inv_written hr _ _
      mem := fun k => ⟨k.pram, k.oam, k.vram, k.fb, k.objbuf, k.objwin, k.win0, k.win1, k.nextX⟩
      caught := fun _ => ⟨rfl, rfl⟩ }

/-- A VRAM offset lies in the bank, and keeps its alignment (R85). -/
theorem vramOffset_lt {mode o v : Nat} (ho : o < 0x20000) (h : vramOffset mode o = some v) : v < 0x18000 := by
  unfold vramOffset at h
  split_ifs at h <;> simp only [Option.some.injEq] at h <;> omega

theorem vramOffset_mod4 {mode o v : Nat} (h : vramOffset mode o = some v) : v % 4 = o % 4 := by
  unfold vramOffset at h
  split_ifs at h <;> simp only [Option.some.injEq] at h <;> omega

theorem vramOffset_mod2 {mode o v : Nat} (h : vramOffset mode o = some v) : v % 2 = o % 2 := by
  have := vramOffset_mod4 h
  omega

/-- Every bus command answers a next state and keeps what `Kept` lists. -/
theorem exec_bus_kept {i : Instr} (hi : i.isBus = true) (s : State) : ∃ t, exec i s = .next t ∧ s.Kept t := by
  have hb : ∀ a : Word, bankOffset a < 0x400 := fun a => by rw [bankOffset_eq]; omega
  have hv : ∀ a : Word, vramWindow a < 0x20000 := fun a => by rw [vramWindow_eq]; omega
  have hw : ∀ (legal : Bool) (w : State → State), (∀ u, s.Kept u → u.Kept (w u)) →
      ∃ t, busWrite legal s w = .next t ∧ s.Kept t := by
    intro legal w h
    refine whenLegal_cases (P := fun r => ∃ t, r = .next t ∧ s.Kept t) ⟨_, rfl, s.kept_refuse _⟩ fun _ => ⟨_, rfl, ?_⟩
    exact s.kept_catchUp.trans (h _ s.kept_catchUp)
  have hr : ∀ (legal : Bool) (b : State → Result), (∃ t, b s = .next t ∧ s.Kept t) →
      ∃ t, whenLegal legal s b = .next t ∧ s.Kept t := by
    intro legal b h
    exact whenLegal_cases (P := fun r => ∃ t, r = .next t ∧ s.Kept t) ⟨_, rfl, s.kept_refuse _⟩ fun _ => h
  have ha2 : ∀ x, alignHalf x ≤ x ∧ alignHalf x % 2 = 0 := fun x => by unfold alignHalf; omega
  have ha4 : ∀ x, alignWord x ≤ x ∧ alignWord x % 4 = 0 := fun x => by unfold alignWord; omega
  cases i <;> simp only [Instr.isBus, Bool.false_eq_true] at hi <;> simp only [exec]
  case read8Mmio a =>
    exact hr _ _ ⟨_, rfl, (s.kept_drew _).trans (State.kept_emit _ _)⟩
  case read16Mmio a =>
    exact hr _ _ ⟨_, rfl, (s.kept_drew _).trans (State.kept_emit _ _)⟩
  case read32Mmio a =>
    exact hr _ _ ⟨_, rfl, (s.kept_drew _).trans (State.kept_emit _ _)⟩
  case read8Vram a =>
    refine hr _ _ ?_
    split <;> exact ⟨_, rfl, s.kept_emit _⟩
  case read16Vram a =>
    refine hr _ _ ?_
    split <;> exact ⟨_, rfl, s.kept_emit _⟩
  case read32Vram a =>
    refine hr _ _ ?_
    split <;> exact ⟨_, rfl, s.kept_emit _⟩
  case read8Pram a => exact hr _ _ ⟨_, rfl, s.kept_emit _⟩
  case read16Pram a => exact hr _ _ ⟨_, rfl, s.kept_emit _⟩
  case read32Pram a => exact hr _ _ ⟨_, rfl, s.kept_emit _⟩
  case read8Oam a => exact hr _ _ ⟨_, rfl, s.kept_emit _⟩
  case read16Oam a => exact hr _ _ ⟨_, rfl, s.kept_emit _⟩
  case read32Oam a => exact hr _ _ ⟨_, rfl, s.kept_emit _⟩
  case write8Mmio a d => exact hw _ _ fun u _ => u.kept_regWrite16 _ _
  case write16Mmio a d => exact hw _ _ fun u _ => u.kept_regWrite16 _ _
  case write32Mmio a d => exact hw _ _ fun u _ => (u.kept_regWrite16 _ _).trans (State.kept_regWrite16 _ _ _)
  case write8Pram a d =>
    have := hb a; have := ha2 (bankOffset a)
    exact hw _ _ fun u _ => State.kept_setPram fun h => Memory.bounded_write16 h.pram (by simp only [Config.pramBytes]; omega) _
  case write16Pram a d =>
    have := hb a; have := ha2 (bankOffset a)
    exact hw _ _ fun u _ => State.kept_setPram fun h => Memory.bounded_write16 h.pram (by simp only [Config.pramBytes]; omega) _
  case write32Pram a d =>
    have := hb a; have := ha4 (bankOffset a)
    exact hw _ _ fun u _ => State.kept_setPram fun h => Memory.bounded_write32 h.pram (by simp only [Config.pramBytes]; omega) _
  case write8Vram a d =>
    refine hw _ _ fun u _ => ?_
    split
    · exact .rfl' u
    · rename_i v hv'
      refine State.kept_setVram fun h => Memory.bounded_write16 h.vram ?_ _
      unfold State.vramByteTarget State.vo at hv'
      split at hv'
      · cases hv'
      · rename_i x hx
        split_ifs at hv'
        cases hv'
        have := vramOffset_lt (hv a) hx
        have := ha2 x
        simp only [Config.vramBytes]
        omega
  case write16Vram a d =>
    refine hw _ _ fun u _ => ?_
    split
    · exact .rfl' u
    · rename_i v hv'
      have h2 := ha2 (vramWindow a)
      have h1 := vramOffset_lt (by have := hv a; omega) hv'
      have h3 := vramOffset_mod2 hv'
      exact State.kept_setVram fun h => Memory.bounded_write16 h.vram (by simp only [Config.vramBytes]; omega) _
  case write32Vram a d =>
    refine hw _ _ fun u _ => ?_
    split
    · exact .rfl' u
    · rename_i v hv'
      have h2 := ha4 (vramWindow a)
      have h1 := vramOffset_lt (by have := hv a; omega) hv'
      have h3 := vramOffset_mod4 hv'
      exact State.kept_setVram fun h => Memory.bounded_write32 h.vram (by simp only [Config.vramBytes]; omega) _
  case write8Oam a d => exact hw _ _ fun u _ => .rfl' u
  case write16Oam a d =>
    have := hb a; have := ha2 (bankOffset a)
    exact hw _ _ fun u _ => State.kept_setOam fun h => Memory.bounded_write16 h.oam (by simp only [Config.oamBytes]; omega) _
  case write32Oam a d =>
    have := hb a; have := ha4 (bankOffset a)
    exact hw _ _ fun u _ => State.kept_setOam fun h => Memory.bounded_write32 h.oam (by simp only [Config.oamBytes]; omega) _

/-! ### The commands of a callback -/

/-- A command of a callback has the meaning `exec` gives it. -/
theorem runCommand_eq_exec {i : Instr} (hi : i.isEvent = false) (s : State) : runCommand i s = exec i s := by
  cases i <;> first | rfl | simp [Instr.isEvent] at hi

/-- An ADVANCE in a response is `NestedAdvance` (R336). -/
theorem runInResponse_advance (n : Timestamp) (s : State) : runInResponse (.advance n) s = .next (s.raise .nestedAdvance) := rfl

theorem runInResponse_eq {i : Instr} (hi : ∀ n, i ≠ .advance n) (s : State) :
    runInResponse i s = if inResponse i then runCommand i s else .next (s.refuse .badCommand) := by
  cases i <;> first | rfl | exact absurd rfl (hi _)

/-- Any other command of a response answers a next state and keeps what `Kept` lists (R247). -/
theorem runInResponse_kept {i : Instr} (hi : ∀ n, i ≠ .advance n) {s : State} (hh : s.sched.heap ≠ []) :
    ∃ t, runInResponse i s = .next t ∧ s.Kept t := by
  rw [runInResponse_eq hi]
  split_ifs with h
  · by_cases hb : i.isBus = true
    · have he : i.isEvent = false := by cases i <;> simp_all [Instr.isBus, Instr.isEvent]
      rw [runCommand_eq_exec he]
      exact exec_bus_kept hb s
    · have h3 : i = .now ∨ i = .next ∨ i = .remain := by simpa [inResponse, hb, or_assoc] using h
      obtain ⟨root, rest, hr⟩ : ∃ r l, s.sched.heap = r :: l := List.exists_cons_of_ne_nil hh
      rcases h3 with rfl | rfl | rfl
      · exact ⟨_, rfl, s.kept_emit _⟩
      · refine ⟨_, ?_, s.kept_emit (.timestamp (s.sched.ts root))⟩
        simp only [runCommand, execNext, hr]
      · refine ⟨_, ?_, s.kept_emit (.timestamp (s.sched.ts root - s.sched.now))⟩
        simp only [runCommand, execRemain, hr]
  · exact ⟨_, rfl, s.kept_refuse _⟩

/-- A command of a response as it is issued: it raises `NestedAdvance` when it is an ADVANCE, and else keeps what `Kept` lists. -/
theorem issueWith_response (c : Command) {s : State} (hh : s.sched.heap ≠ []) :
    ((∃ n, decode c = .ok (.advance n)) → issueWith runInResponse c s = .next (s.raise .nestedAdvance)) ∧
    ((∀ n, decode c ≠ .ok (.advance n)) → ∃ t, issueWith runInResponse c s = .next t ∧ s.Kept t) := by
  refine ⟨fun ⟨n, hn⟩ => ?_, fun hn => ?_⟩
  · unfold issueWith
    rw [hn]
    rfl
  · unfold issueWith
    split
    · exact ⟨_, rfl, s.kept_refuse _⟩
    · rename_i i hi
      split_ifs
      · exact ⟨_, rfl, s.kept_refuse _⟩
      · exact runInResponse_kept (fun n h => hn n (h ▸ hi)) hh

/-- A response runs to its end and keeps what `Kept` lists, or to its first ADVANCE, which raises `NestedAdvance` (R247, R336). -/
theorem runAll_response_kept (cs : List Command) {s : State} (hf : s.fatal = none) (hh : s.sched.heap ≠ []) :
    ∃ t, s.Kept t ∧ (noAdvance cs → runAll runInResponse cs s = .next t) ∧
      (¬ noAdvance cs → runAll runInResponse cs s = .next (t.raise .nestedAdvance)) := by
  induction cs generalizing s with
  | nil => exact ⟨s, .rfl' s, fun _ => rfl, fun h => absurd (by simp [noAdvance]) h⟩
  | cons c cs ih =>
    have hcons : runAll runInResponse (c :: cs) s = andThen (issueWith runInResponse c s) (runAll runInResponse cs) := rfl
    by_cases hc : ∃ n, decode c = .ok (.advance n)
    · refine ⟨s, .rfl' s, fun h => absurd hc ?_, fun _ => ?_⟩
      · rintro ⟨n, hn⟩
        exact h c (List.mem_cons_self ..) n hn
      · rw [hcons, (issueWith_response c hh).1 hc, andThen_of_some (by simp)]
    · have hc' : ∀ n, decode c ≠ .ok (.advance n) := fun n h => hc ⟨n, h⟩
      have hno : noAdvance (c :: cs) ↔ noAdvance cs := by simp [noAdvance, hc']
      obtain ⟨t, ht, hk⟩ := (issueWith_response c hh).2 hc'
      obtain ⟨u, hk', h1, h2⟩ := ih (s := t) (by rw [hk.fatal, hf]) (by rw [hk.sched]; exact hh)
      refine ⟨u, hk.trans hk', ?_⟩
      rw [hcons, ht, andThen_of_none (by rw [hk.fatal, hf]), hno]
      exact ⟨h1, h2⟩

/-- The meaning of a response as the statements read it (R247, R373): `runAll runInResponse`, while no fatal error stands. -/
theorem runAll_eq_answered (cs : List Command) {s : State} (hf : s.fatal = none) : runAll runInResponse cs s = answered cs s := by
  induction cs generalizing s with
  | nil => rfl
  | cons c cs ih =>
    have hs : andThen (.next (s.refuse .badCommand)) (runAll runInResponse cs) = answered cs (s.refuse .badCommand) :=
      (andThen_of_none (by simpa using hf) _).trans (ih (by simpa using hf))
    have hi : ∀ t, andThen (.next t) (runAll runInResponse cs) = andThen (.next t) (answered cs) := fun t => by
      simp only [andThen_next]
      split_ifs with h
      · rfl
      · exact ih (by simpa using h)
    have hx : ∀ r, andThen r (runAll runInResponse cs) = andThen r (answered cs) := by
      rintro (t | r | r)
      exacts [hi t, rfl, rfl]
    show andThen (issueWith runInResponse c s) (runAll runInResponse cs) = _
    unfold issueWith
    simp only [answered]
    cases decode c with
    | error e => exact hs
    | ok i => cases i <;> first | exact hx _ | exact hs

theorem State.called_setHost (s : State) {h : HostInput} (hh : s.host.held → h.held) : s.Called (s.setHost h) :=
  { State.Kept.rfl' s with
    held := hh
    mem := fun k => ⟨k.pram, k.oam, k.vram, k.fb, k.objbuf, k.objwin, k.win0, k.win1, k.nextX⟩ }

/-- A call of the host with its response: all of `Called`, unless an ADVANCE in the response is `NestedAdvance` (R6, R247, R336). -/
theorem callHost_called (o : Output) {s : State} (hf : s.fatal = none) (hh : s.sched.heap ≠ []) :
    ∃ t, s.Called t ∧ ((∀ r, s.host.responses.head? = some r → noAdvance r) → s.callHost o = .next t) ∧
      ((∃ r, s.host.responses.head? = some r ∧ ¬ noAdvance r) → s.callHost o = .next (t.raise .nestedAdvance)) := by
  unfold State.callHost
  cases hr : s.host.responses with
  | nil => exact ⟨_, (s.kept_emit o).toCalled, fun _ => rfl, fun ⟨r, h, _⟩ => by simp at h⟩
  | cons r rs =>
    obtain ⟨t, hk, h1, h2⟩ := runAll_response_kept r (s := (s.emit o).setHost { s.host with responses := rs }) hf hh
    refine ⟨t, (s.kept_emit o).toCalled.trans ((State.called_setHost _ fun h x hx => h x ?_).trans hk.toCalled), fun h => h1 (h r rfl), ?_⟩
    · show x ∈ s.host.responses
      rw [hr]
      exact List.mem_cons_of_mem _ hx
    · rintro ⟨x, hx, hn⟩
      cases hx
      exact h2 hn

/-- A call that is made or not, and completes or ends in `NestedAdvance`. -/
theorem callIf_called (b : Bool) (o : Output) {s : State} (hf : s.fatal = none) (hh : s.sched.heap ≠ []) :
    ∃ t, s.Called t ∧ (s.callIf b o = .next t ∨ ¬ s.host.held ∧ s.callIf b o = .next (t.raise .nestedAdvance)) := by
  cases b with
  | false => exact ⟨s, (State.Kept.rfl' s).toCalled, .inl rfl⟩
  | true =>
    obtain ⟨t, hk, h1, h2⟩ := callHost_called o hf hh
    refine ⟨t, hk, ?_⟩
    by_cases h : ∃ r, s.host.responses.head? = some r ∧ ¬ noAdvance r
    · obtain ⟨r, hr, hn⟩ := h
      exact .inr ⟨fun hh => hn (hh r (List.mem_of_mem_head? hr)), h2 ⟨r, hr, hn⟩⟩
    · exact .inl (h1 fun r hr => by_contra fun hn => h ⟨r, hr, hn⟩)

/-- A call as the statements read it. -/
theorem callIf_eq_calls (b : Bool) (o : Output) {s : State} (hf : s.fatal = none) : s.callIf b o = s.calls b o := by
  cases b with
  | false => rfl
  | true =>
    show s.callHost o = _
    unfold State.callHost State.calls
    cases s.host.responses with
    | nil => rfl
    | cons r rs => exact runAll_eq_answered r hf

end Sys2Proof.Machine
end

