-- ==== Sys2Proof/Laws/Heap.lean ====
section
/-! SUPPORT. The heap primitives: what SiftUp, SiftDown, Insert and RemoveAt leave, said once (spec 40_scheduler.md R150 to R154, R164). -/

namespace Sys2Proof.Machine

/-! ### The event table -/

@[simp] theorem Sched.event_putEvent_same (c : Sched) (h : Nat) (e : Event) : (c.putEvent h e).event h = some e := by
  simp [Sched.event, Sched.putEvent]

theorem Sched.event_putEvent_ne (c : Sched) {h k : Nat} (e : Event) (hk : k ≠ h) :
    (c.putEvent h e).event k = c.event k := by
  simp [Sched.event, Sched.putEvent, Sparse.get_set_ne none _ _ hk]

@[simp] theorem Sched.event_dropEvent_same (c : Sched) (h : Nat) : (c.dropEvent h).event h = none := by
  simp [Sched.event, Sched.dropEvent]

theorem Sched.event_dropEvent_ne (c : Sched) {h k : Nat} (hk : k ≠ h) : (c.dropEvent h).event k = c.event k := by
  simp [Sched.event, Sched.dropEvent, Sparse.get_set_ne none _ _ hk]

theorem Sched.event_setSlot_same (c : Sched) (h i : Nat) :
    (c.setSlot h i).event h = (c.event h).map fun e => { e with slot := i } := by
  unfold Sched.setSlot
  split <;> simp_all

theorem Sched.event_setSlot_ne (c : Sched) {h k : Nat} (i : Nat) (hk : k ≠ h) :
    (c.setSlot h i).event k = c.event k := by
  unfold Sched.setSlot
  split
  · exact Sched.event_putEvent_ne c _ hk
  · rfl

@[simp] theorem Sched.heap_setSlot (c : Sched) (h i : Nat) : (c.setSlot h i).heap = c.heap := by
  unfold Sched.setSlot
  split <;> rfl

@[simp] theorem Sched.heap_place (c : Sched) (i h : Nat) : (c.place i h).heap = c.heap.set i h := by
  simp [Sched.place]

theorem Sched.event_place_same (c : Sched) (i h : Nat) :
    (c.place i h).event h = (c.event h).map fun e => { e with slot := i } := by
  simp [Sched.place, Sched.event_setSlot_same]
  rfl

theorem Sched.event_place_ne (c : Sched) {h k : Nat} (i : Nat) (hk : k ≠ h) :
    (c.place i h).event k = c.event k := by
  simp [Sched.place, Sched.event_setSlot_ne _ i hk]
  rfl

/-- The timestamp of a handle is that of what it is due for. -/
theorem Sched.ts_eq_of_due {c c' : Sched} {h : Nat} (hd : c'.due h = c.due h) : c'.ts h = c.ts h := by
  unfold Sched.due at hd
  unfold Sched.ts
  cases h1 : c.event h <;> cases h2 : c'.event h <;> simp_all

theorem Sched.SameClock.rfl' (c : Sched) : c.SameClock c := ⟨rfl, rfl, rfl, rfl⟩

theorem Sched.SameClock.trans {a b c : Sched} (h : a.SameClock b) (k : b.SameClock c) : a.SameClock c :=
  ⟨k.now.trans h.now, k.inAdvance.trans h.inAdvance, k.target.trans h.target, k.firing.trans h.firing⟩

theorem Sched.sameClock_setSlot (c : Sched) (h i : Nat) : c.SameClock (c.setSlot h i) := by
  unfold Sched.setSlot
  split <;> exact ⟨rfl, rfl, rfl, rfl⟩

theorem Sched.nextHandle_setSlot (c : Sched) (h i : Nat) : (c.setSlot h i).nextHandle = c.nextHandle := by
  unfold Sched.setSlot
  split <;> rfl

theorem Sched.wf_setSlot {c : Sched} (hc : Sparse.wf none c.events) (h i : Nat) : Sparse.wf none (c.setSlot h i).events := by
  unfold Sched.setSlot
  split
  · exact Sparse.wf_set none hc _ _
  · exact hc

theorem Sched.wf_place {c : Sched} (hc : Sparse.wf none c.events) (i h : Nat) : Sparse.wf none (c.place i h).events :=
  Sched.wf_setSlot (c := { c with heap := c.heap.set i h }) hc h i

theorem Sched.sameClock_place (c : Sched) (i h : Nat) : c.SameClock (c.place i h) :=
  Sched.SameClock.trans (b := { c with heap := c.heap.set i h }) ⟨rfl, rfl, rfl, rfl⟩ (Sched.sameClock_setSlot _ _ _)

theorem Sched.due_place (c : Sched) (i h k : Nat) : (c.place i h).due k = c.due k := by
  unfold Sched.due
  by_cases hk : k = h
  · subst hk
    rw [Sched.event_place_same]
    cases c.event k <;> rfl
  · rw [Sched.event_place_ne c i hk]

theorem Sched.ts_place (c : Sched) (i h k : Nat) : (c.place i h).ts k = c.ts k :=
  Sched.ts_eq_of_due (Sched.due_place c i h k)

/-- The timestamp at a slot after a handle is placed. -/
theorem Sched.tsAt_place (c : Sched) {i : Nat} (h k : Nat) (hi : i < c.n) :
    (c.place i h).tsAt k = if k = i then c.ts h else c.tsAt k := by
  have hts : ∀ j, (c.place i h).ts j = c.ts j := fun j => Sched.ts_eq_of_due (Sched.due_place c i h j)
  unfold Sched.tsAt
  rw [Sched.heap_place, List.getElem?_set]
  split_ifs with h1 h2 h3 h4
  · simp [hts]
  · omega
  · exact absurd hi h2
  · exact absurd hi h2
  · omega
  · cases c.heap[k]? <;> simp [hts]

/-! ### The heap and the events name each other -/

/-- `Linked`, but for a handle that has left the heap and is not yet stale. -/
structure Sched.LinkedBut (x : Option Nat) (c : Sched) : Prop where
  events_wf : Sparse.wf none c.events
  live : ∀ i h, c.heap[i]? = some h → some h ≠ x ∧ ∃ e, c.event h = some e ∧ e.slot = i
  slot : ∀ h e, some h ≠ x → c.event h = some e → c.heap[e.slot]? = some h

theorem Sched.Linked.toBut {c : Sched} (hc : c.Linked) : c.LinkedBut none :=
  ⟨hc.events_wf, fun i h hh => ⟨by simp, hc.live i h hh⟩, fun h e _ he => hc.slot h e he⟩

theorem Sched.LinkedBut.toLinked {c : Sched} (hc : c.LinkedBut none) : c.Linked :=
  ⟨hc.events_wf, fun i h hh => (hc.live i h hh).2, fun h e he => hc.slot h e (by simp) he⟩

/-- Two slots that hold the same handle are the same slot. -/
theorem Sched.LinkedBut.inj {x : Option Nat} {c : Sched} (hc : c.LinkedBut x) {i j h : Nat} (hi : c.heap[i]? = some h)
    (hj : c.heap[j]? = some h) : i = j := by
  obtain ⟨-, e, he, rfl⟩ := hc.live i h hi
  obtain ⟨-, e', he', rfl⟩ := hc.live j h hj
  rw [he] at he'
  cases he'
  rfl

/-- What a rearrangement of the heap leaves: the same events due, the same handles, the same clock; only slots move. -/
structure Sched.Shuffled (c c' : Sched) : Prop where
  due : ∀ h, c'.due h = c.due h
  perm : c'.heap.Perm c.heap
  clock : c.SameClock c'
  nextHandle : c'.nextHandle = c.nextHandle
  linked : ∀ x, c.LinkedBut x → c'.LinkedBut x

theorem Sched.Shuffled.rfl' (c : Sched) : c.Shuffled c :=
  ⟨fun _ => rfl, List.Perm.refl _, .rfl' c, rfl, fun _ h => h⟩

theorem Sched.Shuffled.trans {a b c : Sched} (h : a.Shuffled b) (k : b.Shuffled c) : a.Shuffled c :=
  ⟨fun x => (k.due x).trans (h.due x), k.perm.trans h.perm, h.clock.trans k.clock, k.nextHandle.trans h.nextHandle,
    fun x hx => k.linked x (h.linked x hx)⟩

theorem Sched.Shuffled.n {c c' : Sched} (h : c.Shuffled c') : c'.n = c.n := h.perm.length_eq

theorem Sched.linkedBut_swap {x : Option Nat} {c : Sched} {i j hi hj : Nat} (hij : i ≠ j) (h1 : c.heap[i]? = some hi)
    (h2 : c.heap[j]? = some hj) (hc : c.LinkedBut x) : ((c.place i hj).place j hi).LinkedBut x := by
  have hne : hi ≠ hj := fun h => hij (hc.inj h1 (h ▸ h2))
  have hin : i < c.heap.length := (List.getElem?_eq_some_iff.1 h1).1
  have hjn : j < c.heap.length := (List.getElem?_eq_some_iff.1 h2).1
  have ev : ∀ k, ((c.place i hj).place j hi).event k =
      if k = hi then (c.event hi).map (fun e => { e with slot := j })
      else if k = hj then (c.event hj).map (fun e => { e with slot := i }) else c.event k := by
    intro k
    by_cases ki : k = hi
    · subst ki
      rw [Sched.event_place_same, Sched.event_place_ne _ _ hne]
      simp
    · rw [Sched.event_place_ne _ _ ki]
      by_cases kj : k = hj
      · subst kj
        rw [Sched.event_place_same]
        simp [ki]
      · rw [Sched.event_place_ne _ _ kj]
        simp [ki, kj]
  have hp : ((c.place i hj).place j hi).heap = (c.heap.set i hj).set j hi := by simp
  refine ⟨?_, ?_, ?_⟩
  · exact Sched.wf_place (Sched.wf_place hc.events_wf _ _) _ _
  · intro k h hk
    rw [hp, List.getElem?_set, List.getElem?_set] at hk
    rw [ev h]
    by_cases k1 : j = k
    · subst k1
      simp only [if_true, List.length_set, hjn] at hk
      cases hk
      obtain ⟨hx, e, he, -⟩ := hc.live i hi h1
      exact ⟨hx, { e with slot := j }, by simp [he], rfl⟩
    · by_cases k2 : i = k
      · subst k2
        simp only [k1, if_false, if_true, hin] at hk
        cases hk
        obtain ⟨hx, e, he, -⟩ := hc.live j hj h2
        exact ⟨hx, { e with slot := i }, by simp [he, hne.symm], rfl⟩
      · simp only [k1, k2, if_false] at hk
        obtain ⟨hx, e, he, hs⟩ := hc.live k h hk
        have a : h ≠ hi := fun hh => k2 (hc.inj h1 (hh ▸ hk))
        have b : h ≠ hj := fun hh => k1 (hc.inj h2 (hh ▸ hk))
        exact ⟨hx, e, by simp [a, b, he], hs⟩
  · intro h e hx he
    rw [ev h] at he
    rw [hp, List.getElem?_set, List.getElem?_set]
    by_cases a : h = hi
    · subst a
      rw [if_pos rfl] at he
      obtain ⟨e', -, rfl⟩ := Option.map_eq_some_iff.1 he
      simp [hjn]
    · by_cases b : h = hj
      · subst b
        rw [if_neg a, if_pos rfl] at he
        obtain ⟨e', -, rfl⟩ := Option.map_eq_some_iff.1 he
        simp [hij.symm, hin]
      · rw [if_neg a, if_neg b] at he
        have hs := hc.slot h e hx he
        have c1 : j ≠ e.slot := fun hh => b (by rw [← hh, h2] at hs; exact (Option.some.inj hs).symm)
        have c2 : i ≠ e.slot := fun hh => a (by rw [← hh, h1] at hs; exact (Option.some.inj hs).symm)
        simp [c1, c2, hs]

/-- `swap` of two slots of the heap. -/
theorem Sched.swap_eq {c : Sched} {i j : Nat} (hi : i < c.n) (hj : j < c.n) :
    c.swap i j = (c.place i c.heap[j]).place j c.heap[i] := by
  unfold Sched.swap
  rw [List.getElem?_eq_getElem hi, List.getElem?_eq_getElem hj]

theorem Sched.shuffled_swap {c : Sched} {i j : Nat} (hij : i ≠ j) (hi : i < c.n) (hj : j < c.n) :
    c.Shuffled (c.swap i j) := by
  rw [Sched.swap_eq hi hj]
  refine ⟨fun h => ?_, ?_, ?_, ?_, fun x hx => ?_⟩
  · rw [Sched.due_place, Sched.due_place]
  · simpa using List.set_set_perm hi hj
  · exact (Sched.sameClock_place _ _ _).trans (Sched.sameClock_place _ _ _)
  · simp [Sched.place, Sched.nextHandle_setSlot]
  · exact Sched.linkedBut_swap hij (List.getElem?_eq_getElem hi) (List.getElem?_eq_getElem hj) hx

/-- The timestamps at the slots after a swap. -/
theorem Sched.tsAt_swap {c : Sched} {i j : Nat} (k : Nat) (hi : i < c.n) (hj : j < c.n) :
    (c.swap i j).tsAt k = if k = j then c.tsAt i else if k = i then c.tsAt j else c.tsAt k := by
  obtain ⟨hI, h1⟩ : ∃ h, c.heap[i]? = some h := ⟨_, List.getElem?_eq_getElem hi⟩
  obtain ⟨hJ, h2⟩ : ∃ h, c.heap[j]? = some h := ⟨_, List.getElem?_eq_getElem hj⟩
  have a : c.ts hI = c.tsAt i := by simp [Sched.tsAt, h1]
  have b : c.ts hJ = c.tsAt j := by simp [Sched.tsAt, h2]
  have hj' : j < (c.place i hJ).n := by simpa [Sched.n] using hj
  unfold Sched.swap
  simp only [h1, h2]
  rw [Sched.tsAt_place _ _ _ hj', Sched.tsAt_place _ _ _ hi, Sched.ts_place, a, b]

/-! ### SiftUp -/

/-- Ordered but for slot `i`, which may be earlier than its parent (R150). -/
structure Sched.OrderedUp (c : Sched) (i : Nat) : Prop where
  others : ∀ k, 0 < k → k < c.n → k ≠ i → c.tsAt ((k - 1) / 2) ≤ c.tsAt k
  across : 0 < i → ∀ k, 0 < k → k < c.n → (k - 1) / 2 = i → c.tsAt ((i - 1) / 2) ≤ c.tsAt k

theorem Sched.shuffled_siftUpFor (fuel : Nat) (c : Sched) (i : Nat) (hi : i < c.n) :
    c.Shuffled (Sched.siftUpFor fuel c i) := by
  induction fuel generalizing c i with
  | zero => exact .rfl' c
  | succ fuel ih =>
    unfold Sched.siftUpFor
    split_ifs with h
    · have hp : (i - 1) / 2 < c.n := by omega
      have hs := Sched.shuffled_swap (i := i) (j := (i - 1) / 2) (by omega) hi hp
      exact hs.trans (ih _ _ (by rw [hs.n]; exact hp))
    · exact .rfl' c

theorem Sched.ordered_siftUpFor (fuel : Nat) (c : Sched) (i : Nat) (hi : i < c.n) (hf : i ≤ fuel) (ho : c.OrderedUp i) :
    (Sched.siftUpFor fuel c i).Ordered := by
  induction fuel generalizing c i with
  | zero =>
    intro k hk hn
    exact ho.others k hk hn (by omega)
  | succ fuel ih =>
    unfold Sched.siftUpFor
    split_ifs with h
    · obtain ⟨h0, hlt⟩ := h
      have hp : (i - 1) / 2 < c.n := by omega
      have hs := Sched.shuffled_swap (i := i) (j := (i - 1) / 2) (by omega) hi hp
      have hn := hs.n
      refine ih _ _ (by rw [hn]; exact hp) (by omega) ⟨fun k hk hkn hkp => ?_, fun hp0 k hk hkn hkp => ?_⟩
      · rw [hn] at hkn
        rw [Sched.tsAt_swap _ hi hp, Sched.tsAt_swap _ hi hp, if_neg hkp]
        by_cases k1 : k = i
        · subst k1
          simpa using BitVec.le_of_lt hlt
        · rw [if_neg k1]
          have hk0 := ho.others k hk hkn k1
          by_cases k2 : (k - 1) / 2 = (i - 1) / 2
          · rw [if_pos k2]
            rw [k2] at hk0
            exact BitVec.le_trans (BitVec.le_of_lt hlt) hk0
          · rw [if_neg k2]
            by_cases k3 : (k - 1) / 2 = i
            · rw [if_pos k3]
              exact ho.across h0 k hk hkn k3
            · rw [if_neg k3]
              exact hk0
      · rw [hn] at hkn
        have hg : c.tsAt (((i - 1) / 2 - 1) / 2) ≤ c.tsAt ((i - 1) / 2) := ho.others _ hp0 hp (by omega)
        rw [Sched.tsAt_swap _ hi hp, Sched.tsAt_swap _ hi hp, if_neg (by omega), if_neg (by omega)]
        by_cases k1 : k = i
        · subst k1
          rw [if_neg (by omega), if_pos rfl]
          exact hg
        · rw [if_neg (by omega), if_neg k1]
          have hk0 := ho.others k hk hkn k1
          rw [hkp] at hk0
          exact BitVec.le_trans hg hk0
    · intro k hk hn
      by_cases k1 : k = i
      · subst k1
        have : ¬ c.tsAt k < c.tsAt ((k - 1) / 2) := fun hh => h ⟨hk, hh⟩
        exact BitVec.not_lt.1 this
      · exact ho.others k hk hn k1

/-! ### SiftDown -/

/-- Ordered but for slot `i`, which may be later than its children (R151). -/
structure Sched.OrderedDown (c : Sched) (i : Nat) : Prop where
  others : ∀ k, 0 < k → k < c.n → (k - 1) / 2 ≠ i → c.tsAt ((k - 1) / 2) ≤ c.tsAt k
  across : 0 < i → ∀ k, 0 < k → k < c.n → (k - 1) / 2 = i → c.tsAt ((i - 1) / 2) ≤ c.tsAt k

/-- What `earlierChild` chooses: the slot itself when neither child is earlier, else the earliest child (R151). -/
theorem Sched.earlierChild_spec (c : Sched) (i : Nat) :
    (c.earlierChild i = i ∧ ∀ k, 0 < k → k < c.n → (k - 1) / 2 = i → c.tsAt i ≤ c.tsAt k) ∨
    (0 < c.earlierChild i ∧ c.earlierChild i < c.n ∧ (c.earlierChild i - 1) / 2 = i ∧
      c.tsAt (c.earlierChild i) < c.tsAt i ∧
      ∀ k, 0 < k → k < c.n → (k - 1) / 2 = i → c.tsAt (c.earlierChild i) ≤ c.tsAt k) := by
  have hc : ∀ k, 0 < k → (k - 1) / 2 = i → k = 2 * i + 1 ∨ k = 2 * i + 2 := by omega
  unfold Sched.earlierChild
  simp only [BitVec.lt_def, BitVec.le_def]
  split_ifs with h1 h2 h2
  · right
    refine ⟨by omega, h2.1, by omega, by omega, fun k hk hn hp => ?_⟩
    rcases hc k hk hp with rfl | rfl <;> omega
  · right
    refine ⟨by omega, h1.1, by omega, by omega, fun k hk hn hp => ?_⟩
    rcases hc k hk hp with rfl | rfl <;> omega
  · right
    refine ⟨by omega, h2.1, by omega, by omega, fun k hk hn hp => ?_⟩
    rcases hc k hk hp with rfl | rfl <;> omega
  · left
    refine ⟨rfl, fun k hk hn hp => ?_⟩
    rcases hc k hk hp with rfl | rfl <;> omega

theorem Sched.shuffled_siftDownFor (fuel : Nat) (c : Sched) (i : Nat) (hi : i < c.n) :
    c.Shuffled (Sched.siftDownFor fuel c i) := by
  induction fuel generalizing c i with
  | zero => exact .rfl' c
  | succ fuel ih =>
    unfold Sched.siftDownFor
    split_ifs with h
    · exact .rfl' c
    · rcases c.earlierChild_spec i with ⟨h', -⟩ | ⟨h0, hn, hp, -, -⟩
      · exact absurd h' h
      · have hs := Sched.shuffled_swap (i := i) (j := c.earlierChild i) (fun hh => h hh.symm) hi hn
        exact hs.trans (ih _ _ (by rw [hs.n]; exact hn))

theorem Sched.ordered_siftDownFor (fuel : Nat) (c : Sched) (i : Nat) (hi : i < c.n) (hf : c.n ≤ fuel + i)
    (ho : c.OrderedDown i) : (Sched.siftDownFor fuel c i).Ordered := by
  induction fuel generalizing c i with
  | zero => omega
  | succ fuel ih =>
    unfold Sched.siftDownFor
    split_ifs with h
    · rcases c.earlierChild_spec i with ⟨-, h'⟩ | ⟨h0, -, hp, -, -⟩
      · intro k hk hn
        by_cases k1 : (k - 1) / 2 = i
        · rw [k1]
          exact h' k hk hn k1
        · exact ho.others k hk hn k1
      · rw [h] at h0 hp
        omega
    · rcases c.earlierChild_spec i with ⟨h', -⟩ | ⟨h0, hm, hp, hlt, hmin⟩
      · exact absurd h' h
      · generalize c.earlierChild i = m at *
        have him : i ≠ m := fun hh => h hh.symm
        have hs := Sched.shuffled_swap (i := i) (j := m) him hi hm
        have hn := hs.n
        refine ih _ _ (by rw [hn]; exact hm) (by rw [hn]; omega) ⟨fun k hk hkn hkp => ?_, fun _ k hk hkn hkp => ?_⟩
        · rw [hn] at hkn
          rw [Sched.tsAt_swap _ hi hm, Sched.tsAt_swap _ hi hm, if_neg hkp]
          by_cases k1 : k = m
          · subst k1
            rw [if_pos hp, if_pos rfl]
            exact BitVec.le_of_lt hlt
          · rw [if_neg k1]
            by_cases k2 : k = i
            · subst k2
              rw [if_pos rfl, if_neg (by omega)]
              exact ho.across hk m h0 hm hp
            · rw [if_neg k2]
              by_cases k3 : (k - 1) / 2 = i
              · rw [if_pos k3]
                exact hmin k hk hkn k3
              · rw [if_neg k3]
                exact ho.others k hk hkn k3
        · rw [hn] at hkn
          rw [Sched.tsAt_swap _ hi hm, Sched.tsAt_swap _ hi hm, hp, if_neg him, if_pos rfl]
          have hk0 := ho.others k hk hkn (by omega)
          rw [hkp] at hk0
          rw [if_neg (by omega), if_neg (by omega)]
          exact hk0

/-! ### Insert -/

theorem Sched.push_spec {c : Sched} (hl : c.Linked) (ho : c.Ordered) (hfresh : c.event c.nextHandle = none)
    (ts : Timestamp) (tag : Tag) : c.Pushed ts tag (c.push ts tag) := by
  have hnot : ∀ i : Nat, c.heap[i]? ≠ some c.nextHandle := by
    intro i hi
    obtain ⟨e, he, -⟩ := hl.live i _ hi
    rw [hfresh] at he
    cases he
  let c2 : Sched := { c with
    nextHandle := c.nextHandle + 1
    events := Sparse.set none c.events c.nextHandle (some ⟨ts, tag, c.n⟩)
    heap := c.heap ++ [c.nextHandle] }
  have hpush : c.push ts tag = c2.siftUp c.n := rfl
  have hev : ∀ h, c2.event h = if h = c.nextHandle then some ⟨ts, tag, c.n⟩ else c.event h := by
    intro h
    by_cases hh : h = c.nextHandle
    · subst hh
      simp [Sched.event, c2]
    · simp [Sched.event, c2, Sparse.get_set_ne none _ _ hh, hh]
  have hn2 : c2.n = c.n + 1 := by simp [Sched.n, c2]
  have hlast : c2.heap[c.n]? = some c.nextHandle := by simp [c2, Sched.n]
  have hinit : ∀ i : Nat, i < c.n → c2.heap[i]? = c.heap[i]? := by
    intro i hi
    have := List.getElem?_append_left (l₂ := [c.nextHandle]) (show i < c.heap.length from hi)
    exact this
  have hlink : c2.Linked := by
    refine ⟨Sparse.wf_set none hl.events_wf _ _, fun i h hi => ?_, fun h e he => ?_⟩
    · have hi2 : i < c2.n := (List.getElem?_eq_some_iff.1 hi).1
      by_cases h1 : i = c.n
      · subst h1
        rw [hlast] at hi
        cases hi
        exact ⟨⟨ts, tag, c.n⟩, by rw [hev]; simp, rfl⟩
      · rw [hinit i (by omega)] at hi
        obtain ⟨e, he, hs⟩ := hl.live i h hi
        refine ⟨e, ?_, hs⟩
        rw [hev, if_neg (fun hh : h = c.nextHandle => hnot i (hh ▸ hi)), he]
    · rw [hev] at he
      split_ifs at he with h1
      · cases he
        subst h1
        exact hlast
      · have := hl.slot h e he
        rw [hinit _ (List.getElem?_eq_some_iff.1 this).1]
        exact this
  have hts : ∀ i, i < c.n → c2.tsAt i = c.tsAt i := by
    intro i hi
    unfold Sched.tsAt
    rw [hinit i hi, List.getElem?_eq_getElem hi]
    refine Sched.ts_eq_of_due ?_
    unfold Sched.due
    rw [hev, if_neg]
    intro hh
    exact hnot i (by rw [← hh]; exact List.getElem?_eq_getElem hi)
  have hup : c2.OrderedUp c.n := by
    refine ⟨fun k hk hkn hki => ?_, fun _ k hk hkn hkp => ?_⟩
    · rw [hts k (by omega), hts _ (by omega)]
      exact ho k hk (by omega)
    · omega
  have hs : c2.Shuffled (c2.siftUp c.n) := Sched.shuffled_siftUpFor _ _ _ (by omega)
  rw [hpush]
  refine ⟨?_, fun h hh => ?_, ?_, ?_, ?_, ?_, ?_⟩
  · rw [hs.due]
    unfold Sched.due
    rw [hev]
    simp
  · rw [hs.due]
    unfold Sched.due
    rw [hev, if_neg hh]
  · exact hs.perm.trans (by simp [c2])
  · exact Sched.SameClock.trans (b := c2) ⟨rfl, rfl, rfl, rfl⟩ hs.clock
  · exact hs.nextHandle
  · exact (hs.linked none hlink.toBut).toLinked
  · exact Sched.ordered_siftUpFor _ _ _ (by omega) (Nat.le_refl _) hup

/-! ### RemoveAt -/

/-- Once the handle that left the heap is stale, heap and events name each other again. -/
theorem Sched.LinkedBut.dropEvent {c : Sched} {h : Nat} (hc : c.LinkedBut (some h)) : (c.dropEvent h).Linked := by
  refine ⟨Sparse.wf_set none hc.events_wf _ _, fun i k hk => ?_, fun k e he => ?_⟩
  · obtain ⟨hx, e, he, hs⟩ := hc.live i k hk
    exact ⟨e, by rw [Sched.event_dropEvent_ne c (fun hh => hx (by rw [hh])), he], hs⟩
  · by_cases hk : k = h
    · subst hk
      simp at he
    · rw [Sched.event_dropEvent_ne c hk] at he
      exact hc.slot k e (fun hh => hk (Option.some.inj hh)) he

theorem Sched.due_dropEvent_ne (c : Sched) {h k : Nat} (hk : k ≠ h) : (c.dropEvent h).due k = c.due k := by
  unfold Sched.due
  rw [Sched.event_dropEvent_ne c hk]

/-- Making a handle stale that is not in the heap changes no timestamp of the heap. -/
theorem Sched.ordered_dropEvent {c : Sched} {h : Nat} (hl : c.LinkedBut (some h)) (ho : c.Ordered) :
    (c.dropEvent h).Ordered := by
  have hts : ∀ i, (c.dropEvent h).tsAt i = c.tsAt i := by
    intro i
    unfold Sched.tsAt
    rw [show (c.dropEvent h).heap = c.heap from rfl]
    cases hi : c.heap[i]? with
    | none => rfl
    | some k =>
      exact Sched.ts_eq_of_due (Sched.due_dropEvent_ne c (fun hh => (hl.live i k hi).1 (by rw [hh])))
  intro i h0 hn
  rw [hts, hts]
  exact ho i h0 hn

/-- A linked heap without its last entry. -/
theorem Sched.linkedBut_dropLast {c : Sched} (hl : c.Linked) {h : Nat} (hh : c.heap[c.n - 1]? = some h) :
    Sched.LinkedBut (some h) { c with heap := c.heap.dropLast } := by
  refine ⟨hl.events_wf, fun i k hk => ?_, fun k e hk he => ?_⟩
  · have hk' : c.heap.dropLast[i]? = some k := hk
    rw [List.getElem?_dropLast] at hk'
    split_ifs at hk' with hi
    obtain ⟨e, he, hs⟩ := hl.live i k hk'
    refine ⟨fun hx => ?_, e, he, hs⟩
    cases hx
    have := hl.toBut.inj hk' hh
    simp only [Sched.n] at this
    omega
  · have he' : c.event k = some e := he
    have hs := hl.slot k e he'
    show c.heap.dropLast[e.slot]? = some k
    rw [List.getElem?_dropLast, if_pos, hs]
    by_contra hge
    have hlt := (List.getElem?_eq_some_iff.1 hs).1
    have heq : e.slot = c.n - 1 := by simp only [Sched.n]; omega
    rw [heq, hh] at hs
    exact hk (by rw [hs])

/-- The last entry takes an inner slot: the entry that was there has left the heap. -/
theorem Sched.linkedBut_fill {c : Sched} (hl : c.Linked) {i h last : Nat} (hi : i < c.n - 1) (hh : c.heap[i]? = some h)
    (hlast : c.heap[c.n - 1]? = some last) :
    Sched.LinkedBut (some h) (Sched.place { c with heap := c.heap.dropLast } i last) := by
  have hne : last ≠ h := fun hx => by
    have := hl.toBut.inj (hx ▸ hlast) hh
    omega
  have ev : ∀ k, (Sched.place { c with heap := c.heap.dropLast } i last).event k =
      if k = last then (c.event last).map (fun e => { e with slot := i }) else c.event k := by
    intro k
    by_cases hk : k = last
    · subst hk
      rw [Sched.event_place_same]
      simp
      rfl
    · rw [Sched.event_place_ne _ _ hk, if_neg hk]
      rfl
  have hp : (Sched.place { c with heap := c.heap.dropLast } i last).heap = c.heap.dropLast.set i last := by simp
  have hlen : i < c.heap.dropLast.length := by simpa [Sched.n] using hi
  refine ⟨Sched.wf_place (c := { c with heap := c.heap.dropLast }) hl.events_wf _ _, fun j k hk => ?_, fun k e hk he => ?_⟩
  · rw [hp, List.getElem?_set] at hk
    rw [ev]
    by_cases hj : i = j
    · subst hj
      simp only [if_true, hlen] at hk
      cases hk
      obtain ⟨e, he, -⟩ := hl.live _ _ hlast
      exact ⟨fun hx => hne (Option.some.inj hx), { e with slot := i }, by simp [he], rfl⟩
    · rw [if_neg hj, List.getElem?_dropLast] at hk
      split_ifs at hk with hjn
      obtain ⟨e, he, hs⟩ := hl.live j k hk
      refine ⟨fun hx => hj ?_, e, ?_, hs⟩
      · cases hx
        exact hl.toBut.inj hh hk
      · rw [if_neg, he]
        rintro rfl
        have := hl.toBut.inj hk hlast
        simp only [Sched.n] at this
        omega
  · rw [ev] at he
    rw [hp, List.getElem?_set]
    by_cases hkl : k = last
    · subst hkl
      rw [if_pos rfl] at he
      obtain ⟨e', -, rfl⟩ := Option.map_eq_some_iff.1 he
      simp only [if_true, hlen]
    · rw [if_neg hkl] at he
      have hs := hl.slot k e he
      have h1 : i ≠ e.slot := fun hx => hk (by rw [← hx, hh] at hs; exact congrArg some (Option.some.inj hs).symm)
      have hlt := (List.getElem?_eq_some_iff.1 hs).1
      have h2 : e.slot ≠ c.n - 1 := fun hx => hkl (by rw [hx, hlast] at hs; exact (Option.some.inj hs).symm)
      rw [if_neg h1, List.getElem?_dropLast, if_pos, hs]
      simp only [Sched.n] at h2
      omega

/-- A list without its last entry, that entry put in the place of another: the other is gone. -/
theorem perm_fill {l : List Nat} {i : Nat} (hi : i < l.length - 1) :
    (l[i]'(by omega) :: l.dropLast.set i (l[l.length - 1]'(by omega))).Perm l := by
  have hd : l.dropLast ++ [l[l.length - 1]'(by omega)] = l := by
    have := List.dropLast_append_getLast (l := l) (by rintro rfl; simp at hi)
    rwa [List.getLast_eq_getElem] at this
  have hi' : i < l.dropLast.length := by simpa using hi
  have hget : l.dropLast[i] = l[i]'(by omega) := by simp
  have h1 : l.dropLast.Perm (l[i]'(by omega) :: l.dropLast.eraseIdx i) := by
    rw [← hget]
    exact (List.getElem_cons_eraseIdx_perm hi').symm
  have h2 : (l.dropLast.set i (l[l.length - 1]'(by omega))).Perm
      (l[l.length - 1]'(by omega) :: l.dropLast.eraseIdx i) := List.set_perm_cons_eraseIdx hi' _
  refine (List.Perm.cons _ h2).trans ?_
  refine (List.Perm.swap ..).trans ?_
  refine (List.Perm.cons _ h1.symm).trans ?_
  rw [List.perm_comm]
  exact (List.Perm.of_eq hd.symm).trans (List.perm_append_singleton _ _)

theorem Sched.fillSlot_spec {c : Sched} (hl : c.Linked) (ho : c.Ordered) {i h : Nat} (hh : c.heap[i]? = some h) :
    Sched.LinkedBut (some h) (c.fillSlot i) ∧ (c.fillSlot i).Ordered ∧ (∀ k, (c.fillSlot i).due k = c.due k) ∧
      (h :: (c.fillSlot i).heap).Perm c.heap ∧ c.SameClock (c.fillSlot i) ∧ (c.fillSlot i).nextHandle = c.nextHandle := by
  have hin : i < c.n := (List.getElem?_eq_some_iff.1 hh).1
  by_cases hi : i = c.n - 1
  · have hf : c.fillSlot i = { c with heap := c.heap.dropLast } := by
      unfold Sched.fillSlot
      exact if_pos hi
    rw [hf]
    subst hi
    refine ⟨Sched.linkedBut_dropLast hl hh, ?_, fun _ => rfl, ?_, ⟨rfl, rfl, rfl, rfl⟩, rfl⟩
    · have hts : ∀ k, k < c.n - 1 → Sched.tsAt { c with heap := c.heap.dropLast } k = c.tsAt k := by
        intro k hk
        unfold Sched.tsAt
        simp only [List.getElem?_dropLast]
        rw [if_pos (by simpa [Sched.n] using hk)]
        rfl
      intro k hk hkn
      have hkn' : k < c.n - 1 := by simpa [Sched.n] using hkn
      rw [hts k hkn', hts _ (by omega)]
      exact ho k hk (by omega)
    · have hd : c.heap.dropLast ++ [h] = c.heap := by
        have h1 := List.dropLast_append_getLast (l := c.heap) (by rintro hx; simp [Sched.n, hx] at hin)
        rw [List.getLast_eq_getElem] at h1
        have h2 := (List.getElem?_eq_some_iff.1 hh).2
        simp only [Sched.n] at h2
        rwa [h2] at h1
      exact (List.perm_append_singleton _ _).symm.trans (List.Perm.of_eq hd)
  · have hi' : i < c.n - 1 := by omega
    have hl1 : c.n - 1 < c.heap.length := by simp only [Sched.n] at *; omega
    have hlast : c.heap[c.n - 1]? = some c.heap[c.n - 1] := List.getElem?_eq_getElem hl1
    generalize hlv : c.heap[c.n - 1] = last at *
    have hf : c.fillSlot i =
        if 0 < i ∧ (Sched.place { c with heap := c.heap.dropLast } i last).tsAt i <
            (Sched.place { c with heap := c.heap.dropLast } i last).tsAt ((i - 1) / 2) then
          (Sched.place { c with heap := c.heap.dropLast } i last).siftUp i
        else (Sched.place { c with heap := c.heap.dropLast } i last).siftDown i := by
      simp only [Sched.fillSlot, if_neg hi, hlast]
    rw [hf]
    have hbut := Sched.linkedBut_fill hl hi' hh hlast
    have hn2 : (Sched.place { c with heap := c.heap.dropLast } i last).n = c.n - 1 := by simp [Sched.n]
    have hts : ∀ k, k < c.n - 1 →
        (Sched.place { c with heap := c.heap.dropLast } i last).tsAt k = if k = i then c.ts last else c.tsAt k := by
      intro k hk
      rw [Sched.tsAt_place _ _ _ (by simpa [Sched.n] using hi')]
      by_cases hki : k = i
      · rw [if_pos hki, if_pos hki]
        rfl
      · rw [if_neg hki, if_neg hki]
        unfold Sched.tsAt
        simp only [List.getElem?_dropLast]
        rw [if_pos (by simpa [Sched.n] using hk)]
        rfl
    have hdue : ∀ k, (Sched.place { c with heap := c.heap.dropLast } i last).due k = c.due k := by
      intro k
      rw [Sched.due_place]
      rfl
    have hperm : (h :: (Sched.place { c with heap := c.heap.dropLast } i last).heap).Perm c.heap := by
      have h1 := perm_fill (l := c.heap) (i := i) (by simpa [Sched.n] using hi')
      have h2 := (List.getElem?_eq_some_iff.1 hh).2
      rw [h2] at h1
      simp only [Sched.n] at hlv
      rw [hlv] at h1
      simpa using h1
    have hclock : c.SameClock (Sched.place { c with heap := c.heap.dropLast } i last) :=
      Sched.SameClock.trans (b := { c with heap := c.heap.dropLast }) ⟨rfl, rfl, rfl, rfl⟩
        (Sched.SameClock.trans (b := { c with heap := c.heap.dropLast.set i last }) ⟨rfl, rfl, rfl, rfl⟩
          (Sched.sameClock_setSlot _ _ _))
    have hnh : (Sched.place { c with heap := c.heap.dropLast } i last).nextHandle = c.nextHandle := by
      simp [Sched.place, Sched.nextHandle_setSlot]
    generalize hc2 : Sched.place { c with heap := c.heap.dropLast } i last = c2 at *
    have hi2 : i < c2.n := by omega
    have hchild : 0 < i → ∀ k, 0 < k → k < c2.n → (k - 1) / 2 = i → c2.tsAt ((i - 1) / 2) ≤ c2.tsAt k := by
      intro h0 k hk hkn hkp
      rw [hts k (by omega), if_neg (by omega), hts _ (by omega), if_neg (by omega)]
      have a := ho k hk (by omega)
      have b := ho i h0 (by omega)
      rw [hkp] at a
      exact BitVec.le_trans b a
    have hrest : ∀ k, 0 < k → k < c2.n → k ≠ i → (k - 1) / 2 ≠ i → c2.tsAt ((k - 1) / 2) ≤ c2.tsAt k := by
      intro k hk hkn h1 h2
      rw [hts k (by omega), if_neg h1, hts _ (by omega), if_neg h2]
      exact ho k hk (by omega)
    have both : ∀ c3, c2.Shuffled c3 → c3.Ordered →
        Sched.LinkedBut (some h) c3 ∧ c3.Ordered ∧ (∀ k, c3.due k = c.due k) ∧
          (h :: c3.heap).Perm c.heap ∧ c.SameClock c3 ∧ c3.nextHandle = c.nextHandle := by
      intro c3 hs hord
      exact ⟨hs.linked _ hbut, hord, fun k => (hs.due k).trans (hdue k), (hs.perm.cons h).trans hperm,
        hclock.trans hs.clock, hs.nextHandle.trans hnh⟩
    split_ifs with hup
    · refine both _ (Sched.shuffled_siftUpFor _ _ _ hi2)
        (Sched.ordered_siftUpFor _ _ _ hi2 (Nat.le_refl _) ⟨fun k hk hkn hki => ?_, hchild⟩)
      by_cases hkp : (k - 1) / 2 = i
      · have h1 := hchild hup.1 k hk hkn hkp
        rw [hkp]
        exact BitVec.le_trans (BitVec.le_of_lt hup.2) h1
      · exact hrest k hk hkn hki hkp
    · refine both _ (Sched.shuffled_siftDownFor _ _ _ hi2)
        (Sched.ordered_siftDownFor _ _ _ hi2 (Nat.le_add_right _ _) ⟨fun k hk hkn hkp => ?_, hchild⟩)
      by_cases hki : k = i
      · subst hki
        exact BitVec.not_lt.1 fun hx => hup ⟨hk, hx⟩
      · exact hrest k hk hkn hki hkp

theorem Sched.removeAt_spec {c : Sched} (hl : c.Linked) (ho : c.Ordered) {i h : Nat} (hh : c.heap[i]? = some h) :
    c.Removed h (c.removeAt i) := by
  obtain ⟨h1, h2, h3, h4, h5, h6⟩ := Sched.fillSlot_spec hl ho hh
  unfold Sched.removeAt
  rw [hh]
  exact ⟨Sched.event_dropEvent_same _ _, fun k hk => (Sched.due_dropEvent_ne _ hk).trans (h3 k), h4,
    ⟨h5.now, h5.inAdvance, h5.target, h5.firing⟩, h6, h1.dropEvent, Sched.ordered_dropEvent h1 h2⟩

end Sys2Proof.Machine
end

