-- ==== Sys2Proof/Laws/Sched.lean ====
section
/-! SUPPORT. The scheduler's invariants (spec 40_scheduler.md R164) under insertion, removal, the scheduler commands and the sequences of commands of an
external callback. -/

namespace Sys2Proof.Machine

variable {m : Timestamp}

/-! ### Events by what they are due for -/

theorem Sched.due_of_event {c : Sched} {h : Nat} {e : Event} (he : c.event h = some e) : c.due h = some (e.ts, e.tag) := by
  unfold Sched.due
  rw [he]
  rfl

theorem Sched.event_of_due {c : Sched} {h : Nat} {ts : Timestamp} {tag : Tag} (hd : c.due h = some (ts, tag)) :
    ∃ e, c.event h = some e ∧ e.ts = ts ∧ e.tag = tag := by
  unfold Sched.due at hd
  obtain ⟨e, he, h2⟩ := Option.map_eq_some_iff.1 hd
  cases h2
  exact ⟨e, he, rfl, rfl⟩

theorem Sched.due_none {c : Sched} {h : Nat} : c.due h = none ↔ c.event h = none := by
  unfold Sched.due
  cases c.event h <;> simp

/-- Two schedulers that agree on what a handle is due for agree on whether it is live. -/
theorem Sched.event_of_due_eq {c c' : Sched} {h : Nat} {e : Event} (hd : c'.due h = c.due h) (he : c'.event h = some e) :
    ∃ f, c.event h = some f ∧ f.ts = e.ts ∧ f.tag = e.tag := by
  have := Sched.due_of_event he
  rw [hd] at this
  exact Sched.event_of_due this

theorem Sched.Inv.fresh {c : Sched} (hc : c.Inv m) : c.event c.nextHandle = none := by
  cases h : c.event c.nextHandle with
  | none => rfl
  | some e => exact absurd (hc.issued _ _ h) (Nat.lt_irrefl _)

theorem Sched.Inv.heap_ne {c : Sched} (hc : c.Inv m) : c.heap ≠ [] := by
  obtain ⟨e, he, -⟩ := hc.sentinel
  intro h
  have := hc.linked.slot 0 e he
  simp [h] at this

/-- An ordered heap's root is its earliest entry. -/
theorem Sched.Ordered.root_le {c : Sched} (ho : c.Ordered) {i : Nat} (hi : i < c.n) : c.tsAt 0 ≤ c.tsAt i := by
  induction i using Nat.strongRecOn with
  | ind i ih =>
    by_cases h : i = 0
    · subst h
      exact BitVec.le_refl _
    · exact BitVec.le_trans (ih ((i - 1) / 2) (by omega) (by omega)) (ho i (by omega) hi)

/-- The root of the heap is a live event of the least timestamp (R155, R161). -/
theorem Sched.Inv.root {c : Sched} (hc : c.Inv m) {root : Nat} {rest : List Nat} (hh : c.heap = root :: rest) :
    ∃ e, c.event root = some e ∧ c.ts root = e.ts ∧ ∀ k f, c.event k = some f → e.ts ≤ f.ts := by
  obtain ⟨e, he, -⟩ := hc.linked.live 0 root (by rw [hh]; rfl)
  have hts : c.ts root = e.ts := by simp [Sched.ts, he]
  refine ⟨e, he, hts, fun k f hf => ?_⟩
  have hs := hc.linked.slot k f hf
  have h1 := hc.ordered.root_le (List.getElem?_eq_some_iff.1 hs).1
  have h0 : c.tsAt 0 = e.ts := by simp [Sched.tsAt, hh, hts]
  have h2 : c.tsAt f.slot = f.ts := by simp [Sched.tsAt, hs, Sched.ts, hf]
  rwa [h0, h2] at h1

/-! ### Insertion and removal -/

theorem Sched.Inv.pushed {c c' : Sched} {ts : Timestamp} {tag : Tag} (hc : c.Inv m) (hp : c.Pushed ts tag c')
    (h1 : c.now ≤ ts) (h2 : ts < m) (h3 : tag ≠ .endOfTime) : c'.Inv m := by
  have key : ∀ h e, c'.event h = some e →
      (h = c.nextHandle ∧ e.ts = ts ∧ e.tag = tag) ∨ (h ≠ c.nextHandle ∧ ∃ f, c.event h = some f ∧ f.ts = e.ts ∧ f.tag = e.tag) := by
    intro h e he
    by_cases hh : h = c.nextHandle
    · subst hh
      have := Sched.due_of_event he
      rw [hp.new] at this
      cases this
      exact .inl ⟨rfl, rfl, rfl⟩
    · exact .inr ⟨hh, Sched.event_of_due_eq (hp.old h hh) he⟩
  have back : ∀ h e, c.event h = some e → ∃ f, c'.event h = some f ∧ f.ts = e.ts ∧ f.tag = e.tag := by
    intro h e he
    have hh : h ≠ c.nextHandle := fun hh => by rw [hh, hc.fresh] at he; cases he
    exact Sched.event_of_due_eq (hp.old h hh).symm he
  refine
    { linked := hp.linked, ordered := hp.ordered, sentinel := ?_, oneSentinel := fun h e he hne => ?_
      notPast := fun h e he => ?_, issued := fun h e he => ?_
      someIssued := by rw [hp.nextHandle]; omega
      target := fun ha => by
        rw [hp.clock.now, hp.clock.target]
        exact hc.target (by rw [← hp.clock.inAdvance]; exact ha)
      firing := fun h hf => ?_ }
  · obtain ⟨e, he, a, b⟩ := hc.sentinel
    obtain ⟨f, hf, k1, k2⟩ := back 0 e he
    exact ⟨f, hf, k1.trans a, k2.trans b⟩
  · rcases key h e he with ⟨-, k1, k2⟩ | ⟨-, f, hf, k1, k2⟩
    · rw [k1, k2]
      exact ⟨h3, h2⟩
    · rw [← k1, ← k2]
      exact hc.oneSentinel h f hf hne
  · rw [hp.clock.now]
    rcases key h e he with ⟨-, k1, -⟩ | ⟨-, f, hf, k1, -⟩
    · rw [k1]
      exact h1
    · rw [← k1]
      exact hc.notPast h f hf
  · rw [hp.nextHandle]
    rcases key h e he with ⟨rfl, -, -⟩ | ⟨-, f, hf, -, -⟩
    · omega
    · have := hc.issued h f hf
      omega
  · rw [hp.clock.firing] at hf
    obtain ⟨a, b, e, he, k⟩ := hc.firing h hf
    obtain ⟨f, hf', k1, -⟩ := back h e he
    exact ⟨by rw [hp.clock.inAdvance]; exact a, b, f, hf', by rw [k1, hp.clock.now]; exact k⟩

theorem Sched.Inv.removed {c c' : Sched} {h : Nat} (hc : c.Inv m) (hr : c.Removed h c') (h0 : h ≠ 0)
    (hf : c.firing ≠ some h) : c'.Inv m := by
  have key : ∀ k e, c'.event k = some e → k ≠ h ∧ ∃ f, c.event k = some f ∧ f.ts = e.ts ∧ f.tag = e.tag := by
    intro k e he
    have hk : k ≠ h := fun hk => by rw [hk, hr.gone] at he; cases he
    exact ⟨hk, Sched.event_of_due_eq (hr.old k hk) he⟩
  have back : ∀ k e, k ≠ h → c.event k = some e → ∃ f, c'.event k = some f ∧ f.ts = e.ts ∧ f.tag = e.tag := by
    intro k e hk he
    exact Sched.event_of_due_eq (hr.old k hk).symm he
  refine
    { linked := hr.linked, ordered := hr.ordered, sentinel := ?_, oneSentinel := fun k e he hne => ?_
      notPast := fun k e he => ?_, issued := fun k e he => ?_
      someIssued := by rw [hr.nextHandle]; exact hc.someIssued
      target := fun ha => by
        rw [hr.clock.now, hr.clock.target]
        exact hc.target (by rw [← hr.clock.inAdvance]; exact ha)
      firing := fun k hk => ?_ }
  · obtain ⟨e, he, a, b⟩ := hc.sentinel
    obtain ⟨f, hf, k1, k2⟩ := back 0 e h0.symm he
    exact ⟨f, hf, k1.trans a, k2.trans b⟩
  · obtain ⟨-, f, hf, k1, k2⟩ := key k e he
    rw [← k1, ← k2]
    exact hc.oneSentinel k f hf hne
  · obtain ⟨-, f, hf, k1, -⟩ := key k e he
    rw [hr.clock.now, ← k1]
    exact hc.notPast k f hf
  · obtain ⟨-, f, hf, -, -⟩ := key k e he
    rw [hr.nextHandle]
    exact hc.issued k f hf
  · rw [hr.clock.firing] at hk
    obtain ⟨a, b, e, he, k1⟩ := hc.firing k hk
    obtain ⟨f, hf', k2, -⟩ := back k e (fun x => hf (x ▸ hk)) he
    exact ⟨by rw [hr.clock.inAdvance]; exact a, b, f, hf', by rw [k2, hr.clock.now]; exact k1⟩

/-- What Insert answers (R153): one of its two fatal errors, or the event pushed. -/
theorem State.insert_cases (s : State) (delay : Timestamp) (tag : Tag) :
    (s.params.schedCapacity ≤ s.sched.n ∧ s.insert delay tag = s.raise (.capacityExceeded tag)) ∨
    (s.sched.n < s.params.schedCapacity ∧ s.params.tsMax.toNat ≤ s.sched.now.toNat + delay.toNat ∧
      s.insert delay tag = s.raise (.timestampOverflow delay)) ∨
    (s.sched.n < s.params.schedCapacity ∧ s.sched.now.toNat + delay.toNat < s.params.tsMax.toNat ∧
      s.insert delay tag = s.setSched (s.sched.push (s.sched.now + delay) tag)) := by
  unfold State.insert
  split_ifs with h1 h2
  · exact .inl ⟨h1, rfl⟩
  · exact .inr (.inl ⟨by omega, h2, rfl⟩)
  · exact .inr (.inr ⟨by omega, by omega, rfl⟩)

/-- A sum below the sentinel's timestamp lies between `now` and it. -/
theorem sum_between {now delay last : Timestamp} (h : now.toNat + delay.toNat < last.toNat) :
    now ≤ now + delay ∧ now + delay < last := by
  have := last.isLt
  have hs : (now + delay).toNat = now.toNat + delay.toNat := by
    rw [BitVec.toNat_add, Nat.mod_eq_of_lt (by omega)]
  rw [BitVec.le_def, BitVec.lt_def, hs]
  omega

theorem Sched.Inv.push_spec {c : Sched} (hc : c.Inv m) (ts : Timestamp) (tag : Tag) : c.Pushed ts tag (c.push ts tag) :=
  Sched.push_spec hc.linked hc.ordered hc.fresh ts tag

theorem Sched.Pushed.n {c c' : Sched} {ts : Timestamp} {tag : Tag} (hp : c.Pushed ts tag c') : c'.n = c.n + 1 := by
  have := hp.perm.length_eq
  simpa [Sched.n] using this

theorem Sched.Removed.n {c c' : Sched} {h : Nat} (hr : c.Removed h c') : c'.n + 1 = c.n := by
  have := hr.perm.length_eq
  simpa [Sched.n] using this

/-! ### What every command keeps -/

/-- What every command keeps, in a callback or outside one, given the scheduler's invariants. -/
structure State.Commanded (s t : State) : Prop where
  inv : t.SchedInv
  now : t.sched.now = s.sched.now
  firing : t.sched.firing = s.sched.firing
  advancing : s.sched.inAdvance = true → t.sched.inAdvance = true ∧ t.sched.target = s.sched.target
  handles : s.sched.nextHandle ≤ t.sched.nextHandle
  stale : ∀ h, h < s.sched.nextHandle → s.sched.event h = none → t.sched.event h = none
  ppuEvents : ∀ h ts tag, tag.isPpu = true → (t.sched.due h = some (ts, tag) ↔ s.sched.due h = some (ts, tag))
  capacity : s.sched.n ≤ s.params.schedCapacity → t.sched.n ≤ s.params.schedCapacity
  params : t.params = s.params
  host : t.host = s.host
  vcount : t.ppu.vcount = s.ppu.vcount
  phase : t.ppu.phase = s.ppu.phase
  ls : t.ppu.ls = s.ppu.ls
  ppuEv : t.ppu.ppuEv = s.ppu.ppuEv
  status : t.regs.dispstat.extractLsb' 0 3 = s.regs.dispstat.extractLsb' 0 3
  trace : ∃ os, t.trace = s.trace ++ os
  regs : s.regs.Inv → t.regs.Inv
  mem : s.MemInv → t.MemInv
  produced : s.params.cyclesPerDot * s.line.nextX ≤ s.sched.now.toNat - s.ppu.ls.toNat →
    s.params.cyclesPerDot * t.line.nextX ≤ s.sched.now.toNat - s.ppu.ls.toNat

theorem State.Kept.commanded {s t : State} (hi : s.SchedInv) (hk : s.Kept t) : s.Commanded t where
  inv := by rw [State.SchedInv, hk.sched, hk.params]; exact hi
  now := by rw [hk.sched]
  firing := by rw [hk.sched]
  advancing := by rw [hk.sched]; exact fun h => ⟨h, rfl⟩
  handles := by rw [hk.sched]
  stale := by rw [hk.sched]; exact fun _ _ h => h
  ppuEvents := by rw [hk.sched]; exact fun _ _ _ _ => Iff.rfl
  capacity := by rw [hk.sched]; exact id
  params := hk.params
  host := hk.host
  vcount := hk.vcount
  phase := hk.phase
  ls := hk.ls
  ppuEv := hk.ppuEv
  status := hk.status
  trace := hk.trace
  regs := hk.regs
  mem := hk.mem
  produced := hk.produced

theorem State.Commanded.trans {a b c : State} (h : a.Commanded b) (k : b.Commanded c) : a.Commanded c where
  inv := k.inv
  now := k.now.trans h.now
  firing := k.firing.trans h.firing
  advancing := fun ha => by
    obtain ⟨h1, h2⟩ := h.advancing ha
    obtain ⟨k1, k2⟩ := k.advancing h1
    exact ⟨k1, k2.trans h2⟩
  handles := h.handles.trans k.handles
  stale := fun x hx hn => k.stale x (hx.trans_le h.handles) (h.stale x hx hn)
  ppuEvents := fun x ts tag ht => (k.ppuEvents x ts tag ht).trans (h.ppuEvents x ts tag ht)
  capacity := fun hc => by
    have := k.capacity (by rw [h.params]; exact h.capacity hc)
    rwa [h.params] at this
  params := k.params.trans h.params
  host := k.host.trans h.host
  vcount := k.vcount.trans h.vcount
  phase := k.phase.trans h.phase
  ls := k.ls.trans h.ls
  ppuEv := k.ppuEv.trans h.ppuEv
  status := k.status.trans h.status
  trace := by
    obtain ⟨x, hx⟩ := h.trace
    obtain ⟨y, hy⟩ := k.trace
    exact ⟨x ++ y, by rw [hy, hx, List.append_assoc]⟩
  regs := k.regs ∘ h.regs
  mem := k.mem ∘ h.mem
  produced := fun ha => by
    have := k.produced (by rw [h.now, h.ls, h.params]; exact h.produced ha)
    rwa [h.now, h.ls, h.params] at this

/-- A change of the scheduler alone. -/
theorem State.commanded_setSched {s : State} {c : Sched} (inv : c.Inv s.params.tsMax) (now : c.now = s.sched.now)
    (firing : c.firing = s.sched.firing)
    (adv : s.sched.inAdvance = true → c.inAdvance = true ∧ c.target = s.sched.target)
    (handles : s.sched.nextHandle ≤ c.nextHandle)
    (stale : ∀ h, h < s.sched.nextHandle → s.sched.event h = none → c.event h = none)
    (ppu : ∀ h ts tag, tag.isPpu = true → (c.due h = some (ts, tag) ↔ s.sched.due h = some (ts, tag)))
    (cap : s.sched.n ≤ s.params.schedCapacity → c.n ≤ s.params.schedCapacity) : s.Commanded (s.setSched c) where
  inv := inv
  now := now
  firing := firing
  advancing := adv
  handles := handles
  stale := stale
  ppuEvents := ppu
  capacity := cap
  params := rfl
  host := rfl
  vcount := rfl
  phase := rfl
  ls := rfl
  ppuEv := rfl
  status := rfl
  trace := ⟨[], by simp⟩
  regs := id
  mem := fun k => ⟨k.pram, k.oam, k.vram, k.fb, k.objbuf, k.objwin, k.win0, k.win1, k.nextX⟩
  produced := id

theorem State.commanded_raise {s : State} (hi : s.SchedInv) (r : FatalReason) : s.Commanded (s.raise r) where
  inv := hi
  now := rfl
  firing := rfl
  advancing := fun h => ⟨h, rfl⟩
  handles := Nat.le_refl _
  stale := fun _ _ h => h
  ppuEvents := fun _ _ _ _ => Iff.rfl
  capacity := id
  params := rfl
  host := rfl
  vcount := rfl
  phase := rfl
  ls := rfl
  ppuEv := rfl
  status := rfl
  trace := ⟨_, rfl⟩
  regs := id
  mem := fun k => ⟨k.pram, k.oam, k.vram, k.fb, k.objbuf, k.objwin, k.win0, k.win1, k.nextX⟩
  produced := id

theorem State.commanded_push {s : State} (hi : s.SchedInv) {delay : Timestamp} {k : Word}
    (hn : s.sched.n < s.params.schedCapacity) (h : s.sched.now.toNat + delay.toNat < s.params.tsMax.toNat) :
    s.Commanded (s.setSched (s.sched.push (s.sched.now + delay) (.external k))) := by
  have hp := hi.push_spec (s.sched.now + delay) (.external k)
  obtain ⟨h1, h2⟩ := sum_between h
  refine State.commanded_setSched (hi.pushed hp h1 h2 (by simp)) hp.clock.now hp.clock.firing
    (fun ha => ⟨hp.clock.inAdvance.trans ha, hp.clock.target⟩) (by rw [hp.nextHandle]; omega) (fun x hx hn => ?_)
    (fun x ts tag ht => ?_) (fun _ => by rw [hp.n]; omega)
  · rw [← Sched.due_none, hp.old x (by omega), Sched.due_none, hn]
  · by_cases hx : x = s.sched.nextHandle
    · subst hx
      rw [hp.new, Sched.due_none.2 hi.fresh]
      constructor
      · intro hh
        cases hh
        cases ht
      · intro hh
        cases hh
    · rw [hp.old x hx]

theorem State.commanded_cancel {s : State} (hi : s.SchedInv) {h : Nat} {e : Event} {k : Word}
    (he : s.sched.event h = some e) (ht : e.tag = .external k) (hf : s.sched.firing ≠ some h) :
    s.sched.Removed h (s.sched.removeAt e.slot) ∧ s.Commanded (s.setSched (s.sched.removeAt e.slot)) := by
  have hr := Sched.removeAt_spec hi.linked hi.ordered (hi.linked.slot h e he)
  have h0 : h ≠ 0 := by
    rintro rfl
    obtain ⟨e', he', -, ht'⟩ := hi.sentinel
    rw [he] at he'
    cases he'
    rw [ht] at ht'
    cases ht'
  refine ⟨hr, State.commanded_setSched (hi.removed hr h0 hf) hr.clock.now hr.clock.firing
    (fun ha => ⟨hr.clock.inAdvance.trans ha, hr.clock.target⟩) (by rw [hr.nextHandle]) (fun x hx hn => ?_)
    (fun x ts tag htag => ?_) (fun hc => by have := hr.n; omega)⟩
  · by_cases hx' : x = h
    · rw [hx']
      exact hr.gone
    · rw [← Sched.due_none, hr.old x hx', Sched.due_none, hn]
  · by_cases hx' : x = h
    · subst hx'
      rw [Sched.due_none.2 hr.gone, Sched.due_of_event he, ht]
      constructor
      · intro hh
        cases hh
      · intro hh
        cases hh
        cases htag
    · rw [hr.old x hx']

/-- Every command that is no callback answers a next state and keeps what `Commanded` lists. -/
theorem exec_commanded {i : Instr} (he : i.isEvent = false) {s : State} (hi : s.SchedInv) :
    ∃ t, exec i s = .next t ∧ s.Commanded t := by
  by_cases hb : i.isBus = true
  · obtain ⟨t, ht, hk⟩ := exec_bus_kept hb s
    exact ⟨t, ht, hk.commanded hi⟩
  · obtain ⟨root, rest, hr⟩ : ∃ r l, s.sched.heap = r :: l := List.exists_cons_of_ne_nil hi.heap_ne
    have hem : ∀ {u : State}, s.Commanded u → ∀ o, s.Commanded (u.emit o) :=
      fun {u} h o => h.trans ((u.kept_emit o).commanded h.inv)
    cases i <;> simp only [Instr.isBus, Instr.isEvent, Bool.true_eq_false, not_true_eq_false] at hb he <;> simp only [exec]
    case schedule d k =>
      unfold execSchedule
      rcases s.insert_cases d (.external k) with ⟨-, h⟩ | ⟨-, -, h⟩ | ⟨h1, h2, h⟩
      · rw [h, andThen_of_some (by simp)]
        exact ⟨_, rfl, State.commanded_raise hi _⟩
      · rw [h, andThen_of_some (by simp)]
        exact ⟨_, rfl, State.commanded_raise hi _⟩
      · rw [h, andThen_next]
        have hc := State.commanded_push hi (k := k) h1 h2
        split_ifs
        · exact ⟨_, rfl, hc⟩
        · exact ⟨_, rfl, hem hc _⟩
    case cancel a =>
      unfold execCancel
      cases hev : s.sched.event a.toNat with
      | none => exact ⟨s, rfl, (State.Kept.rfl' s).commanded hi⟩
      | some e =>
        obtain ⟨ts, tag, slot⟩ := e
        cases tag with
        | external k =>
          simp only
          split_ifs with hf
          · exact ⟨_, rfl, State.commanded_raise hi _⟩
          · exact ⟨_, rfl, (State.commanded_cancel hi hev rfl hf).2⟩
        | drawEnd => exact ⟨_, rfl, (s.kept_refuse _).commanded hi⟩
        | hblankEnd => exact ⟨_, rfl, (s.kept_refuse _).commanded hi⟩
        | endOfTime => exact ⟨_, rfl, (s.kept_refuse _).commanded hi⟩
    case advance n =>
      unfold execAdvance
      split_ifs with h1 h2
      · exact ⟨_, rfl, State.commanded_raise hi _⟩
      · exact ⟨_, rfl, State.commanded_raise hi _⟩
      · have hm := s.params.tsMax.isLt
        refine ⟨_, rfl, State.commanded_setSched ?_ rfl rfl (fun ha => absurd ha h1) (Nat.le_refl _) (fun _ _ h => h)
          (fun _ _ _ _ => Iff.rfl) id⟩
        refine
          { linked := ⟨hi.linked.events_wf, hi.linked.live, hi.linked.slot⟩, ordered := hi.ordered, sentinel := hi.sentinel
            oneSentinel := hi.oneSentinel, notPast := hi.notPast, issued := hi.issued, someIssued := hi.someIssued
            target := fun _ => ?_, firing := fun h hf => ?_ }
        · show s.sched.now ≤ s.sched.now + n
          rw [BitVec.le_def, BitVec.toNat_add, Nat.mod_eq_of_lt (by omega)]
          omega
        · exact absurd (hi.firing h hf).1 h1
    case now => exact ⟨_, rfl, (s.kept_emit _).commanded hi⟩
    case next =>
      refine ⟨_, ?_, (s.kept_emit (.timestamp (s.sched.ts root))).commanded hi⟩
      simp only [execNext, hr]
    case remain =>
      refine ⟨_, ?_, (s.kept_emit (.timestamp (s.sched.ts root - s.sched.now))).commanded hi⟩
      simp only [execRemain, hr]

/-- The commands of an external callback run, to their end or to a fatal error, and keep what `Commanded` lists (R163, R245). -/
theorem runAll_commanded (cs : List Command) {s : State} (hi : s.SchedInv) :
    ∃ t, runAll runCommand cs s = .next t ∧ s.Commanded t := by
  induction cs generalizing s with
  | nil => exact ⟨s, rfl, (State.Kept.rfl' s).commanded hi⟩
  | cons c cs ih =>
    have hone : ∃ t, issueWith runCommand c s = .next t ∧ s.Commanded t := by
      unfold issueWith
      split
      · exact ⟨_, rfl, (s.kept_refuse _).commanded hi⟩
      · rename_i i _
        split_ifs with hev
        · exact ⟨_, rfl, (s.kept_refuse _).commanded hi⟩
        · rw [runCommand_eq_exec (by simpa using hev)]
          exact exec_commanded (by simpa using hev) hi
    obtain ⟨t, ht, hk⟩ := hone
    show ∃ u, andThen (issueWith runCommand c s) _ = _ ∧ _
    rw [ht, andThen_next]
    split_ifs
    · exact ⟨t, rfl, hk⟩
    · obtain ⟨u, hu, hk'⟩ := ih hk.inv
      exact ⟨u, hu, hk.trans hk'⟩

end Sys2Proof.Machine
end

