-- ==== Sys2Proof/Laws/Events.lean ====
section
/-! SUPPORT. The two scanline callbacks up to their Insert, and that Insert (spec 42_scanline_timing.md R240, R241). -/

namespace Sys2Proof.Machine

/-! ### The status bits -/

theorem status_setHblank (d : Half) : (setBit d 1 true).extractLsb' 0 3 = d.extractLsb' 0 3 ||| 2#3 := by
  ext i hi
  interval_cases i <;> simp [setBit]

theorem status_clearHblank (d : Half) : (setBit d 1 false).extractLsb' 0 3 = d.extractLsb' 0 3 &&& 5#3 := by
  ext i hi
  interval_cases i <;> simp [setBit]

theorem bit_of_status {d : Half} {i : Nat} (hi : i < 3) : bit d i = (d.extractLsb' 0 3).getLsbD i := by
  simp [bit, hi]

theorem bit_setBit {d : Half} {i j : Nat} (b : Bool) (hi : i < 16) (hj : j < 16) :
    bit (setBit d i b) j = if j = i then b else bit d j := by
  unfold bit setBit
  by_cases h : j = i
  · subst h
    cases b <;> simp [hj]
  · cases b <;> simp [h, hj]

/-- What a callback's sequence does next matters only without a fatal error. -/
theorem andThen_congr {r : Result} {f g : State → Result} (h : ∀ t : State, r = .next t → t.fatal = none → f t = g t) : andThen r f = andThen r g := by
  cases r with
  | next t =>
    simp only [andThen_next]
    split_ifs with hf
    · rfl
    · exact h t rfl (by simpa using hf)
  | fault _ => rfl
  | refused _ => rfl

/-! ### Insert as the PPU calls it -/

/-- The PPU's Insert (R240, R241, R332): a fatal error, or its next event pushed and named by `ppu_ev`. -/
theorem State.insertPpu_cases {s : State} (hf : s.fatal = none) (delay : Timestamp) (tag : Tag) :
    (∃ r, (s.params.schedCapacity ≤ s.sched.n ∨ s.params.tsMax.toNat ≤ s.sched.now.toNat + delay.toNat) ∧
      s.insertPpu delay tag = .next (s.raise r)) ∨
    (s.sched.n < s.params.schedCapacity ∧ s.sched.now.toNat + delay.toNat < s.params.tsMax.toNat ∧
      s.insertPpu delay tag = .next ((s.setSched (s.sched.push (s.sched.now + delay) tag)).setPpu
        { s.ppu with ppuEv := s.sched.nextHandle })) := by
  unfold State.insertPpu
  rcases s.insert_cases delay tag with ⟨h1, h⟩ | ⟨-, h1, h⟩ | ⟨h1, h2, h⟩
  · exact .inl ⟨_, .inl h1, by rw [h, andThen_of_some (by simp)]⟩
  · exact .inl ⟨_, .inr h1, by rw [h, andThen_of_some (by simp)]⟩
  · exact .inr ⟨h1, h2, by rw [h, andThen_of_none (by simpa using hf)]; rfl⟩

/-! ### DRAW_END -/

theorem State.visible_iff (s : State) : s.visible = true ↔ s.ppu.vcount < s.params.vVisible := by
  simp [State.visible]

/-- DrawEnd up to its first call of the host (R240). -/
theorem State.drawEnded_eq (s : State) :
    s.drawEnded =
      { s with
        line := s.catchUp.line
        fb := s.catchUp.fb
        regs := s.regs.setHblank true
        ppu :=
          { s.ppu with
            phase := .hblank
            ix := if s.ppu.vcount < s.params.vVisible then s.ppu.ix.zipWith (fun a v => a + sextCoef v) s.regs.pb else s.ppu.ix
            iy := if s.ppu.vcount < s.params.vVisible then s.ppu.iy.zipWith (fun a v => a + sextCoef v) s.regs.pd else s.ppu.iy } } := by
  unfold State.drawEnded
  by_cases hv : s.ppu.vcount < s.params.vVisible
  · rw [if_pos ((s.visible_iff).2 hv)]
    simp only [State.setPpu_regs, State.catchUp_regs, if_pos hv]
    rw [State.catchUp_frame]
    rfl
  · rw [if_neg (fun h => hv ((s.visible_iff).1 h))]
    have hc : s.catchUp = s := State.catchUp_of_disengaged (.inl (Nat.not_lt.1 hv))
    simp only [hc, if_neg hv]
    rfl

/-- What the handlers leave, up to their Insert, of what the invariants speak of. -/
structure State.Handled (s t : State) : Prop where
  sched : t.sched = s.sched
  fatal : t.fatal = s.fatal
  params : t.params = s.params
  trace : ∃ os, t.trace = s.trace ++ os
  vcount : s.ppu.vcount < s.params.vTotal → t.ppu.vcount < t.params.vTotal
  regs : s.regs.Inv → t.regs.Inv
  mem : s.MemInv → t.MemInv

theorem State.Called.handled {s t : State} (h : s.Called t) : s.Handled t :=
  ⟨h.sched, h.fatal, h.params, h.trace, by rw [h.vcount, h.params]; exact id, h.regs, h.mem⟩

theorem State.Kept.handled {s t : State} (h : s.Kept t) : s.Handled t := h.toCalled.handled

theorem State.Handled.trans {a b c : State} (h : a.Handled b) (k : b.Handled c) : a.Handled c where
  sched := k.sched.trans h.sched
  fatal := k.fatal.trans h.fatal
  params := k.params.trans h.params
  trace := by
    obtain ⟨x, hx⟩ := h.trace
    obtain ⟨y, hy⟩ := k.trace
    exact ⟨x ++ y, by rw [hy, hx, List.append_assoc]⟩
  vcount := k.vcount ∘ h.vcount
  regs := k.regs ∘ h.regs
  mem := k.mem ∘ h.mem

theorem State.handled_setPpu (s : State) {p : Ppu} (h : s.ppu.vcount < s.params.vTotal → p.vcount < s.params.vTotal) :
    s.Handled (s.setPpu p) :=
  ⟨rfl, rfl, rfl, ⟨[], by simp⟩, h, id, fun k => ⟨k.pram, k.oam, k.vram, k.fb, k.objbuf, k.objwin, k.win0, k.win1, k.nextX⟩⟩

theorem State.handled_setHost (s : State) (h : HostInput) : s.Handled (s.setHost h) :=
  ⟨rfl, rfl, rfl, ⟨[], by simp⟩, id, id, fun k => ⟨k.pram, k.oam, k.vram, k.fb, k.objbuf, k.objwin, k.win0, k.win1, k.nextX⟩⟩

theorem State.handled_setRegs (s : State) {r : Regs} (h : s.regs.Inv → r.Inv) : s.Handled (s.setRegs r) :=
  ⟨rfl, rfl, rfl, ⟨[], by simp⟩, id, h, fun k => ⟨k.pram, k.oam, k.vram, k.fb, k.objbuf, k.objwin, k.win0, k.win1, k.nextX⟩⟩

theorem State.handled_setLine (s : State) {l : Line} (h : s.MemInv → (s.setLine l).MemInv) : s.Handled (s.setLine l) :=
  ⟨rfl, rfl, rfl, ⟨[], by simp⟩, id, id, h⟩

theorem Sparse.bounded_nil {α : Type} (d : α) (n : Nat) : Sparse.bounded d n [] :=
  ⟨⟨List.Pairwise.nil, by simp⟩, by simp⟩

theorem State.handled_drawEnded (s : State) : s.Handled s.drawEnded := by
  have h1 : s.Handled (if s.visible then s.catchUp.setPpu (s.catchUp.ppu.lineStep s.catchUp.regs) else s) := by
    split_ifs
    · exact s.kept_catchUp.handled.trans (State.handled_setPpu _ (by exact id))
    · exact (State.Kept.rfl' s).handled
  refine h1.trans ((State.handled_setPpu _ (by exact id)).trans (State.handled_setRegs _ ?_))
  exact fun hr => Regs.inv_setStatus hr (by omega) _

/-- DRAW_END up to its Insert, whatever the host's responses (R6, R240, R247): an ADVANCE in one is `NestedAdvance` (R336). -/
theorem drawEnd_upTo {s : State} (hf : s.fatal = none) (hh : s.sched.heap ≠ []) :
    ∃ t, (exec .drawEnd s = t.insertPpu (BitVec.ofNat 64 s.params.cyclesHBlank) .hblankEnd ∨
        ¬ s.host.held ∧ exec .drawEnd s = .next (t.raise .nestedAdvance)) ∧
      s.drawEnded.Called t ∧ s.Handled t ∧ t.ppu.phase = .hblank ∧ t.ppu.vcount = s.ppu.vcount ∧ t.ppu.ls = s.ppu.ls ∧
      t.ppu.ppuEv = s.ppu.ppuEv ∧ t.line = s.catchUp.line ∧ t.fb = s.catchUp.fb ∧
      t.regs.dispstat.extractLsb' 0 3 = s.regs.dispstat.extractLsb' 0 3 ||| 2#3 := by
  have hd := s.drawEnded_eq
  have hH := s.handled_drawEnded
  have e1 : s.drawEnded.ppu.phase = .hblank := by rw [hd]
  have e6 : s.drawEnded.regs.dispstat.extractLsb' 0 3 = s.regs.dispstat.extractLsb' 0 3 ||| 2#3 := by
    rw [hd]
    exact status_setHblank _
  have e7 : s.drawEnded.host = s.host := by rw [hd]
  have key : ∃ t, s.drawEnded.Called t ∧ (exec .drawEnd s = t.insertPpu (BitVec.ofNat 64 s.params.cyclesHBlank) .hblankEnd ∨
      ¬ s.host.held ∧ exec .drawEnd s = .next (t.raise .nestedAdvance)) := by
    have hx : exec .drawEnd s = execDrawEnd s := rfl
    rw [hx, ← e7]
    unfold execDrawEnd
    have hf1 : s.drawEnded.fatal = none := hH.fatal.trans hf
    have hh1 : s.drawEnded.sched.heap ≠ [] := by rw [hH.sched]; exact hh
    obtain ⟨t, ht, h | ⟨hn, h⟩⟩ := callIf_called s.drawEnded.regs.hblankIrqEn (.irqRequest .hblank s.drawEnded.sched.now) hf1 hh1
    · rw [h, andThen_of_none (ht.fatal.trans hf1)]
      obtain ⟨u, hu, k | ⟨kn, k⟩⟩ := callIf_called t.visible (.dmaNotify .hblank t.sched.now) (ht.fatal.trans hf1) (by rw [ht.sched]; exact hh1)
      · rw [k, andThen_of_none (hu.fatal.trans (ht.fatal.trans hf1))]
        exact ⟨u, ht.trans hu, .inl rfl⟩
      · rw [k, andThen_of_some (by simp)]
        exact ⟨u, ht.trans hu, .inr ⟨kn ∘ ht.held, rfl⟩⟩
    · rw [h, andThen_of_some (by simp)]
      exact ⟨t, ht, .inr ⟨hn, rfl⟩⟩
  obtain ⟨t, ht, hx⟩ := key
  have hc := ht.caught (State.catchUp_of_disengaged (.inr (by rw [e1]; simp)))
  exact ⟨t, hx, ht, hH.trans ht.handled, ht.phase.trans e1, ht.vcount.trans (by rw [hd]), ht.ls.trans (by rw [hd]), ht.ppuEv.trans (by rw [hd]),
    hc.1.trans (by rw [hd]), hc.2.trans (by rw [hd]), ht.status.trans e6⟩

/-! ### HBLANK_END -/

/-- No pixel is due at the line start. -/
theorem State.catchUp_of_lineStart {s : State} (h : s.ppu.ls = s.sched.now) : s.catchUp = s := by
  unfold State.catchUp
  split_ifs
  · rfl
  · simp [State.pixelsDue, h, State.producePixels]

/-- What the handler of HBLANK_END in state `s` keeps up from its first actions to its Insert (R241). -/
structure State.AtStart (s t : State) : Prop where
  handled : s.Handled t
  held : s.host.held → t.host.held
  vcount : t.ppu.vcount = (s.ppu.vcount + 1) % s.params.vTotal
  phase : t.ppu.phase = .draw
  ls : t.ppu.ls = s.sched.now
  ppuEv : t.ppu.ppuEv = s.ppu.ppuEv
  nextX : t.line.nextX = 0
  fb : t.fb = s.fb
  hblank : bit t.regs.dispstat 1 = false

theorem State.AtStart.called {s t u : State} (h : s.AtStart t) (k : t.Called u) :
    s.AtStart u ∧ bit u.regs.dispstat 0 = bit t.regs.dispstat 0 := by
  obtain ⟨c1, c2⟩ := k.caught (State.catchUp_of_lineStart (h.ls.trans (by rw [h.handled.sched])))
  have hb : ∀ i, i < 3 → bit u.regs.dispstat i = bit t.regs.dispstat i := fun i hi => by
    rw [bit_of_status hi, bit_of_status hi, k.status]
  exact ⟨⟨h.handled.trans k.handled, k.held ∘ h.held, k.vcount.trans h.vcount, k.phase.trans h.phase, k.ls.trans h.ls,
    k.ppuEv.trans h.ppuEv, (by rw [c1]; exact h.nextX), c2.trans h.fb, (hb 1 (by omega)).trans h.hblank⟩, hb 0 (by omega)⟩

/-- A change of a status bit other than HBLANK. -/
theorem State.AtStart.setStatus {s t : State} (h : s.AtStart t) {i : Nat} (hi : i = 0 ∨ i = 2) (b : Bool) :
    s.AtStart (t.setRegs { t.regs with dispstat := setBit t.regs.dispstat i b }) :=
  { h with
    handled := h.handled.trans (State.handled_setRegs _ fun hr => Regs.inv_setStatus hr (by omega) _)
    hblank := by
      show bit (setBit t.regs.dispstat i b) 1 = false
      rw [bit_setBit _ (by omega) (by omega), if_neg (by omega)]
      exact h.hblank }

theorem State.atStart_nextLine (s : State) : s.AtStart s.nextLine ∧ bit s.nextLine.regs.dispstat 0 = bit s.regs.dispstat 0 := by
  have hb : ∀ i, i < 3 → bit s.nextLine.regs.dispstat i = if i = 1 then false else bit s.regs.dispstat i := fun i hi => by
    show bit (setBit s.regs.dispstat 1 false) i = _
    rw [bit_setBit _ (by omega) (by omega)]
  refine ⟨⟨?_, id, rfl, rfl, rfl, rfl, rfl, rfl, hb 1 (by omega)⟩, hb 0 (by omega)⟩
  refine (State.handled_setPpu s fun h => Nat.mod_lt _ (Nat.zero_lt_of_lt h)).trans
    ((State.handled_setRegs _ ?_).trans (State.handled_setLine _ fun k => ?_))
  · exact fun hr => Regs.inv_setStatus hr (by omega) _
  · exact ⟨k.pram, k.oam, k.vram, k.fb, k.objbuf, k.objwin, k.win0, k.win1, Nat.zero_le _⟩

theorem State.AtStart.vblankBegun {s t : State} (h : s.AtStart t) :
    s.AtStart t.vblankBegun ∧ bit t.vblankBegun.regs.dispstat 0 = true := by
  have k := h.setStatus (.inl rfl) true
  refine ⟨{ k with handled := k.handled.trans (State.handled_setPpu _ (by exact id)) }, ?_⟩
  show bit (setBit t.regs.dispstat 0 true) 0 = true
  rw [bit_setBit _ (by omega) (by omega), if_pos rfl]

theorem State.AtStart.vblankEnded {s t : State} (h : s.AtStart t) :
    s.AtStart t.vblankEnded ∧
      bit t.vblankEnded.regs.dispstat 0 = (if t.ppu.vcount + 1 = t.params.vTotal then false else bit t.regs.dispstat 0) := by
  unfold State.vblankEnded
  split_ifs
  · refine ⟨h.setStatus (.inl rfl) false, ?_⟩
    show bit (setBit t.regs.dispstat 0 false) 0 = false
    rw [bit_setBit _ (by omega) (by omega), if_pos rfl]
  · exact ⟨h, rfl⟩

theorem State.AtStart.vcountMatched {s t : State} (h : s.AtStart t) :
    s.AtStart t.vcountMatched ∧ bit t.vcountMatched.regs.dispstat 0 = bit t.regs.dispstat 0 := by
  refine ⟨h.setStatus (.inr rfl) _, ?_⟩
  show bit (setBit t.regs.dispstat 2 _) 0 = _
  rw [bit_setBit _ (by omega) (by omega), if_neg (by omega)]

theorem State.handled_vblankEnded (s : State) : s.Handled s.vblankEnded := by
  unfold State.vblankEnded
  split_ifs
  · exact State.handled_setRegs s fun hr => Regs.inv_setStatus hr (by omega) _
  · exact (State.Kept.rfl' s).handled

theorem State.handled_vcountMatched (s : State) : s.Handled s.vcountMatched :=
  State.handled_setRegs s fun hr => Regs.inv_setStatus hr (by omega) _

theorem State.handled_lineStart (s : State) (y : Nat) : s.Handled (s.lineStart y) := by
  refine (State.handled_setPpu s fun h => ?_).trans (State.handled_setLine _ fun k => ?_)
  · unfold Ppu.mosaicLatched
    split_ifs <;> exact h
  · exact ⟨k.pram, k.oam, k.vram, k.fb, Sparse.bounded_nil _ _, Sparse.bounded_nil _ _, Sparse.bounded_nil _ _,
      Sparse.bounded_nil _ _, k.nextX⟩

theorem State.handled_lineStarted (s : State) : s.Handled s.lineStarted := by
  unfold State.lineStarted
  split_ifs
  · exact s.handled_lineStart _
  · exact (State.Kept.rfl' s).handled

theorem State.AtStart.lineStarted {s t : State} (h : s.AtStart t) :
    s.AtStart t.lineStarted ∧ bit t.lineStarted.regs.dispstat 0 = bit t.regs.dispstat 0 := by
  have hm : ∀ (p : Ppu) (r : Regs) (y : Nat), (p.mosaicLatched r y).vcount = p.vcount ∧ (p.mosaicLatched r y).phase = p.phase ∧
      (p.mosaicLatched r y).ls = p.ls ∧ (p.mosaicLatched r y).ppuEv = p.ppuEv := by
    intro p r y
    unfold Ppu.mosaicLatched
    split_ifs <;> exact ⟨rfl, rfl, rfl, rfl⟩
  have hH := h.handled.trans t.handled_lineStarted
  revert hH
  unfold State.lineStarted
  split_ifs
  · intro hH
    obtain ⟨m1, m2, m3, m4⟩ := hm t.ppu t.regs t.ppu.vcount
    exact ⟨{ h with
      handled := hH, vcount := m1.trans h.vcount, phase := m2.trans h.phase, ls := m3.trans h.ls, ppuEv := m4.trans h.ppuEv }, rfl⟩
  · exact fun _ => ⟨h, rfl⟩

/-- One call of HBLANK_END and what follows it: the rest of the sequence, or `NestedAdvance`. -/
theorem State.AtStart.andThen_callIf {s t : State} (hf : s.fatal = none) (hh : s.sched.heap ≠ []) (h : s.AtStart t) (b : Bool) (o : Output)
    (f : State → Result) :
    ∃ u, s.AtStart u ∧ bit u.regs.dispstat 0 = bit t.regs.dispstat 0 ∧
      (andThen (t.callIf b o) f = f u ∨ ¬ s.host.held ∧ andThen (t.callIf b o) f = .next (u.raise .nestedAdvance)) := by
  have hft := h.handled.fatal.trans hf
  obtain ⟨u, hu, k | ⟨kn, k⟩⟩ := callIf_called b o hft (by rw [h.handled.sched]; exact hh)
  · exact ⟨u, (h.called hu).1, (h.called hu).2, .inl (by rw [k, andThen_of_none (hu.fatal.trans hft)])⟩
  · exact ⟨u, (h.called hu).1, (h.called hu).2, .inr ⟨kn ∘ h.held, by rw [k, andThen_of_some (by simp)]⟩⟩

theorem andThen_assoc (r : Result) (f g : State → Result) : andThen (andThen r f) g = andThen r fun s => andThen (f s) g := by
  cases r with
  | next t =>
    by_cases hf : t.fatal.isSome = true <;> simp [andThen, hf]
  | fault _ => rfl
  | refused _ => rfl

/-- HBLANK_END up to its Insert, whatever the host's responses (R6, R241, R243, R247): an ADVANCE in one is `NestedAdvance` (R336). -/
theorem hblankEnd_upTo {s : State} (hf : s.fatal = none) (hh : s.sched.heap ≠ []) :
    ∃ t, s.AtStart t ∧
      ((exec .hblankEnd s = t.insertPpu (BitVec.ofNat 64 s.params.cyclesDraw) .drawEnd ∧
          bit t.regs.dispstat 0 =
            (if (s.ppu.vcount + 1) % s.params.vTotal + 1 = s.params.vTotal then false
              else if (s.ppu.vcount + 1) % s.params.vTotal = s.params.vVisible then true else bit s.regs.dispstat 0)) ∨
        ¬ s.host.held ∧ exec .hblankEnd s = .next (t.raise .nestedAdvance)) := by
  have rest : ∀ t, s.AtStart t →
      bit t.regs.dispstat 0 = (if (s.ppu.vcount + 1) % s.params.vTotal = s.params.vVisible then true else bit s.regs.dispstat 0) →
      ∀ r, r = andThen (t.vblankEnded.callIf (decide (t.ppu.vcount = 0)) (.present t.vblankEnded.fb t.vblankEnded.sched.now)) (fun s2 =>
        andThen s2.vcountCheck fun s3 => s3.lineStarted.insertPpu (BitVec.ofNat 64 s.params.cyclesDraw) .drawEnd) →
      ∃ t, s.AtStart t ∧
        ((r = t.insertPpu (BitVec.ofNat 64 s.params.cyclesDraw) .drawEnd ∧
            bit t.regs.dispstat 0 =
              (if (s.ppu.vcount + 1) % s.params.vTotal + 1 = s.params.vTotal then false
                else if (s.ppu.vcount + 1) % s.params.vTotal = s.params.vVisible then true else bit s.regs.dispstat 0)) ∨
          ¬ s.host.held ∧ r = .next (t.raise .nestedAdvance)) := by
    rintro t ht h0 r rfl
    obtain ⟨h1, b1⟩ := ht.vblankEnded
    obtain ⟨u, hu, b2, k | k⟩ := h1.andThen_callIf hf hh (decide (t.ppu.vcount = 0)) (.present t.vblankEnded.fb t.vblankEnded.sched.now) (fun s2 =>
        andThen s2.vcountCheck fun s3 => s3.lineStarted.insertPpu (BitVec.ofNat 64 s.params.cyclesDraw) .drawEnd)
    · obtain ⟨h2, b3⟩ := hu.vcountMatched
      obtain ⟨v, hv, b4, l | l⟩ := h2.andThen_callIf hf hh (u.vcountMatched.regs.vcountMatch && u.vcountMatched.regs.vcountIrqEn)
        (.irqRequest .vcount u.vcountMatched.sched.now) fun s3 => s3.lineStarted.insertPpu (BitVec.ofNat 64 s.params.cyclesDraw) .drawEnd
      · obtain ⟨h3, b5⟩ := hv.lineStarted
        refine ⟨_, h3, .inl ⟨k.trans l, ?_⟩⟩
        rw [b5, b4, b3, b2, b1, h0, ht.vcount, ht.handled.params]
      · exact ⟨v, hv, .inr ⟨l.1, k.trans l.2⟩⟩
    · exact ⟨u, hu, .inr k⟩
  obtain ⟨h1, b1⟩ := s.atStart_nextLine
  have hx : exec .hblankEnd s = execHblankEnd s := rfl
  rw [hx]
  unfold execHblankEnd
  rw [h1.vcount]
  by_cases hv : (s.ppu.vcount + 1) % s.params.vTotal = s.params.vVisible
  · rw [if_pos hv]
    unfold State.vblankStart
    rw [andThen_assoc]
    obtain ⟨h2, b2⟩ := h1.vblankBegun
    obtain ⟨u, hu, b3, k | k⟩ := h2.andThen_callIf hf hh s.nextLine.vblankBegun.regs.vblankIrqEn
      (.irqRequest .vblank s.nextLine.vblankBegun.sched.now) _
    · rw [k]
      obtain ⟨v, hv', b4, l | l⟩ := hu.andThen_callIf hf hh true (.dmaNotify .vblank u.sched.now) _
      · exact rest v hv' (by rw [if_pos hv, b4, b3, b2]) _ l
      · exact ⟨v, hv', .inr l⟩
    · exact ⟨u, hu, .inr k⟩
  · rw [if_neg hv, andThen_of_none (h1.handled.fatal.trans hf)]
    exact rest _ h1 (by rw [if_neg hv, b1]) _ rfl

/-! ### The line's beginning -/

theorem Regs.bgMosaicH_eq (r : Regs) : r.bgMosaicH = r.mosaic.toNat / 16 % 16 + 1 := by simp [Regs.bgMosaicH, field_eq]

theorem Regs.lyc_eq (r : Regs) : r.lyc = r.dispstat.toNat / 256 := by
  have := r.dispstat.isLt
  simp [Regs.lyc, field_eq]
  omega

/-- A status bit is no part of LYC. -/
theorem setBit_high (d : Half) {i : Nat} (b : Bool) (hi : i < 3) : (setBit d i b).toNat / 256 = d.toNat / 256 := by
  have h : ∀ e : Half, e.toNat / 256 = (e.extractLsb' 8 8).toNat := by
    intro e
    have := e.isLt
    simp [Nat.shiftRight_eq_div_pow]
    omega
  rw [h, h]
  congr 1
  ext j hj
  cases b <;> simp [setBit] <;> omega

/-- The mosaic references latch by the block height alone. -/
theorem Ppu.mosaicLatched_congr (p : Ppu) {r r' : Regs} (y : Nat) (h : r.mosaic = r'.mosaic) :
    p.mosaicLatched r y = p.mosaicLatched r' y := by
  simp only [Ppu.mosaicLatched, Regs.bgMosaicH_eq, h]

/-- The line's starting state (R263), whole. -/
theorem State.lineStarted_eq {t : State} (hx : t.line.nextX = 0) :
    t.lineStarted =
      { t with
        ppu := if t.ppu.vcount < t.params.vVisible then t.ppu.mosaicLatched t.regs t.ppu.vcount else t.ppu
        line :=
          if t.ppu.vcount < t.params.vVisible then
            { Line.zero with
              ax := lineStartAcc t.regs t.ppu.ix (t.ppu.mosaicLatched t.regs t.ppu.vcount).mx
              ay := lineStartAcc t.regs t.ppu.iy (t.ppu.mosaicLatched t.regs t.ppu.vcount).my }
          else t.line } := by
  have hm : (t.ppu.mosaicLatched t.regs t.ppu.vcount).ix = t.ppu.ix ∧ (t.ppu.mosaicLatched t.regs t.ppu.vcount).iy = t.ppu.iy := by
    unfold Ppu.mosaicLatched
    split_ifs <;> exact ⟨rfl, rfl⟩
  unfold State.lineStarted
  by_cases h : t.ppu.vcount < t.params.vVisible
  · rw [if_pos ((t.visible_iff).2 h)]
    simp only [if_pos h, State.lineStart, State.setPpu, State.setLine, hx, hm]
    rfl
  · rw [if_neg (fun k => h ((t.visible_iff).1 k))]
    simp only [if_neg h]

end Sys2Proof.Machine
end

