-- ==== Sys2Proof/Laws/PerInstr.lean ====
section
/-! SUPPORT. Statements of each instruction as syntax, one lemma for each constructor (LAWS.json, "per_instruction"). -/

namespace Sys2Proof.Laws.CodeFields

/-- The fields of a code (spec 30_encoding.md R110, R111): RSVD is 0, WIDTH is not 3 and is 0 outside READ and WRITE, and CLASS is 4 for the
callbacks, 2 or 3 for the bus commands, 1 for the rest. -/
abbrev CodeOk (code : BitVec 16) (isEvent isBus : Bool) : Prop :=
  code.extractLsb' 2 6 = 0#6 ∧ code.extractLsb' 0 2 ≠ 3#2 ∧ (isBus = false → code.extractLsb' 0 2 = 0#2) ∧
    code.extractLsb' 12 4 ∈ (if isEvent then [4#4] else if isBus then [2#4, 3#4] else [1#4])

/-- The fields of an instruction's code (R110, R111), and a bus command's `A[63:32]`, which is 0 (R113). -/
def Statement (i : Instr) : Prop :=
  CodeOk (encode i).code i.isEvent i.isBus ∧ (i.isBus = true → (encode i).a.extractLsb' 32 32 = 0#32)

/-- The high half of a zero-extended address. -/
theorem high_setWidth (a : Word) : (a.setWidth 64).extractLsb' 32 32 = 0#32 := by
  ext i hi
  simp

theorem schedule (delay : Timestamp) (k : Word) : Statement (.schedule delay k) :=
  ⟨(by decide : CodeOk 0x1000#16 false false), fun h => nomatch h⟩

theorem cancel (handle : BitVec 64) : Statement (.cancel handle) :=
  ⟨(by decide : CodeOk 0x1100#16 false false), fun h => nomatch h⟩

theorem advance (cycles : Timestamp) : Statement (.advance cycles) :=
  ⟨(by decide : CodeOk 0x1200#16 false false), fun h => nomatch h⟩

theorem now : Statement (.now) :=
  ⟨(by decide : CodeOk 0x1300#16 false false), fun h => nomatch h⟩

theorem next : Statement (.next) :=
  ⟨(by decide : CodeOk 0x1400#16 false false), fun h => nomatch h⟩

theorem remain : Statement (.remain) :=
  ⟨(by decide : CodeOk 0x1500#16 false false), fun h => nomatch h⟩

theorem read8Mmio (addr : Word) : Statement (.read8Mmio addr) :=
  ⟨(by decide : CodeOk 0x2400#16 false true), fun _ => high_setWidth addr⟩

theorem read16Mmio (addr : Word) : Statement (.read16Mmio addr) :=
  ⟨(by decide : CodeOk 0x2401#16 false true), fun _ => high_setWidth addr⟩

theorem read32Mmio (addr : Word) : Statement (.read32Mmio addr) :=
  ⟨(by decide : CodeOk 0x2402#16 false true), fun _ => high_setWidth addr⟩

theorem read8Pram (addr : Word) : Statement (.read8Pram addr) :=
  ⟨(by decide : CodeOk 0x2500#16 false true), fun _ => high_setWidth addr⟩

theorem read16Pram (addr : Word) : Statement (.read16Pram addr) :=
  ⟨(by decide : CodeOk 0x2501#16 false true), fun _ => high_setWidth addr⟩

theorem read32Pram (addr : Word) : Statement (.read32Pram addr) :=
  ⟨(by decide : CodeOk 0x2502#16 false true), fun _ => high_setWidth addr⟩

theorem read8Vram (addr : Word) : Statement (.read8Vram addr) :=
  ⟨(by decide : CodeOk 0x2600#16 false true), fun _ => high_setWidth addr⟩

theorem read16Vram (addr : Word) : Statement (.read16Vram addr) :=
  ⟨(by decide : CodeOk 0x2601#16 false true), fun _ => high_setWidth addr⟩

theorem read32Vram (addr : Word) : Statement (.read32Vram addr) :=
  ⟨(by decide : CodeOk 0x2602#16 false true), fun _ => high_setWidth addr⟩

theorem read8Oam (addr : Word) : Statement (.read8Oam addr) :=
  ⟨(by decide : CodeOk 0x2700#16 false true), fun _ => high_setWidth addr⟩

theorem read16Oam (addr : Word) : Statement (.read16Oam addr) :=
  ⟨(by decide : CodeOk 0x2701#16 false true), fun _ => high_setWidth addr⟩

theorem read32Oam (addr : Word) : Statement (.read32Oam addr) :=
  ⟨(by decide : CodeOk 0x2702#16 false true), fun _ => high_setWidth addr⟩

theorem write8Mmio (addr : Word) (data : Byte) : Statement (.write8Mmio addr data) :=
  ⟨(by decide : CodeOk 0x3400#16 false true), fun _ => high_setWidth addr⟩

theorem write16Mmio (addr : Word) (data : Half) : Statement (.write16Mmio addr data) :=
  ⟨(by decide : CodeOk 0x3401#16 false true), fun _ => high_setWidth addr⟩

theorem write32Mmio (addr : Word) (data : Word) : Statement (.write32Mmio addr data) :=
  ⟨(by decide : CodeOk 0x3402#16 false true), fun _ => high_setWidth addr⟩

theorem write8Pram (addr : Word) (data : Byte) : Statement (.write8Pram addr data) :=
  ⟨(by decide : CodeOk 0x3500#16 false true), fun _ => high_setWidth addr⟩

theorem write16Pram (addr : Word) (data : Half) : Statement (.write16Pram addr data) :=
  ⟨(by decide : CodeOk 0x3501#16 false true), fun _ => high_setWidth addr⟩

theorem write32Pram (addr : Word) (data : Word) : Statement (.write32Pram addr data) :=
  ⟨(by decide : CodeOk 0x3502#16 false true), fun _ => high_setWidth addr⟩

theorem write8Vram (addr : Word) (data : Byte) : Statement (.write8Vram addr data) :=
  ⟨(by decide : CodeOk 0x3600#16 false true), fun _ => high_setWidth addr⟩

theorem write16Vram (addr : Word) (data : Half) : Statement (.write16Vram addr data) :=
  ⟨(by decide : CodeOk 0x3601#16 false true), fun _ => high_setWidth addr⟩

theorem write32Vram (addr : Word) (data : Word) : Statement (.write32Vram addr data) :=
  ⟨(by decide : CodeOk 0x3602#16 false true), fun _ => high_setWidth addr⟩

theorem write8Oam (addr : Word) (data : Byte) : Statement (.write8Oam addr data) :=
  ⟨(by decide : CodeOk 0x3700#16 false true), fun _ => high_setWidth addr⟩

theorem write16Oam (addr : Word) (data : Half) : Statement (.write16Oam addr data) :=
  ⟨(by decide : CodeOk 0x3701#16 false true), fun _ => high_setWidth addr⟩

theorem write32Oam (addr : Word) (data : Word) : Statement (.write32Oam addr data) :=
  ⟨(by decide : CodeOk 0x3702#16 false true), fun _ => high_setWidth addr⟩

theorem drawEnd : Statement (.drawEnd) :=
  ⟨(by decide : CodeOk 0x4000#16 true false), fun h => nomatch h⟩

theorem hblankEnd : Statement (.hblankEnd) :=
  ⟨(by decide : CodeOk 0x4100#16 true false), fun h => nomatch h⟩

theorem endOfTime : Statement (.endOfTime) :=
  ⟨(by decide : CodeOk 0x4200#16 true false), fun h => nomatch h⟩

theorem external (k : Word) : Statement (.external k) :=
  ⟨(by decide : CodeOk 0x4300#16 true false), fun h => nomatch h⟩

end Sys2Proof.Laws.CodeFields
end

