-- ==== Sys2Proof/Laws/Step.lean ====
section
/-! SUPPORT. What every step keeps whatever the state: the parameters, the trace so far, and the invariants of the memories and the registers. -/

namespace Sys2Proof.Machine

/-- What every instruction keeps in every state. -/
structure State.Basic (s t : State) : Prop where
  params : t.params = s.params
  trace : ∃ os, t.trace = s.trace ++ os
  vcount : s.ppu.vcount < s.params.vTotal → t.ppu.vcount < t.params.vTotal
  regs : s.regs.Inv → t.regs.Inv
  mem : s.MemInv → t.MemInv

theorem State.Handled.basic {s t : State} (h : s.Handled t) : s.Basic t :=
  ⟨h.params, h.trace, h.vcount, h.regs, h.mem⟩

theorem State.Kept.basic {s t : State} (h : s.Kept t) : s.Basic t := h.handled.basic

theorem State.Basic.rfl' (s : State) : s.Basic s := (State.Kept.rfl' s).basic

theorem State.Basic.trans {a b c : State} (h : a.Basic b) (k : b.Basic c) : a.Basic c where
  params := k.params.trans h.params
  trace := by
    obtain ⟨x, hx⟩ := h.trace
    obtain ⟨y, hy⟩ := k.trace
    exact ⟨x ++ y, by rw [hy, hx, List.append_assoc]⟩
  vcount := k.vcount ∘ h.vcount
  regs := k.regs ∘ h.regs
  mem := k.mem ∘ h.mem

theorem State.basic_setSched (s : State) (c : Sched) : s.Basic (s.setSched c) :=
  ⟨rfl, ⟨[], by simp⟩, id, id, fun k => ⟨k.pram, k.oam, k.vram, k.fb, k.objbuf, k.objwin, k.win0, k.win1, k.nextX⟩⟩

theorem State.basic_setHost (s : State) (h : HostInput) : s.Basic (s.setHost h) := (s.handled_setHost h).basic

theorem State.basic_drew (s : State) (n : Nat) : s.Basic (s.drew n) := (s.kept_drew n).basic

theorem State.basic_raise (s : State) (r : FatalReason) : s.Basic (s.raise r) :=
  ⟨rfl, ⟨_, rfl⟩, id, id, fun k => ⟨k.pram, k.oam, k.vram, k.fb, k.objbuf, k.objwin, k.win0, k.win1, k.nextX⟩⟩

/-- An outcome that, when it is a next state, keeps what `Basic` lists. -/
def State.BasicTo (s : State) (r : Result) : Prop := ∀ t, r = .next t → s.Basic t

theorem State.basicTo_next {s t : State} (h : s.Basic t) : s.BasicTo (.next t) := fun u hu => by
  cases hu
  exact h

theorem State.basicTo_andThen {s : State} {r : Result} {f : State → Result} (hr : s.BasicTo r) (hf : ∀ t : State, t.BasicTo (f t)) :
    s.BasicTo (andThen r f) := by
  intro u hu
  cases r with
  | next t =>
    rw [andThen_next] at hu
    have h := hr t rfl
    split_ifs at hu
    · cases hu
      exact h
    · exact h.trans (hf t u hu)
  | fault _ => cases hu
  | refused _ => cases hu

theorem State.basicTo_of_eq {s : State} {r : Result} (h : ∃ t, r = .next t ∧ s.Kept t) : s.BasicTo r := by
  obtain ⟨t, rfl, hk⟩ := h
  exact State.basicTo_next hk.basic

theorem State.basic_insert (s : State) (d : Timestamp) (tag : Tag) : s.Basic (s.insert d tag) := by
  rcases s.insert_cases d tag with ⟨-, h⟩ | ⟨-, -, h⟩ | ⟨-, -, h⟩ <;> rw [h]
  · exact s.basic_raise _
  · exact s.basic_raise _
  · exact s.basic_setSched _

theorem State.basicTo_insertPpu (s : State) (d : Timestamp) (tag : Tag) : s.BasicTo (s.insertPpu d tag) :=
  State.basicTo_andThen (State.basicTo_next (s.basic_insert d tag)) fun t =>
    State.basicTo_next (t.handled_setPpu (by exact id)).basic

/-- Every command that is no callback. -/
theorem exec_command_basic {i : Instr} (he : i.isEvent = false) (s : State) : s.BasicTo (exec i s) := by
  by_cases hb : i.isBus = true
  · exact State.basicTo_of_eq (exec_bus_kept hb s)
  · cases i <;> simp only [Instr.isBus, Instr.isEvent, Bool.true_eq_false, not_true_eq_false] at hb he <;> simp only [exec]
    case schedule d k =>
      exact State.basicTo_andThen (State.basicTo_next (s.basic_insert _ _)) fun t =>
        State.basicTo_next (t.kept_emit _).basic
    case cancel a =>
      unfold execCancel
      split
      · exact State.basicTo_next (.rfl' s)
      · split_ifs
        · exact State.basicTo_next (s.basic_raise _)
        · exact State.basicTo_next (s.basic_setSched _)
      all_goals exact State.basicTo_next (s.kept_refuse _).basic
    case advance n =>
      unfold execAdvance
      split_ifs
      · exact State.basicTo_next (s.basic_raise _)
      · exact State.basicTo_next (s.basic_raise _)
      · exact State.basicTo_next (s.basic_setSched _)
    case now => exact State.basicTo_next (s.kept_emit _).basic
    case next =>
      unfold execNext
      split
      · intro t ht
        cases ht
      · exact State.basicTo_next (s.kept_emit _).basic
    case remain =>
      unfold execRemain
      split
      · intro t ht
        cases ht
      · exact State.basicTo_next (s.kept_emit _).basic

theorem issueWith_basic {run : Instr → State → Result} (hr : ∀ (i : Instr) (s : State), i.isEvent = false → s.BasicTo (run i s)) (c : Command)
    (s : State) : s.BasicTo (issueWith run c s) := by
  unfold issueWith
  split
  · exact State.basicTo_next (s.kept_refuse _).basic
  · split_ifs with h
    · exact State.basicTo_next (s.kept_refuse _).basic
    · exact hr _ s (by simpa using h)

theorem runAll_basic {run : Instr → State → Result} (hr : ∀ (i : Instr) (s : State), i.isEvent = false → s.BasicTo (run i s)) (cs : List Command)
    (s : State) : s.BasicTo (runAll run cs s) := by
  induction cs generalizing s with
  | nil => exact State.basicTo_next (.rfl' s)
  | cons c cs ih => exact State.basicTo_andThen (issueWith_basic hr c s) ih

theorem runCommand_basic (i : Instr) (s : State) (hi : i.isEvent = false) : s.BasicTo (runCommand i s) := by
  rw [runCommand_eq_exec hi]
  exact exec_command_basic hi s

theorem callHost_basic (o : Output) (s : State) : s.BasicTo (s.callHost o) := by
  unfold State.callHost
  simp only
  split
  · exact State.basicTo_next (s.kept_emit _).basic
  · intro t ht
    refine ((s.kept_emit _).basic.trans (State.basic_setHost _ _)).trans (runAll_basic (fun i u hi => ?_) _ _ t ht)
    by_cases ha : ∃ n, i = .advance n
    · obtain ⟨n, rfl⟩ := ha
      exact State.basicTo_next (u.basic_raise _)
    · rw [runInResponse_eq (fun n h => ha ⟨n, h⟩)]
      split_ifs
      · exact runCommand_basic i u hi
      · exact State.basicTo_next (u.kept_refuse _).basic

theorem callIf_basic (b : Bool) (o : Output) (s : State) : s.BasicTo (s.callIf b o) := by
  cases b
  · exact State.basicTo_next (.rfl' s)
  · exact callHost_basic o s

/-- Every instruction keeps the parameters, the trace so far and the invariants of the memories and the registers. -/
theorem exec_basic (i : Instr) (s : State) : s.BasicTo (exec i s) := by
  by_cases he : i.isEvent = false
  · exact exec_command_basic he s
  · have hd : ∀ (u : State) (r : Result) (f : State → Result), s.Basic u → u.BasicTo r → (∀ t : State, t.BasicTo (f t)) →
        s.BasicTo (andThen r f) := fun u r f h1 h2 h3 => State.basicTo_andThen (fun t ht => h1.trans (h2 t ht)) h3
    cases i <;> simp only [Instr.isEvent, Bool.true_eq_false, not_true_eq_false] at he <;> simp only [exec]
    case drawEnd =>
      exact hd s.drawEnded _ _ s.handled_drawEnded.basic (callIf_basic _ _ _) fun t =>
        State.basicTo_andThen (callIf_basic _ _ t) fun u => u.basicTo_insertPpu _ _
    case hblankEnd =>
      have h1 := s.atStart_nextLine.1.handled.basic
      have h2 : s.BasicTo (if s.nextLine.ppu.vcount = s.params.vVisible then s.nextLine.vblankStart else .next s.nextLine) := by
        split_ifs
        · exact State.basicTo_andThen
            (fun t ht => (s.atStart_nextLine.1.vblankBegun.1.handled.basic).trans (callIf_basic _ _ _ t ht)) fun u => callHost_basic _ u
        · exact State.basicTo_next h1
      refine State.basicTo_andThen h2 fun t => State.basicTo_andThen (fun u hu => ?_) fun u => State.basicTo_andThen (fun v hv => ?_)
        fun v w hw => v.handled_lineStarted.basic.trans (State.basicTo_insertPpu _ _ _ w hw)
      · exact t.handled_vblankEnded.basic.trans (callIf_basic _ _ _ u hu)
      · exact u.handled_vcountMatched.basic.trans (callIf_basic _ _ _ v hv)
    case endOfTime => exact State.basicTo_next (s.basic_raise _)
    case external k => exact runAll_basic runCommand_basic _ s

theorem finishFire_basic (h : Nat) (s : State) : s.BasicTo (finishFire h s) := by
  unfold finishFire
  simp only
  split <;> exact State.basicTo_next (s.basic_setSched _)

theorem chooseDue_basic (root : Nat) (s : State) : s.Basic (s.chooseDue root).2 := by
  unfold State.chooseDue
  split
  · exact .rfl' s
  · split
    · exact .rfl' s
    · exact .rfl' s
    · exact s.basic_drew 1

/-- Every step keeps them. -/
theorem step_basic (s : State) : s.BasicTo (step s) := by
  unfold step
  by_cases hf : s.fatal.isSome = true
  · rw [if_pos hf]
    exact State.basicTo_next (s.basic_setHost _)
  · rw [if_neg hf]
    split
    · unfold callbackTurn
      split
      · intro t ht
        cases ht
      · exact State.basicTo_andThen (exec_basic _ s) fun t => finishFire_basic _ t
    · split_ifs
      · unfold loopTurn
        split
        · intro t ht
          cases ht
        · split_ifs
          · exact State.basicTo_next (s.basic_setSched _)
          · rename_i root _ _ _
            intro t ht
            refine (chooseDue_basic root s).trans ?_
            revert ht
            unfold beginFire
            simp only
            split
            · exact fun ht => (State.basic_setSched _ _).trans (exec_basic _ _ t ht)
            · intro ht
              cases ht
              exact State.basic_setSched _ _
      · unfold hostTurn
        split
        · exact State.basicTo_next (.rfl' s)
        · exact fun t ht => (s.basic_setHost _).trans (issueWith_basic (fun i u _ => exec_basic i u) _ _ t ht)

end Sys2Proof.Machine
end

