-- ==== Sys2Proof/Laws/Turns.lean ====
section
/-! SUPPORT. The turns of ADVANCE's loop and of Fire under the scheduler's invariants (spec 40_scheduler.md R155, R156, R159), and the callbacks. -/

namespace Sys2Proof.Machine

variable {m : Timestamp}

/-- The choice of R155: a live handle of the root's timestamp, the root itself under `HEAP`; nothing but the count of free values changes. -/
theorem State.chooseDue_spec {s : State} (hi : s.SchedInv) {root : Nat} {rest : List Nat} (hh : s.sched.heap = root :: rest) :
    (∃ e, s.sched.event (s.chooseDue root).1 = some e ∧ e.ts = s.sched.ts root) ∧
      (s.params.tiePolicy = .heap → (s.chooseDue root).1 = root) ∧ ∃ n, (s.chooseDue root).2 = s.drew n := by
  obtain ⟨e, he, hts, -⟩ := hi.root hh
  have hroot : ∃ e, s.sched.event root = some e ∧ e.ts = s.sched.ts root := ⟨e, he, hts.symm⟩
  have hmem : ∀ h, h ∈ s.sched.dueFirst root → ∃ e, s.sched.event h = some e ∧ e.ts = s.sched.ts root := by
    intro h hm
    obtain ⟨h1, h2⟩ := List.mem_filter.1 hm
    obtain ⟨i, hi', hget⟩ := List.getElem_of_mem h1
    obtain ⟨f, hf, -⟩ := hi.linked.live i h (by rw [List.getElem?_eq_getElem hi', hget])
    refine ⟨f, hf, ?_⟩
    have h3 : s.sched.ts h = s.sched.ts root := by simpa using h2
    rw [← h3]
    simp [Sched.ts, hf]
  unfold State.chooseDue
  split
  · exact ⟨hroot, fun _ => rfl, 0, rfl⟩
  · rename_i hp
    have hne : s.params.tiePolicy ≠ .heap := by rw [hp]; simp
    split
    · exact ⟨hroot, fun h => absurd h hne, 0, rfl⟩
    · rename_i h hl
      exact ⟨hmem h (by rw [hl]; simp), fun h => absurd h hne, 0, rfl⟩
    · rename_i h hs _ hl
      refine ⟨hmem _ ?_, fun h => absurd h hne, 1, rfl⟩
      rw [hl]
      have hlt : Config.freeTie s.draws % (hs.length + 1) < (h :: hs).length := Nat.mod_lt _ (by simp)
      simp only [List.getD_eq_getElem _ _ hlt]
      exact List.getElem_mem hlt

/-- The beginning of Fire for a live event (R156): the sentinel is fatal, any other event is being fired. -/
theorem beginFire_spec {s : State} {h : Nat} {e : Event} (he : s.sched.event h = some e) :
    beginFire h s =
      if e.tag = .endOfTime then .next ((s.setSched { s.sched with now := e.ts }).raise (.endOfTime e.ts))
      else .next (s.setSched { s.sched with now := e.ts, firing := some h }) := by
  have hts : s.sched.ts h = e.ts := by simp [Sched.ts, he]
  unfold beginFire
  rw [hts, he]
  obtain ⟨ts, tag, slot⟩ := e
  cases tag <;> rfl

/-- `now` moved on to a time no live event lies before. -/
theorem Sched.Inv.moved {c : Sched} (hc : c.Inv m) {t : Timestamp} (h1 : c.firing = none)
    (h2 : ∀ h e, c.event h = some e → t ≤ e.ts) (h3 : t ≤ c.target ∨ c.inAdvance = false) :
    Sched.Inv { c with now := t } m :=
  { linked := ⟨hc.linked.events_wf, hc.linked.live, hc.linked.slot⟩, ordered := hc.ordered, sentinel := hc.sentinel
    oneSentinel := hc.oneSentinel, notPast := h2, issued := hc.issued, someIssued := hc.someIssued
    target := fun ha => h3.resolve_right (by
      have : c.inAdvance = true := ha
      simp [this])
    firing := fun h hf => by
      have : c.firing = some h := hf
      rw [h1] at this
      cases this }

/-- The state between Fire's beginning and its callback. -/
theorem Sched.Inv.fires {c : Sched} (hc : c.Inv m) {h : Nat} {e : Event} (hf : c.firing = none) (ha : c.inAdvance = true)
    (he : c.event h = some e) (hmin : ∀ k f, c.event k = some f → e.ts ≤ f.ts) (ht : e.ts ≤ c.target)
    (htag : e.tag ≠ .endOfTime) : Sched.Inv { c with now := e.ts, firing := some h } m := by
  have hm := hc.moved hf hmin (.inl ht)
  refine
    { linked := ⟨hc.linked.events_wf, hc.linked.live, hc.linked.slot⟩, ordered := hc.ordered, sentinel := hc.sentinel
      oneSentinel := hc.oneSentinel, notPast := hmin, issued := hc.issued, someIssued := hc.someIssued
      target := hm.target
      firing := fun k hk => ?_ }
  cases hk
  refine ⟨ha, ?_, e, he, rfl⟩
  rintro rfl
  obtain ⟨e', he', -, ht'⟩ := hc.sentinel
  rw [he] at he'
  cases he'
  exact htag ht'

/-- The end of Fire removes the fired event (R156). -/
theorem Sched.Inv.finish {c : Sched} (hc : c.Inv m) {h : Nat} (hf : c.firing = some h) :
    ∃ e, Sched.event { c with firing := none } h = some e ∧
      Sched.Removed { c with firing := none } h (Sched.removeAt { c with firing := none } e.slot) ∧
      Sched.Inv (Sched.removeAt { c with firing := none } e.slot) m := by
  obtain ⟨ha, h0, e, he, hts⟩ := hc.firing h hf
  have hc' : Sched.Inv { c with firing := none } m :=
    { linked := ⟨hc.linked.events_wf, hc.linked.live, hc.linked.slot⟩, ordered := hc.ordered, sentinel := hc.sentinel
      oneSentinel := hc.oneSentinel, notPast := hc.notPast, issued := hc.issued, someIssued := hc.someIssued
      target := hc.target, firing := fun k hk => by cases hk }
  have hr := Sched.removeAt_spec hc'.linked hc'.ordered (hc'.linked.slot h e he)
  exact ⟨e, he, hr, hc'.removed hr h0 (by simp)⟩

/-- DRAW_END completes under the scheduler's invariants, whatever the host's responses: what comes before its Insert, and the Insert, or a fatal
error (R6, R240, R247, R336). -/
theorem execDrawEnd_cases {s : State} (hf : s.fatal = none) (hi : s.SchedInv) :
    ∃ u, s.Handled u ∧ u.ppu.phase = .hblank ∧ u.ppu.vcount = s.ppu.vcount ∧ u.ppu.ls = s.ppu.ls ∧
      u.line = s.catchUp.line ∧ u.fb = s.catchUp.fb ∧
      u.regs.dispstat.extractLsb' 0 3 = s.regs.dispstat.extractLsb' 0 3 ||| 2#3 ∧
      ((∃ r, exec .drawEnd s = .next (u.raise r)) ∨
        (s.sched.n < s.params.schedCapacity ∧
          s.sched.now.toNat + (BitVec.ofNat 64 s.params.cyclesHBlank).toNat < s.params.tsMax.toNat ∧
          exec .drawEnd s = .next ((u.setSched (s.sched.push (s.sched.now + BitVec.ofNat 64 s.params.cyclesHBlank) .hblankEnd)).setPpu
            { u.ppu with ppuEv := s.sched.nextHandle }))) := by
  obtain ⟨u, hx, -, hH, h1, h2, h3, -, h4, h5, h6⟩ := drawEnd_upTo hf hi.heap_ne
  refine ⟨u, hH, h1, h2, h3, h4, h5, h6, ?_⟩
  rcases hx with hx | ⟨-, hx⟩
  · rw [hx]
    rcases State.insertPpu_cases (hH.fatal.trans hf) (BitVec.ofNat 64 s.params.cyclesHBlank) .hblankEnd with ⟨r, -, h⟩ | ⟨a, b, h⟩
    · exact .inl ⟨r, h⟩
    · rw [hH.sched, hH.params] at a b
      rw [hH.sched] at h
      exact .inr ⟨a, b, h⟩
  · exact .inl ⟨.nestedAdvance, hx⟩

/-- HBLANK_END completes under the scheduler's invariants, whatever the host's responses: what comes before its Insert, and the Insert, or a fatal
error (R6, R241, R247, R336). -/
theorem execHblankEnd_cases {s : State} (hf : s.fatal = none) (hi : s.SchedInv) :
    ∃ u, s.Handled u ∧
      ((∃ r, exec .hblankEnd s = .next (u.raise r)) ∨
        (s.sched.n < s.params.schedCapacity ∧
          s.sched.now.toNat + (BitVec.ofNat 64 s.params.cyclesDraw).toNat < s.params.tsMax.toNat ∧
          u.ppu.phase = .draw ∧ u.ppu.vcount = (s.ppu.vcount + 1) % s.params.vTotal ∧ u.ppu.ls = s.sched.now ∧
          u.line.nextX = 0 ∧ u.fb = s.fb ∧ bit u.regs.dispstat 1 = false ∧
          bit u.regs.dispstat 0 =
            (if (s.ppu.vcount + 1) % s.params.vTotal + 1 = s.params.vTotal then false
              else if (s.ppu.vcount + 1) % s.params.vTotal = s.params.vVisible then true else bit s.regs.dispstat 0) ∧
          exec .hblankEnd s = .next ((u.setSched (s.sched.push (s.sched.now + BitVec.ofNat 64 s.params.cyclesDraw) .drawEnd)).setPpu
            { u.ppu with ppuEv := s.sched.nextHandle }))) := by
  obtain ⟨t, ht, ⟨hx, h0⟩ | ⟨-, hx⟩⟩ := hblankEnd_upTo hf hi.heap_ne
  · have hH := ht.handled
    refine ⟨t, hH, ?_⟩
    rw [hx]
    rcases State.insertPpu_cases (hH.fatal.trans hf) (BitVec.ofNat 64 s.params.cyclesDraw) .drawEnd with ⟨r, -, h⟩ | ⟨a, b, h⟩
    · exact .inl ⟨r, h⟩
    · rw [hH.sched, hH.params] at a b
      rw [hH.sched] at h
      exact .inr ⟨a, b, ht.phase, ht.vcount, ht.ls, ht.nextX, ht.fb, ht.hblank, h0, h⟩
  · exact ⟨t, ht.handled, .inl ⟨.nestedAdvance, hx⟩⟩

end Sys2Proof.Machine
end

