-- ==== Sys2Proof/Tests/Slice0.lean ====
section
/-! SUPPORT. Tests of the model, each expected result from the spec (95_test_vectors.md names the vector), and for every obligation with
hypotheses a state and operands that meet them together. -/

namespace Sys2Proof.Tests

open Sys2Proof.Machine

/-! ### WellFormed: an ill-formed term for each check -/

theorem test_wf_mmio_above_0x57 : (Instr.read16Mmio 0x04000058#32).wf = false := by decide
theorem test_wf_mmio_last : (Instr.write8Mmio 0x04000057#32 0#8).wf = true := by decide
theorem test_wf_pram_not_vram : (Instr.read16Pram 0x06000000#32).wf = false := by decide
theorem test_wf_vram_not_oam : (Instr.write32Vram 0x07000000#32 0#32).wf = false := by decide
theorem test_wf_oam_not_beyond : (Instr.write16Oam 0x08000000#32 0#16).wf = false := by decide
theorem test_wf_high_nibble : (Instr.read16Mmio 0x14000000#32).wf = false := by decide

/-! ### Decoding: words written out from the codes of R116 (vectors X1 to X11, F10, F12) -/

theorem test_decode_schedule : decode ⟨0b0001_0000_000000_00#16, 10#64, 1#32⟩ = .ok (.schedule 10#64 1#32) := by decide
theorem test_decode_remain : decode ⟨0b0001_0101_000000_00#16, 0#64, 0#32⟩ = .ok .remain := by decide
theorem test_decode_X1 : decode ⟨0b0010_0100_000000_01#16, 0x04000004#64, 0#32⟩ = .ok (.read16Mmio 0x04000004#32) := by decide
theorem test_decode_X2 : decode ⟨0b0011_0110_000000_10#16, 0x06000020#64, 0x11111111#32⟩ =
    .ok (.write32Vram 0x06000020#32 0x11111111#32) := by decide
theorem test_decode_X3 : decode ⟨0x2403#16, 0x04000000#64, 0#32⟩ = .error .reservedCode := by decide
theorem test_decode_X4 : decode ⟨0x2405#16, 0x04000000#64, 0#32⟩ = .error .reservedCode := by decide
theorem test_decode_X7 : decode ⟨0x2801#16, 0x08000000#64, 0#32⟩ = .error .reservedCode := by decide
theorem test_decode_X8 : decode ⟨0x3400#16, 0x04000000#64, 0x100#32⟩ = .error .dataTooWide := by decide
theorem test_decode_X9 : decode ⟨0x2401#16, 0x104000000#64, 0#32⟩ = .error .addressHighNotZero := by decide
theorem test_decode_F10 : decode ⟨0x1600#16, 0#64, 0#32⟩ = .error .reservedCode := by decide
theorem test_decode_F12 : decode ⟨0x1200#16, 5#64, 1#32⟩ = .error .operandBNotZero := by decide
theorem test_decode_external : decode ⟨0b0100_0011_000000_00#16, 0#64, 9#32⟩ = .ok (.external 9#32) := by decide

/-! ### One instruction each -/

/-- The instruction completes with a state that passes a check. -/
def gives (i : Instr) (s : State) (p : State → Bool) : Bool :=
  match exec i s with
  | .next t => p t
  | .fault _ => false
  | .refused _ => false

/-- The last output of the run. -/
def lastIs (t : State) (o : Output) : Bool := t.trace.getLast? == some o

/-- Vector S1. -/
theorem test_next_S1 : gives .next State.reset (fun t => lastIs t (.timestamp 960#64)) = true := by decide
theorem test_remain_S1 : gives .remain State.reset (fun t => lastIs t (.timestamp 960#64)) = true := by decide
/-- The first insertion of vector S2's heap trace. -/
theorem test_schedule_S2 : gives (.schedule 10#64 1#32) State.reset
    (fun t => lastIs t (.handle 2) && t.sched.heap == [2, 0, 1]) = true := by decide
/-- Vector S12: due at `2^64 - 2`, one below the sentinel. -/
theorem test_schedule_S12 : gives (.schedule 0xFFFFFFFFFFFFFFFE#64 1#32) State.reset
    (fun t => lastIs t (.handle 2) && t.fatal == none) = true := by decide
/-- Vector F3. -/
theorem test_schedule_F3 : gives (.schedule 0xFFFFFFFFFFFFFFFF#64 0#32) State.reset
    (fun t => t.fatal == some (.timestampOverflow 0xFFFFFFFFFFFFFFFF#64)) = true := by decide
/-- Vector F9. -/
theorem test_cancel_F9 : gives (.cancel 1#64) State.reset
    (fun t => lastIs t (.refused .badHandle) && t.sched.heap == [1, 0]) = true := by decide
/-- Vector B1. -/
theorem test_write8_pram_B1 : gives (.write8Pram 0x05000001#32 0xAB#8) State.reset
    (fun t => t.pram.read16 0 == 0xABAB#16) = true := by decide
/-- Vector B4: aligned down to the word. -/
theorem test_write32_pram_B4 : gives (.write32Pram 0x05000002#32 0x11223344#32) State.reset
    (fun t => t.pram.read16 0 == 0x3344#16 && t.pram.read16 2 == 0x1122#16) = true := by decide
/-- Vector B5: a byte write to OBJ VRAM is dropped. -/
theorem test_write8_vram_B5 : gives (.write8Vram 0x06010000#32 0x5A#8) State.reset (fun t => t.vram == []) = true := by decide
/-- Vector B3: a byte write to object memory is dropped. -/
theorem test_write8_oam_B3 : gives (.write8Oam 0x07000000#32 0xFF#8) State.reset (fun t => t.oam == []) = true := by decide
/-- Vector B8. -/
theorem test_write_dispcnt_B8 : gives (.write16Mmio 0x04000000#32 0xFFFF#16) State.reset
    (fun t => t.regs.dispcnt == 0xFFF7#16) = true := by decide
/-- Vector B13: bits 5:3 and 15:8 only. -/
theorem test_write_dispstat_B13 : gives (.write16Mmio 0x04000004#32 0xFFFF#16) State.reset
    (fun t => t.regs.dispstat == 0xFF38#16) = true := by decide
/-- Vector B16: bit 27 is the sign, bits 31:28 are ignored. -/
theorem test_write_bg2x_B16 : gives (.write32Mmio 0x04000028#32 0x08000000#32) State.reset
    (fun t => t.regs.refX.k2 == 0xF8000000#32 && t.ppu.ix.k2 == 0xF8000000#32) = true := by decide
/-- Vector B18. -/
theorem test_write_bldy_B18 : gives (.write16Mmio 0x04000054#32 0xFFFF#16) State.reset
    (fun t => t.regs.bldy == 0x001F#16) = true := by decide
/-- R180 and B11: an unused offset and a write-only register are not driven; a driven register is. -/
theorem test_read_not_driven_B11 : (State.reset.regRead16 0x02, State.reset.regRead16 0x10, State.reset.regRead16 0x50) =
    (none, none, some 0#16) := by decide
/-- R85: 0x1C002 maps to 0x14002 in every mode, and 0x18000 is a hole in mode 3 (vector B7). -/
theorem test_vram_window_B7 : (vramOffset 3 0x1C002, vramOffset 3 0x18000, vramOffset 0 0x18000) =
    (some 0x14002, none, some 0x10000) := by decide
/-- R305: half red over half blue. -/
theorem test_alpha : ({ Regs.zero with bldalpha := 0x0808#16 } : Regs).alpha 0x001F#15 0x7C00#15 = 0x3C0F#15 := by decide
/-- R306, R307 at full weight: white and black. -/
theorem test_fade : (({ Regs.zero with bldy := 0x001F#16 } : Regs).brighten 0x1234#15,
    ({ Regs.zero with bldy := 0x001F#16 } : Regs).darken 0x1234#15) = (0x7FFF#15, 0#15) := by decide
/-- R126: the tall 32x64 object. -/
theorem test_obj_size : objSize 2 3 = (32, 64) := by decide
/-- R123: the last screen block of a 512x512 layer. -/
theorem test_map_addr : mapAddr 0xC000#16 511 511 = 3 * 0x800 + 31 * 64 + 31 * 2 := by decide

/-! ### States for the witnesses -/

/-- The invariants of the scheduler as checks on its lists. -/
structure Checked (c : Sched) : Prop where
  wf : Sparse.wf none c.events
  live : ∀ i ∈ List.range c.heap.length, ∃ e ∈ (c.event (c.heap.getD i 0)), e.slot = i
  events : ∀ p ∈ c.events, ∀ e ∈ p.2,
    c.heap[e.slot]? = some p.1 ∧ c.now ≤ e.ts ∧ p.1 < c.nextHandle ∧ (p.1 ≠ 0 → e.tag ≠ .endOfTime ∧ e.ts < Params.default.tsMax)
  ordered : ∀ i ∈ List.range c.heap.length, 0 < i → c.tsAt ((i - 1) / 2) ≤ c.tsAt i
  sentinel : (c.event 0).map (fun e => (e.ts, e.tag)) = some (Params.default.tsMax, .endOfTime)
  target : c.inAdvance = true → c.now ≤ c.target
  firing : ∀ h ∈ c.firing, c.inAdvance = true ∧ h ≠ 0 ∧ (c.event h).map Event.ts = some c.now

theorem mem_of_get {m : Sparse (Option Event)} {h : Nat} {e : Event} (he : Sparse.get none m h = some e) : (h, some e) ∈ m := by
  induction m with
  | nil => cases he
  | cons p m ih =>
    obtain ⟨k, v⟩ := p
    simp only [Sparse.get] at he
    split_ifs at he with h1 h2
    · subst h2
      exact he ▸ List.mem_cons_self ..
    · exact List.mem_cons_of_mem _ (ih he)

theorem Checked.inv {c : Sched} (k : Checked c) : c.Inv Params.default.tsMax where
  linked :=
    { events_wf := k.wf
      live := fun i h hi => by
        have hlt : i < c.heap.length := by
          by_contra hge
          rw [List.getElem?_eq_none (by omega)] at hi
          cases hi
        obtain ⟨e, he, hs⟩ := k.live i (List.mem_range.2 hlt)
        have : c.heap.getD i 0 = h := by rw [List.getD_eq_getElem?_getD, hi]; rfl
        exact ⟨e, this ▸ he, hs⟩
      slot := fun h e he => (k.events _ (mem_of_get he) e rfl).1 }
  ordered := fun i h0 hi => k.ordered i (List.mem_range.2 hi) h0
  sentinel := by
    have hs := k.sentinel
    cases he : c.event 0 with
    | none => rw [he] at hs; cases hs
    | some e =>
      rw [he] at hs
      simp only [Option.map_some, Option.some.injEq, Prod.mk.injEq] at hs
      exact ⟨e, rfl, hs.1, hs.2⟩
  oneSentinel := fun h e he h0 => (k.events _ (mem_of_get he) e rfl).2.2.2 h0
  notPast := fun h e he => (k.events _ (mem_of_get he) e rfl).2.1
  issued := fun h e he => (k.events _ (mem_of_get he) e rfl).2.2.1
  someIssued := by
    have hs := k.sentinel
    cases he : c.event 0 with
    | none => rw [he] at hs; cases hs
    | some e => exact Nat.lt_of_le_of_lt (Nat.zero_le _) (k.events _ (mem_of_get he) e rfl).2.2.1
  target := k.target
  firing := fun h hh => by
    obtain ⟨h1, h2, h3⟩ := k.firing h hh
    cases he : c.event h with
    | none => rw [he] at h3; cases h3
    | some e => rw [he] at h3; exact ⟨h1, h2, e, rfl, Option.some.inj h3⟩

/-- After `SCHEDULE 10, 7`: the sentinel, the PPU's DRAW_END at 960, the host's event at 10; handle 3 issued and stale. -/
def three : Sched where
  now := 0#64
  events := [(0, some ⟨Params.default.tsMax, .endOfTime, 1⟩), (1, some ⟨960#64, .drawEnd, 2⟩), (2, some ⟨10#64, .external 7#32, 0⟩)]
  heap := [2, 0, 1]
  nextHandle := 4
  inAdvance := false
  target := 0#64
  firing := none

theorem three_inv : three.Inv Params.default.tsMax := Checked.inv
  ⟨by decide, by decide, by decide, by decide, by decide, by decide, by decide⟩

/-- A state with that scheduler. -/
def demo : State := { State.reset with sched := three }

theorem demo_mem : demo.MemInv where
  pram := Sparse.bounded_nil _ _
  oam := Sparse.bounded_nil _ _
  vram := Sparse.bounded_nil _ _
  fb := Sparse.bounded_nil _ _
  objbuf := Sparse.bounded_nil _ _
  objwin := Sparse.bounded_nil _ _
  win0 := Sparse.bounded_nil _ _
  win1 := Sparse.bounded_nil _ _
  nextX := by decide

theorem demo_regs : demo.regs.Inv where
  dispcnt := by decide
  dispstat := by decide
  bg0cnt := by decide
  bg1cnt := by decide
  hofs := fun i => by cases i <;> decide
  vofs := fun i => by cases i <;> decide
  refX := fun k => by unfold refInRange; cases k <;> decide
  refY := fun k => by unfold refInRange; cases k <;> decide
  winin := by decide
  winout := by decide
  bldcnt := by decide
  bldalpha := by decide
  bldy := by decide

theorem default_legal : Params.default.Legal :=
  ⟨by decide, by decide, by decide, by decide, by decide, by decide, by decide, by decide⟩

theorem demo_inv : demo.Inv where
  mem := demo_mem
  regs := demo_regs
  params := default_legal
  vcount := by decide
  sched := three_inv
  capacity := by decide
  timeline := fun _ =>
    { pending := ⟨⟨960#64, .drawEnd, 2⟩, by decide, by decide, by decide⟩
      only := fun h e he ht => by
        have hm : (h, some e) ∈ three.events := mem_of_get he
        simp only [three, List.mem_cons, Prod.mk.injEq, Option.some.injEq, List.not_mem_nil, or_false] at hm
        rcases hm with ⟨rfl, rfl⟩ | ⟨rfl, rfl⟩ | ⟨rfl, rfl⟩
        · cases ht
        · rfl
        · cases ht
      begun := by decide
      frame := by decide
      hblank := by decide
      vblank := by decide
      produced := by decide }

/-- Event 2 firing at 10, in an ADVANCE to 20. -/
def threeFiring : Sched := { three with now := 10#64, inAdvance := true, target := 20#64, firing := some 2 }

theorem threeFiring_inv : threeFiring.Inv Params.default.tsMax := Checked.inv
  ⟨by decide, by decide, by decide, by decide, by decide, by decide, by decide⟩

/-- A state with that scheduler and an action for the tag. -/
def firing (action : List Command) : State :=
  { demo with sched := threeFiring, host := ⟨[], [(7#32, action)], []⟩ }

/-- A PPU event firing at 960 on a line of the vertical blank. -/
def ppuFiring (tag : Tag) : State :=
  { State.reset with
    sched :=
      { now := 960#64
        events := [(0, some ⟨Params.default.tsMax, .endOfTime, 1⟩), (1, some ⟨960#64, tag, 0⟩)]
        heap := [1, 0]
        nextHandle := 2
        inAdvance := true
        target := 960#64
        firing := some 1 }
    ppu := { State.reset.ppu with vcount := 200 } }

/-- The scheduler alone, an ADVANCE to the sentinel (vector F5). -/
def sentinelDue : State :=
  { State.reset with
    sched :=
      { now := 0#64
        events := [(0, some ⟨Params.default.tsMax, .endOfTime, 0⟩)]
        heap := [0]
        nextHandle := 1
        inAdvance := true
        target := Params.default.tsMax
        firing := none } }

theorem sentinelDue_inv : sentinelDue.SchedInv := Checked.inv
  ⟨by decide, by decide, by decide, by decide, by decide, by decide, by decide⟩

/-- `demo` in an ADVANCE. -/
def advancing (target : Timestamp) : State :=
  { demo with
    sched := { three with inAdvance := true, target := target }
    params := { Params.default with tiePolicy := .heap } }

theorem advancing_inv : (advancing 10#64).SchedInv :=
  Checked.inv ⟨by decide, by decide, by decide, by decide, by decide, by decide, by decide⟩

/-- `demo` with its heap full. -/
def full : State := { demo with params := { Params.default with schedCapacity := 3 } }

/-- `demo` at a line and in a phase. -/
def onLine (y : Nat) (p : Phase) : State := { demo with ppu := { demo.ppu with vcount := y, phase := p } }

/-- A state with one response of the host to come, of one command. -/
def answering (s : State) (c : Command) : State := { s with host := ⟨[], [], [[c]]⟩ }

/-- A response whose one command is no ADVANCE. -/
theorem answering_held {s : State} {c : Command} {i : Instr} (h : decode c = .ok i) (hi : ∀ n, i ≠ .advance n) :
    (answering s c).host.held := by
  intro r hr d hd n hn
  cases List.mem_singleton.1 hr
  cases List.mem_singleton.1 hd
  rw [h] at hn
  exact hi n (Except.ok.inj hn)

/-- A response whose one command is an ADVANCE. -/
theorem answering_advance {s : State} {c : Command} {n : Timestamp} (h : decode c = .ok (.advance n)) :
    ∃ r, (answering s c).host.responses.head? = some r ∧ ¬ noAdvance r :=
  ⟨_, rfl, fun k => k c (List.mem_singleton.2 rfl) n h⟩

/-- Without a response there is no ADVANCE in it. -/
theorem demo_held : demo.host.held := fun _ h => nomatch h

/-- `WRITE16.MMIO DISPCNT, 0x1234` and `ADVANCE 1` as commands. -/
def writeCommand : Command := ⟨0x3401#16, 0x04000000#64, 0x1234#32⟩

def advanceCommand : Command := ⟨0x1200#16, 1#64, 0#32⟩

/-- `demo` with a register bank. -/
def withRegs (r : Regs) : State := { demo with regs := r }

/-! ### Witnesses: a state and operands that meet the hypotheses of each obligation -/

theorem witness_EncodeDecode : decode ⟨0x1000#16, 400#64, 9#32⟩ = .ok (.schedule 400#64 9#32) := by decide

theorem witness_LegalCommands :
    legalCode 0x3702#16 ∧ operandsLegal ⟨0x3702#16, 0x07000000#64, 0xFFFFFFFF#32⟩ ∧
      decode ⟨0x1600#16, 0#64, 0#32⟩ = .error .reservedCode :=
  ⟨.inr (.inl ⟨7, 2, by decide, by decide, by decide, .inr (by decide)⟩),
    ⟨by decide, by decide, by decide, by decide⟩, by decide⟩

theorem witness_StepIssuesCommand : ∃ s : State, ∃ c cs i,
    s.fatal = none ∧ s.sched.firing = none ∧ s.sched.inAdvance = false ∧ s.host.commands = c :: cs ∧
      decode c = .ok i ∧ i.isEvent = false :=
  ⟨{ demo with host := ⟨[⟨0x1300#16, 0#64, 0#32⟩], [], []⟩ }, _, _, .now, rfl, rfl, rfl, rfl, by decide, rfl⟩

theorem witness_CommandsRefused :
    (∃ s : State, ∃ c cs, s.fatal = none ∧ s.sched.firing = none ∧ s.sched.inAdvance = false ∧
      s.host.commands = c :: cs ∧ decode c = .error .reservedCode) ∧
    (∃ s : State, ∃ c cs, s.fatal = none ∧ s.sched.firing = none ∧ s.sched.inAdvance = false ∧
      s.host.commands = c :: cs ∧ ∃ i, decode c = .ok i ∧ i.isEvent = true) ∧
    (Instr.read16Mmio 0x04000058#32).wf = false :=
  ⟨⟨{ demo with host := ⟨[⟨0x1600#16, 0#64, 0#32⟩], [], []⟩ }, _, _, rfl, rfl, rfl, rfl, by decide⟩,
    ⟨{ demo with host := ⟨[⟨0x4000#16, 0#64, 0#32⟩], [], []⟩ }, _, _, rfl, rfl, rfl, rfl, .drawEnd, by decide, rfl⟩,
    by decide⟩

theorem witness_StuckIgnoresCommands : ({ demo with fatal := some .nestedAdvance } : State).fatal ≠ none := by decide

/-- With an empty action the callback returns; with `[ADVANCE 1]` it raises (vector F7). -/
theorem witness_StepRunsCallback :
    (∃ e t, (firing []).fatal = none ∧ (firing []).SchedInv ∧ (firing []).sched.firing = some 2 ∧
      (firing []).sched.event 2 = some e ∧ e.tag = .external 7#32 ∧ exec (.external 7#32) (firing []) = .next t ∧ t.fatal = none) ∧
    (∃ t, (firing [advanceCommand]).SchedInv ∧ exec (.external 7#32) (firing [advanceCommand]) = .next t ∧ t.fatal ≠ none) :=
  ⟨⟨_, _, rfl, threeFiring_inv, rfl, rfl, rfl, rfl, rfl⟩, ⟨_, threeFiring_inv, rfl, by decide⟩⟩

theorem ppuFiring_inv : (ppuFiring .drawEnd).SchedInv ∧ (ppuFiring .hblankEnd).SchedInv :=
  ⟨Checked.inv ⟨by decide, by decide, by decide, by decide, by decide, by decide, by decide⟩,
    Checked.inv ⟨by decide, by decide, by decide, by decide, by decide, by decide, by decide⟩⟩

/-- The PPU's two callbacks return as well (on a line that produces no pixel). -/
theorem witness_StepRunsCallback_ppu :
    (∃ e t, (ppuFiring .drawEnd).sched.event 1 = some e ∧ e.tag = .drawEnd ∧
      exec .drawEnd (ppuFiring .drawEnd) = .next t ∧ t.fatal = none) ∧
    (∃ e t, (ppuFiring .hblankEnd).sched.event 1 = some e ∧ e.tag = .hblankEnd ∧
      exec .hblankEnd (ppuFiring .hblankEnd) = .next t ∧ t.fatal = none) :=
  ⟨⟨_, _, rfl, rfl, rfl, rfl⟩, ⟨_, _, rfl, rfl, rfl, rfl⟩⟩

/-- No event due one cycle before the earliest, one due at it, and the sentinel due. -/
theorem witness_AdvanceTurn :
    ((advancing 9#64).fatal = none ∧ (advancing 9#64).SchedInv ∧ (advancing 9#64).sched.firing = none ∧
      (advancing 9#64).sched.inAdvance = true ∧
      ∀ h e, (advancing 9#64).sched.event h = some e → (advancing 9#64).sched.target < e.ts) ∧
    ((advancing 10#64).SchedInv ∧ (advancing 10#64).params.tiePolicy = .heap ∧
      ∃ e, (advancing 10#64).sched.event 2 = some e ∧ e.ts ≤ (advancing 10#64).sched.target ∧ e.tag ≠ .endOfTime) ∧
    (sentinelDue.SchedInv ∧
      ∃ e, sentinelDue.sched.event 0 = some e ∧ e.ts ≤ sentinelDue.sched.target ∧ e.tag = .endOfTime) := by
  refine ⟨⟨rfl, Checked.inv ⟨by decide, by decide, by decide, by decide, by decide, by decide, by decide⟩, rfl, rfl, ?_⟩,
    ⟨Checked.inv ⟨by decide, by decide, by decide, by decide, by decide, by decide, by decide⟩, rfl, _, rfl, by decide, by decide⟩,
    sentinelDue_inv, _, rfl, by decide, rfl⟩
  intro h e he
  have hm : (h, some e) ∈ three.events := mem_of_get he
  simp only [three, List.mem_cons, Prod.mk.injEq, Option.some.injEq, List.not_mem_nil, or_false] at hm
  rcases hm with ⟨rfl, rfl⟩ | ⟨rfl, rfl⟩ | ⟨rfl, rfl⟩ <;> decide

/-- The largest delay there is room for at `now = 0`. -/
theorem witness_ScheduleInserts :
    demo.fatal = none ∧ demo.SchedInv ∧ demo.params.tsBits ≤ 64 ∧ demo.sched.n < demo.params.schedCapacity ∧
      demo.sched.now.toNat + (0xFFFFFFFFFFFFFFFE#64).toNat < 2 ^ demo.params.tsBits - 1 :=
  ⟨rfl, three_inv, by decide, by decide, by decide⟩

theorem witness_ScheduleFatal :
    full.params.tsBits ≤ 64 ∧ full.sched.n = full.params.schedCapacity ∧
      demo.params.tsBits ≤ 64 ∧ demo.sched.n < demo.params.schedCapacity ∧
      2 ^ demo.params.tsBits - 1 ≤ demo.sched.now.toNat + (0xFFFFFFFFFFFFFFFF#64).toNat := by decide

theorem witness_CancelOutcomes :
    demo.SchedInv ∧ demo.sched.event 3 = none ∧ (∃ e, demo.sched.event 1 = some e ∧ ∀ k, e.tag ≠ .external k) ∧
      ((firing []).SchedInv ∧ ∃ e, (firing []).sched.event 2 = some e ∧ e.tag = .external 7#32 ∧
        (firing []).sched.firing = some 2) ∧
      ∃ e, demo.sched.event 2 = some e ∧ e.tag = .external 7#32 ∧ demo.sched.firing ≠ some 2 :=
  ⟨three_inv, rfl, ⟨_, rfl, fun _ h => nomatch h⟩, ⟨threeFiring_inv, _, rfl, rfl, rfl⟩, _, rfl, rfl, by decide⟩

/-- A nested ADVANCE, and the sums `2^TS_BITS` and `2^TS_BITS - 1` on the two sides of the limit. -/
theorem witness_AdvanceBegins :
    (advancing 9#64).sched.inAdvance = true ∧
      (let s : State := { demo with sched := { three with now := 7#64 } }
       s.params.tsBits ≤ 64 ∧ s.sched.inAdvance = false ∧
        2 ^ s.params.tsBits - 1 < s.sched.now.toNat + (0xFFFFFFFFFFFFFFF9#64).toNat ∧
        s.sched.now.toNat + (0xFFFFFFFFFFFFFFF8#64).toNat ≤ 2 ^ s.params.tsBits - 1) := by decide

theorem witness_TimeQueries : demo.SchedInv := three_inv

theorem witness_HandlesNeverReused :
    demo.SchedInv ∧ step demo = .next demo ∧ 3 < demo.sched.nextHandle ∧ demo.sched.event 3 = none :=
  ⟨three_inv, rfl, by decide, rfl⟩

/-- The first and the last address of palette, object and image memory. -/
theorem witness_memory_ranges :
    0x05000000 ≤ (0x05000000#32).toNat ∧ (0x05FFFFFF#32).toNat < 0x06000000 ∧
      0x07000000 ≤ (0x07000000#32).toNat ∧ (0x07FFFFFF#32).toNat < 0x08000000 ∧
      0x06000000 ≤ (0x06000000#32).toNat ∧ (0x06FFFFFF#32).toNat < 0x07000000 := by decide

/-- Both ends of the hole in mode 3, and what lies beside it and above it in modes 2 and 3. -/
theorem witness_ReadImage :
    vramHole 3 ((0x06018000#32).toNat % 0x20000) ∧ vramHole 3 ((0x0601BFFF#32).toNat % 0x20000) ∧
      ¬ vramHole 2 ((0x06018000#32).toNat % 0x20000) ∧ ¬ vramHole 3 ((0x06017FFF#32).toNat % 0x20000) ∧
      ¬ vramHole 3 ((0x0601C000#32).toNat % 0x20000) := by
  unfold vramHole
  decide

/-- The two sides of the background limit in modes 2 and 3 (WriteImage). -/
theorem witness_WriteImage :
    (if 2 ≤ 2 then 0x10000 else 0x14000) ≤ vramAt ((0x06010000#32).toNat % 0x20000) ∧
      vramAt ((0x0600FFFF#32).toNat % 0x20000) < (if 2 ≤ 2 then 0x10000 else 0x14000) ∧
      (if 3 ≤ 2 then 0x10000 else 0x14000) ≤ vramAt ((0x06014000#32).toNat % 0x20000) ∧
      vramAt ((0x06013FFF#32).toNat % 0x20000) < (if 3 ≤ 2 then 0x10000 else 0x14000) := by decide

/-- A driven register and a halfword that is not, at the first and the last offset. -/
theorem witness_ReadRegisters :
    (0 ≤ 0x57 ∧ (0x04000000#32).toNat = 0x04000000 + 0 ∧ demo.shown (0 / 2 * 2) = some 0#16) ∧
      (0x57 ≤ 0x57 ∧ (0x04000057#32).toNat = 0x04000000 + 0x57 ∧ demo.shown (0x57 / 2 * 2) = none) := by decide

/-- The odd address of the halfword of some registers: each write statement's hypotheses are of this form. -/
theorem witness_write_registers :
    (0x04000001#32).toNat / 2 = 0x04000000 / 2 ∧ (0x04000005#32).toNat / 2 = 0x04000004 / 2 ∧
      (0x04000007#32).toNat / 2 = 0x04000006 / 2 ∧ (0x04000009#32).toNat / 2 = 0x04000008 / 2 ∧
      (0x0400000B#32).toNat / 2 = 0x0400000A / 2 ∧ (0x0400000D#32).toNat / 2 = 0x0400000C / 2 ∧
      (0x0400000F#32).toNat / 2 = 0x0400000E / 2 ∧
      (0x0400001D#32).toNat / 2 = (0x04000010 + 4 * Bg.bg3.index) / 2 ∧
      (0x0400001F#32).toNat / 2 = (0x04000012 + 4 * Bg.bg3.index) / 2 ∧
      (0x04000036#32).toNat / 2 = 0x04000030 / 2 + 3 ∧ (0x0400003F#32).toNat / 2 = 0x04000038 / 2 + 3 ∧
      (0x04000041#32).toNat / 2 = 0x04000040 / 2 ∧ (0x04000055#32).toNat / 2 = 0x04000054 / 2 := by decide

theorem witness_WriteReferencePoint :
    (Aff.k2 = .k2 ∧ 0x04000028 = 0x04000028) ∧ (0x0400002A#32).toNat / 2 = 0x04000028 / 2 + 1 ∧
      (0x08000000#32) = 0x0800#16 ++ (demo.regs.refX.get .k2).extractLsb' 0 16 := by decide

theorem witness_RegisterByteWrites :
    0x57 < 0x58 ∧ (0x04000057#32).toNat = 0x04000000 + 0x57 ∧
      0x56 % 2 = 0 ∧ (0x04000056#32).toNat = 0x04000000 + 0x56 ∧ (0x04000057#32).toNat = 0x04000001 + 0x56 := by decide

theorem witness_WordWriteIsTwoHalves :
    (0x04000054#32).toNat = (0x04000057#32).toNat / 4 * 4 ∧ (0x04000056#32).toNat = (0x04000054#32).toNat + 2 ∧
      Space.mmio.holds 0x04000057#32 = true ∧ Space.pram.holds 0x05FFFFFF#32 = true ∧
      Space.vram.holds 0x06000000#32 = true ∧ Space.oam.holds 0x07FFFFFF#32 = true := by decide

theorem witness_WritesIdempotent : ∃ t,
    isWriteInstr (.write8Mmio 0x04000057#32 0xFF#8) ∧ (Instr.write8Mmio 0x04000057#32 0xFF#8).wf = true ∧ demo.MemInv ∧
      exec (.write8Mmio 0x04000057#32 0xFF#8) demo = .next t :=
  ⟨_, rfl, by decide, demo_mem, rfl⟩

/-- A disengaged line by its number and by its phase; on the last visible line at `now = 8`, pixel 1 is due and pixel 2 is not. -/
theorem witness_CatchUpProduces :
    (onLine 160 .draw).params.vVisible ≤ (onLine 160 .draw).ppu.vcount ∧ (onLine 0 .hblank).ppu.phase = .hblank ∧
      (let s : State := { onLine 159 .draw with sched := { three with now := 8#64 } }
       2 = min s.params.hVisible ((s.sched.now.toNat - s.ppu.ls.toNat) / s.params.cyclesPerDot) ∧
        s.ppu.vcount < s.params.vVisible ∧ s.ppu.phase = .draw ∧ s.line.nextX ≤ 1 ∧ 1 < 2 ∧ 239 < s.params.hVisible ∧ 2 ≤ 239) := by
  decide

/-- Pixel 0, whose production time is 4, at `now = 4`. -/
theorem witness_WritesMissProducedPixels : ∃ t,
    isWriteInstr (.write16Pram 0x05000000#32 0x1234#16) ∧ (Instr.write16Pram 0x05000000#32 0x1234#16).wf = true ∧
      0 < demo.params.cyclesPerDot ∧ demo.ppu.vcount < demo.params.vVisible ∧ demo.ppu.phase = .draw ∧ 0 < demo.params.hVisible ∧
      ({ demo with sched := { three with now := 4#64 } } : State).ppu.ls.toNat + demo.params.cyclesPerDot * (0 + 1) ≤ (4#64).toNat ∧
      exec (.write16Pram 0x05000000#32 0x1234#16) { demo with sched := { three with now := 4#64 } } = .next t :=
  ⟨_, rfl, by decide, by decide, by decide, rfl, by decide, by decide, rfl⟩

/-- The last pixel of a line, under forced blank and not; the four samples exist. -/
theorem witness_PixelStored :
    239 = ({ demo.line with nextX := 239 } : Line).nextX ∧ 239 < demo.params.hVisible ∧ 0 = demo.ppu.vcount ∧
      bit (withRegs { Regs.zero with dispcnt := 0x0080#16 }).regs.dispcnt 7 = true ∧ bit demo.regs.dispcnt 7 = false ∧
      ∃ samples : PerBg (Option Colour), ∀ i, samples.get i = (demo.bgPixel i 239 0).1 :=
  ⟨rfl, by decide, rfl, by decide, by decide, ⟨_, _, _, _⟩, fun i => by cases i <;> rfl⟩

/-- Mode 6, BG0 in mode 2, BG3 in mode 1, a disabled layer. -/
theorem witness_LayerVisibility :
    6 ≤ (withRegs { Regs.zero with dispcnt := 6#16 }).mode ∧
      (2 ≤ (withRegs { Regs.zero with dispcnt := 2#16 }).mode ∧ Bg.bg1.index ≤ 1) ∧
      ((withRegs { Regs.zero with dispcnt := 1#16 }).mode ≠ 0 ∧ (withRegs { Regs.zero with dispcnt := 1#16 }).mode ≠ 2) ∧
      bit demo.regs.dispcnt (8 + Bg.bg0.index) = false := by decide

/-- An enabled layer of each kind: text in modes 0 and 1, affine in modes 1 and 2, bitmap in modes 3 and 5. -/
theorem witness_LayerVisibility_kinds :
    (let s := withRegs { Regs.zero with dispcnt := 0x0800#16 }
     bit s.regs.dispcnt (8 + Bg.bg3.index) = true ∧ s.mode = 0) ∧
    (let s := withRegs { Regs.zero with dispcnt := 0x0601#16 }
     bit s.regs.dispcnt (8 + Bg.bg1.index) = true ∧ bit s.regs.dispcnt (8 + Bg.bg2.index) = true ∧ s.mode = 1 ∧ Bg.bg1.index ≤ 1) ∧
    (let s := withRegs { Regs.zero with dispcnt := 0x0C02#16 }
     bit s.regs.dispcnt (8 + Bg.bg2.index) = true ∧ bit s.regs.dispcnt (8 + Bg.bg3.index) = true ∧ s.mode = 2) ∧
    (let s := withRegs { Regs.zero with dispcnt := 0x0403#16 }
     bit s.regs.dispcnt (8 + Bg.bg2.index) = true ∧ 3 ≤ s.mode ∧ s.mode ≤ 5) ∧
    (let s := withRegs { Regs.zero with dispcnt := 0x0405#16 }
     bit s.regs.dispcnt (8 + Bg.bg2.index) = true ∧ 3 ≤ s.mode ∧ s.mode ≤ 5) := by decide

/-- An enabled text layer without mosaic; one with it, at a block's first pixel and inside a block. -/
theorem witness_LayerVisibility_mosaic :
    (let s := withRegs { Regs.zero with dispcnt := 0x0100#16 }
     bit s.regs.dispcnt (8 + Bg.bg0.index) = true ∧ s.mode = 0 ∧ bit (s.regs.bgcnt.get .bg0) 6 = false) ∧
    (let s := withRegs { Regs.zero with dispcnt := 0x0100#16, bgcnt := ⟨0x0040#16, 0#16, 0#16, 0#16⟩, mosaic := 3#16 }
     bit s.regs.dispcnt (8 + Bg.bg0.index) = true ∧ s.mode = 0 ∧ bit (s.regs.bgcnt.get .bg0) 6 = true ∧
      4 % (s.regs.mosaic.toNat % 16 + 1) = 0 ∧ 3 % (s.regs.mosaic.toNat % 16 + 1) ≠ 0) := by decide

/-- An 8-bit and a 4-bit layer; a mosaic one on two lines of a block; a 256x256 one without mosaic. -/
theorem witness_TextLayers :
    (0x0080#16).toNat / 128 % 2 = 1 ∧ (demo.regs.bgcnt.get .bg0).toNat / 128 % 2 = 0 ∧
    (let s := withRegs { Regs.zero with bgcnt := ⟨0x0040#16, 0#16, 0#16, 0#16⟩, mosaic := 0x0010#16 }
     bit (s.regs.bgcnt.get .bg0) 6 = true ∧
      0 / (s.regs.mosaic.toNat / 16 % 16 + 1) = 1 / (s.regs.mosaic.toNat / 16 % 16 + 1)) ∧
    (bit (demo.regs.bgcnt.get .bg0) 6 = false ∧ (demo.regs.bgcnt.get .bg0).toNat / 0x4000 = 0) := by decide

/-- R123, R267: an 8-bit layer with character block 1; the map entry at 0 flips both ways, so pixel (0, 0) is texel (7, 7) of tile 0, index 5. -/
theorem test_text_8bpp :
    ({ withRegs { Regs.zero with bgcnt := ⟨0x0084#16, 0#16, 0#16, 0#16⟩ } with
      vram := [(1, 0x0C#8), (0x403F, 5#8)], pram := [(10, 0x34#8), (11, 0x12#8)] } : State).textSample .bg0 0 0 =
      some 0x1234#15 := by decide

/-- R123, R267: a 4-bit layer; the map entry at 0 selects palette 3, and pixel (1, 0) is the high nibble 5 of the tile's first byte: entry 53. -/
theorem test_text_4bpp :
    ({ withRegs { Regs.zero with bgcnt := ⟨0x0004#16, 0#16, 0#16, 0#16⟩ } with
      vram := [(1, 0x30#8), (0x4000, 0x50#8)], pram := [(106, 0x34#8), (107, 0x12#8)] } : State).textSample .bg0 1 0 =
      some 0x1234#15 := by decide

/-- Inside a layer with wrapping and without; one layer width apart with wrapping; the first texel outside without. -/
theorem witness_AffineEdges :
    (let s := withRegs { Regs.zero with bgcnt := ⟨0#16, 0#16, 0x2000#16, 0#16⟩ }
     let t : State := { s with line := { s.line with ax := ⟨0xFFFFFF00#32, 0#32⟩ } }
     128 = 128 * 2 ^ ((t.regs.bgcnt.get Aff.k2.bg).toNat / 0x4000) ∧ bit (t.regs.bgcnt.get Aff.k2.bg) 13 = true ∧
      (t.line.ax.get .k2).toInt / 256 % (128 : Nat) = (127 : Nat) ∧ (t.line.ay.get .k2).toInt / 256 % (128 : Nat) = (0 : Nat)) ∧
    (let s : State := { demo with line := { demo.line with ax := ⟨0x7F00#32, 0#32⟩ } }
     bit (s.regs.bgcnt.get Aff.k2.bg) 13 = false ∧
      (s.line.ax.get .k2).toInt / 256 = (127 : Nat) ∧ (s.line.ay.get .k2).toInt / 256 = (0 : Nat)) ∧
    (let s := withRegs { Regs.zero with bgcnt := ⟨0#16, 0#16, 0x2000#16, 0#16⟩ }
     let t : State := { s with line := { s.line with ax := ⟨0x8000#32, 0#32⟩ } }
     128 = 128 * 2 ^ ((s.regs.bgcnt.get Aff.k2.bg).toNat / 0x4000) ∧ bit (s.regs.bgcnt.get Aff.k2.bg) 13 = true ∧
      (t.line.ax.get .k2).toInt = (s.line.ax.get .k2).toInt + 256 * (128 : Nat) * 1 ∧
      (t.line.ay.get .k2).toInt = (s.line.ay.get .k2).toInt + 256 * (128 : Nat) * 0) ∧
    (let s : State := { demo with line := { demo.line with ax := ⟨0x8000#32, 0#32⟩ } }
     bit (s.regs.bgcnt.get Aff.k2.bg) 13 = false ∧ ((128 : Nat) : Int) ≤ (s.line.ax.get .k2).toInt / 256) := by decide

/-- R124, R270: map entry 1 at column 8 (screen block 0), tile 1 in character block 1, its texel (0, 0) of index 5. -/
theorem test_affine :
    ({ withRegs { Regs.zero with bgcnt := ⟨0#16, 0#16, 0x0004#16, 0#16⟩ } with
      line := { demo.line with ax := ⟨0x0800#32, 0#32⟩ }
      vram := [(1, 1#8), (0x4040, 5#8)], pram := [(10, 0x34#8), (11, 0x12#8)] } : State).affineSample .k2 =
      some 0x1234#15 := by decide

/-- The last texel of each bitmap mode, and the first beyond it. -/
theorem witness_BitmapSamples :
    (let s : State := { withRegs { Regs.zero with dispcnt := 3#16 } with
      line := { demo.line with ax := ⟨0xEF00#32, 0#32⟩, ay := ⟨0x9F00#32, 0#32⟩ } }
     s.mode = 3 ∧ s.line.ax.k2.toInt / 256 = (239 : Nat) ∧ s.line.ay.k2.toInt / 256 = (159 : Nat)) ∧
    (withRegs { Regs.zero with dispcnt := 4#16 }).mode = 4 ∧
    (let s : State := { withRegs { Regs.zero with dispcnt := 5#16 } with
      line := { demo.line with ax := ⟨0x9F00#32, 0#32⟩, ay := ⟨0x7F00#32, 0#32⟩ } }
     s.mode = 5 ∧ s.line.ax.k2.toInt / 256 = (159 : Nat) ∧ s.line.ay.k2.toInt / 256 = (127 : Nat)) ∧
    (let s : State := { demo with line := { demo.line with ax := ⟨0xFFFFFFFF#32, 0#32⟩ } }
     s.line.ax.k2.toInt / 256 < 0) := by decide

/-- Objects enabled, OAM all zero: with tile 0 of index 1 every object draws at (0, 0) and object 0 wins; with it transparent none does. -/
theorem witness_ObjectWinner :
    (let s : State := { withRegs { Regs.zero with dispcnt := 0x1040#16 } with vram := [(0x10000, 1#8)] }
     bit s.regs.dispcnt 12 = true ∧ s.objDraws 0 0 0 0#15 ∧
      ∀ j d, s.objDraws 0 0 j d →
        (s.objAttr 0).prio.toNat < (s.objAttr j).prio.toNat ∨ (s.objAttr 0).prio = (s.objAttr j).prio ∧ 0 ≤ j) ∧
    (∀ i c, ¬ (withRegs { Regs.zero with dispcnt := 0x1040#16 }).objDraws 0 0 i c) ∧
    bit demo.regs.dispcnt 12 = false := by
  refine ⟨⟨by decide, ⟨by decide, by decide, by decide⟩, fun _ _ _ => .inr ⟨rfl, Nat.zero_le _⟩⟩, ?_, by decide⟩
  intro i c h
  obtain ⟨-, h2, -⟩ := h
  have h0 : (withRegs { Regs.zero with dispcnt := 0x1040#16 }).objAt
      ((withRegs { Regs.zero with dispcnt := 0x1040#16 }).objAttr 0) 0 0 = none := by decide
  have hi : (withRegs { Regs.zero with dispcnt := 0x1040#16 }).objAttr i =
      (withRegs { Regs.zero with dispcnt := 0x1040#16 }).objAttr 0 := rfl
  rw [hi, h0] at h2
  cases h2

/-- R126 and R282: every size is in the table's range; the last position of an object without mosaic, and one under a mosaic of 4x4 blocks. -/
theorem witness_ObjectFootprint :
    (ObjAttr.ofHalves 0xFFFF#16 0xFFFF#16 0xFFFF#16).shape < 4 ∧ (ObjAttr.ofHalves 0xFFFF#16 0xFFFF#16 0xFFFF#16).size < 4 ∧
    ((ObjAttr.ofHalves 0#16 0#16 0#16).mosaic = false ∧
      Regs.zero.footprint (ObjAttr.ofHalves 0#16 0#16 0#16) 7 7 = some (7, 7)) ∧
    ((ObjAttr.ofHalves 0x1000#16 0#16 0#16).mosaic = true ∧
      ({ Regs.zero with mosaic := 0x3300#16 } : Regs).footprint (ObjAttr.ofHalves 0x1000#16 0#16 0#16) 5 7 = some (4, 4)) := by
  decide

/-- A flipped 8x8 object; an affine one whose group 0 is the identity; a double-size one whose group 0 doubles: `0x100 * (dx, dy)` with
`(dx, dy) = (4, 4)` is texel (0, 0) plus 4 plus 4, so outside, and `(dx, dy) = (-4, 3)` is texel (0, 7). -/
theorem witness_ObjectTexels :
    ((ObjAttr.ofHalves 0#16 0x3000#16 0#16).affine = false ∧
      Regs.zero.footprint (ObjAttr.ofHalves 0#16 0x3000#16 0#16) 7 0 = some (7, 0)) ∧
    (let s : State := { demo with oam := [(7, 1#8), (31, 1#8)] }
     let o := ObjAttr.ofHalves 0x0100#16 0#16 0#16
     o.affine = true ∧ o.bit9 = false ∧ s.affineParam o.group 0 = 0x100 ∧ s.affineParam o.group 1 = 0 ∧
      s.affineParam o.group 2 = 0 ∧ s.affineParam o.group 3 = 0x100 ∧ 7 < o.box.1 ∧ 7 < o.box.2) ∧
    (let s : State := { demo with oam := [(7, 1#8), (31, 1#8)] }
     let o := ObjAttr.ofHalves 0x0300#16 0#16 0#16
     o.affine = true ∧ o.box = (16, 16) ∧ s.objTexel o 12 12 = none ∧ s.objTexel o 4 11 = some (0, 7)) := by decide

/-- The hidden half in mode 3; the first address of the other half, in mode 3 too; an 8-bit and a 4-bit object. -/
theorem witness_ObjectTileRange :
    (let s := withRegs { Regs.zero with dispcnt := 3#16 }
     3 ≤ s.mode ∧ s.regs.objTexelAddr (ObjAttr.ofHalves 0#16 0#16 0#16) 0 0 < 0x14000 ∧
      0x14000 ≤ s.regs.objTexelAddr (ObjAttr.ofHalves 0#16 0#16 512#16) 0 0) ∧
    demo.mode ≤ 2 ∧ (ObjAttr.ofHalves 0x2000#16 0#16 0#16).bpp8 = true ∧ (ObjAttr.ofHalves 0#16 0#16 0#16).bpp8 = false := by decide

/-- R279: a 4-bit object of palette 2, whose texel (1, 0) is the high nibble 5: entry `0x200 / 2 + 37`. -/
theorem test_obj_color_4bpp :
    ({ demo with vram := [(0x10000, 0x50#8)], pram := [(0x24A, 0x34#8), (0x24B, 0x12#8)] } : State).objColor
      (ObjAttr.ofHalves 0#16 0#16 0x2000#16) 1 0 = some 0x1234#15 := by decide

/-- No window; window 0, window 1, the object window and the outside, each in force. -/
theorem witness_WindowRules :
    Regs.zero.dispcnt.toNat / 0x2000 = 0 ∧ (0x8000#16).toNat / 0x2000 ≠ 0 ∧
      Sparse.get false ({ Line.zero with win0 := [(239, true)] } : Line).win0 239 = true ∧
      Sparse.get false ({ Line.zero with win1 := [(0, true)] } : Line).win0 0 = false ∧
      Sparse.get false ({ Line.zero with win1 := [(0, true)] } : Line).win1 0 = true ∧
      (bit 0x8000#16 15 = true ∧ Sparse.get false ({ Line.zero with objwin := [(0, true)] } : Line).objwin 0 = true) ∧
      bit 0x2000#16 15 = false := by decide

/-- Nothing at the pixel; an object alone; an object over two backgrounds. -/
theorem witness_TopTwoLayers :
    candidates Regs.zero 0x3F#6 ⟨none, none, none, none⟩ ObjEntry.clear = [] ∧
    (let l := candidates Regs.zero 0x3F#6 ⟨none, none, none, none⟩ ⟨true, 1#15, 0#2, false⟩
     ∃ a ∈ l, (∀ c ∈ l, c ≠ a → a.key < c.key) ∧ ∀ c ∈ l, c = a) ∧
    (let l := candidates Regs.zero 0x3F#6 ⟨some 2#15, some 3#15, none, none⟩ ⟨true, 1#15, 0#2, false⟩
     ∃ a ∈ l, (∀ c ∈ l, c ≠ a → a.key < c.key) ∧
      ∃ b ∈ l, b ≠ a ∧ ∀ c ∈ l, c ≠ a → c ≠ b → b.key < c.key) := by decide

theorem witness_BlendChannels :
    (fun c : Colour => c.toNat / 1024) = (fun c => c.toNat % 32) ∨ (fun c : Colour => c.toNat / 1024) = (fun c => c.toNat / 32 % 32) ∨
      (fun c : Colour => c.toNat / 1024) = (fun c => c.toNat / 1024) := .inr (.inr rfl)

/-- A semi-transparent object over BG0 as second target; no first target; the four modes with the object as first target. -/
theorem witness_EffectSelection :
    bit 0x0100#16 (8 + (Layer.bg .bg0).index) = true ∧ bit Regs.zero.bldcnt Layer.obj.index = false ∧
      bit 0x0010#16 Layer.obj.index = true ∧ (0x0010#16).toNat / 64 % 4 = 0 ∧ (0x0050#16).toNat / 64 % 4 = 1 ∧
      (0x0090#16).toNat / 64 % 4 = 2 ∧ (0x00D0#16).toNat / 64 % 4 = 3 ∧
      bit 0x00D0#16 (8 + (Layer.bg .bg0).index) = false := by decide

/-- A visible line with no response; the first line of the blank with one, and no call. -/
theorem witness_DrawEndEffect :
    (demo.fatal = none ∧ demo.SchedInv ∧ demo.params.tsBits ≤ 64 ∧ demo.sched.n < demo.params.schedCapacity ∧
      demo.sched.now.toNat + demo.params.cyclesHBlank < 2 ^ demo.params.tsBits - 1 ∧ demo.host.responses = []) ∧
    (let s := answering (onLine 160 .draw) writeCommand
     s.fatal = none ∧ s.SchedInv ∧ s.params.vVisible ≤ s.ppu.vcount ∧ bit s.regs.dispstat 4 = false) :=
  ⟨⟨rfl, three_inv, by decide, by decide, by decide, rfl⟩, rfl, three_inv, by decide, by decide⟩

/-- Lines 160 and 0 with no response, and line 227 whatever the responses. -/
theorem witness_HblankEndEffect :
    (let s := onLine 159 .hblank
     s.fatal = none ∧ s.SchedInv ∧ s.params.tsBits ≤ 64 ∧ s.sched.n < s.params.schedCapacity ∧
      s.sched.now.toNat + s.params.cyclesDraw < 2 ^ s.params.tsBits - 1 ∧ 160 = (s.ppu.vcount + 1) % s.params.vTotal ∧
      s.host.responses = []) ∧
    (0 = ((onLine 227 .hblank).ppu.vcount + 1) % (onLine 227 .hblank).params.vTotal ∧ (onLine 227 .hblank).host.responses = []) ∧
    (let s := answering (onLine 226 .hblank) writeCommand
     227 = (s.ppu.vcount + 1) % s.params.vTotal ∧ 227 ≠ s.params.vVisible ∧ 227 ≠ 0 ∧
      ¬ (227 = s.regs.dispstat.toNat / 256 ∧ bit s.regs.dispstat 5 = true)) :=
  ⟨⟨rfl, three_inv, by decide, by decide, by decide, by decide, rfl⟩, ⟨by decide, rfl⟩, by decide⟩

/-- A response that writes DISPCNT. -/
theorem witness_DmaResponseKeepsTiming :
    (let s := answering demo writeCommand
     s.fatal = none ∧ s.SchedInv ∧ s.params.tsBits ≤ 64 ∧ s.sched.n < s.params.schedCapacity ∧
      s.sched.now.toNat + s.params.cyclesHBlank < 2 ^ s.params.tsBits - 1 ∧
      s.sched.now.toNat + s.params.cyclesDraw < 2 ^ s.params.tsBits - 1 ∧ 1 = (s.ppu.vcount + 1) % s.params.vTotal ∧ s.host.held) :=
  ⟨rfl, three_inv, by decide, by decide, by decide, by decide, by decide,
    answering_held (i := .write16Mmio 0x04000000#32 0x1234#16) (by decide) (fun _ h => nomatch h)⟩

/-- A response that advances, to each kind of first call: the notification of a visible line, the interrupt request of a line in the blank, the notification
of the vertical blank, the hand-off, the line compare. -/
theorem witness_DmaResponseKeepsTiming_advance :
    (let s := answering demo advanceCommand
     s.SchedInv ∧ (∃ r, s.host.responses.head? = some r ∧ ¬ noAdvance r) ∧ s.ppu.vcount < s.params.vVisible) ∧
    (let s := answering { onLine 160 .draw with regs := { Regs.zero with dispstat := 0x0010#16 } } advanceCommand
     s.SchedInv ∧ (∃ r, s.host.responses.head? = some r ∧ ¬ noAdvance r) ∧ bit s.regs.dispstat 4 = true) ∧
    (let s := answering (onLine 159 .hblank) advanceCommand
     s.SchedInv ∧ (∃ r, s.host.responses.head? = some r ∧ ¬ noAdvance r) ∧ (s.ppu.vcount + 1) % s.params.vTotal = s.params.vVisible) ∧
    (let s := answering (onLine 227 .hblank) advanceCommand
     s.SchedInv ∧ (∃ r, s.host.responses.head? = some r ∧ ¬ noAdvance r) ∧ (s.ppu.vcount + 1) % s.params.vTotal = 0) ∧
    (let s := answering { onLine 9 .hblank with regs := { Regs.zero with dispstat := 0x0A20#16 } } advanceCommand
     s.SchedInv ∧ (∃ r, s.host.responses.head? = some r ∧ ¬ noAdvance r) ∧
      (s.ppu.vcount + 1) % s.params.vTotal = s.regs.dispstat.toNat / 256 ∧ bit s.regs.dispstat 5 = true) :=
  ⟨⟨three_inv, answering_advance (n := 1#64) (by decide), by decide⟩, ⟨three_inv, answering_advance (n := 1#64) (by decide), by decide⟩,
    ⟨three_inv, answering_advance (n := 1#64) (by decide), by decide⟩, ⟨three_inv, answering_advance (n := 1#64) (by decide), by decide⟩,
    three_inv, answering_advance (n := 1#64) (by decide), by decide⟩

/-- R247: the commands of a response run in order, after the notification and before the rest of the handler: a WRITE, then a READ that sees it. -/
theorem test_dma_order :
    gives .hblankEnd { onLine 159 .hblank with host := ⟨[], [], [[writeCommand, ⟨0x2401#16, 0x04000000#64, 0#32⟩], []]⟩ }
      (fun t => t.trace == [.dmaNotify .vblank 0#64, .read (.r16 (.driven 0x1234#16))] && t.host.responses == [[]]) = true := by decide

/-- R6, R241: the host answers the hand-off with a write of LYC, which lands before the line compare: line 0 no longer matches. -/
theorem test_handoff_write :
    gives .hblankEnd (answering (onLine 227 .hblank) ⟨0x3401#16, 0x04000004#64, 0x0500#32⟩)
      (fun t => t.regs.dispstat == 0x0500#16 && t.trace == [.present [] 0#64]) = true := by decide

/-- R6, R243: the write that answers the interrupt request lands before the DMA notification, whose response reads it. -/
theorem test_irq_write :
    gives .hblankEnd
      { onLine 159 .hblank with
        regs := { Regs.zero with dispstat := 0x0008#16 }
        host := ⟨[], [], [[writeCommand], [⟨0x2401#16, 0x04000000#64, 0#32⟩]]⟩ }
      (fun t => t.trace ==
        [.irqRequest .vblank 0#64, .dmaNotify .vblank 0#64, .read (.r16 (.driven 0x1234#16))]) = true := by decide

/-- R336, R373: an ADVANCE in the response to a DMA notification is fatal. -/
theorem test_dma_advance :
    gives .hblankEnd (answering (onLine 159 .hblank) advanceCommand) (fun t => t.fatal == some .nestedAdvance) = true := by decide

/-- R373, R90: a write in the response lands before the handler goes on. -/
theorem test_dma_write :
    gives .hblankEnd (answering (onLine 159 .hblank) writeCommand)
      (fun t => t.regs.dispcnt == 0x1234#16 && t.fatal == none && t.ppu.vcount == 160) = true := by decide

theorem witness_PpuInsertFatal :
    full.fatal = none ∧ full.SchedInv ∧ full.sched.n = full.params.schedCapacity ∧ full.host.held :=
  ⟨rfl, three_inv, by decide, demo_held⟩

/-- The empty action, and one of two commands, an EVENT that is refused and an ADVANCE that raises. -/
theorem witness_ExternalRunsAction :
    (demo.fatal = none ∧ demo.host.actionOf 7#32 = [] ∧ demo.SchedInv) ∧
    (let s := firing [⟨0x4000#16, 0#64, 0#32⟩, advanceCommand]
     s.fatal = none ∧ s.host.actionOf 7#32 = [⟨0x4000#16, 0#64, 0#32⟩, advanceCommand] ∧ s.SchedInv) :=
  ⟨⟨rfl, rfl, three_inv⟩, rfl, rfl, threeFiring_inv⟩

theorem witness_MemoryInvariant : demo.MemInv ∧ step demo = .next demo := ⟨demo_mem, rfl⟩

theorem witness_RegisterInvariant : demo.regs.Inv ∧ step demo = .next demo := ⟨demo_regs, rfl⟩

theorem witness_SchedulerInvariant : ∃ t, (firing []).SchedInv ∧ step (firing []) = .next t := ⟨_, threeFiring_inv, rfl⟩

theorem witness_TimelineInvariant : demo.Inv ∧ step demo = .next demo := ⟨demo_inv, rfl⟩

theorem witness_EveryStepCompletes : (advancing 10#64).SchedInv := advancing_inv

theorem witness_TimeNeverDecreases : ∃ t, (advancing 10#64).SchedInv ∧ step (advancing 10#64) = .next t :=
  ⟨_, witness_EveryStepCompletes, rfl⟩

theorem witness_TraceGrows : ∃ s t : State, step s = .next t ∧ s.fatal ≠ none :=
  ⟨{ demo with fatal := some .nestedAdvance }, _, rfl, by decide⟩

/-- R8: parameters other than the defaults, with the least capacity, 10-bit timestamps and no spare line. -/
def smallParams : Params :=
  { Params.default with schedCapacity := 2, tsBits := 10, cyclesPerDot := 1, hVisible := 8, vVisible := 4, vTotal := 5, cyclesDraw := 8, cyclesHBlank := 0 }

theorem witness_ResetProcedure : Params.default.Legal ∧ smallParams.Legal :=
  ⟨default_legal, by decide, by decide, by decide, by decide, by decide, by decide, by decide, by decide⟩

/-- Memories that list a byte at their last offset, and a frame its last pixel. -/
theorem witness_ResetInvariant :
    smallParams.Legal ∧ Sparse.bounded 0#8 0x400 [(0x3FF, 1#8)] ∧
      Sparse.bounded 0#8 0x18000 [(0x17FFF, 1#8)] ∧
      Sparse.bounded 0#15 (smallParams.hVisible * smallParams.vVisible) [(31, 1#15)] :=
  ⟨witness_ResetProcedure.2, ⟨by decide, by decide⟩, ⟨by decide, by decide⟩, ⟨by decide, by decide⟩⟩

/-- R8, R25, R333: with 10-bit timestamps the sentinel stands at 1023, and a SCHEDULE at it overflows. -/
theorem test_small_params :
    gives (.schedule 1023#64 0#32) { State.resetWith smallParams ⟨[], [], []⟩ [] [] [] [] with params := { smallParams with schedCapacity := 3 } }
      (fun t => t.fatal == some (.timestampOverflow 1023#64) && (t.sched.event 0).map Event.ts == some 1023#64) = true := by decide

end Sys2Proof.Tests
end

section
/-! SUPPORT. The statements of 00_scope.md: what a step is (R6), what every step keeps (R7, R9, R20, R28, R51 to R54), the invariant of the state after
reset (R56, R164, R246), and the host's responses to the calls of the scanline callbacks (R6, R247, R336, R373). -/

namespace Sys2Proof.Machine

/-! ### One step -/

/-- With no fatal error, no callback and no ADVANCE in progress a step is the host's turn (R6). -/
theorem step_of_ready {s : State} (hfatal : s.fatal = none) (hfiring : s.sched.firing = none) (hadv : s.sched.inAdvance = false) :
    step s = hostTurn s := by
  simp [step, hfatal, hfiring, hadv]

/-- Once a fatal error stands, a step only moves the host's stream on (R331). -/
theorem step_of_fatal {s : State} (h : s.fatal ≠ none) : step s = .next s.took := by
  unfold step
  rw [if_pos (Option.isSome_iff_ne_none.2 h)]
  rfl

/-- A command that decodes to no EVENT is run as what it decodes to (R118). -/
theorem issueWith_of_decode {run : Instr → State → Result} {c : Command} {i : Instr} (hd : decode c = .ok i) (he : i.isEvent = false) (s : State) :
    issueWith run c s = run i s := by
  unfold issueWith
  simp [hd, he]

/-- Settles O6: a ready block takes the host's turn, which issues the head of the stream. -/
theorem stepIssuesCommand : Obligations.StepIssuesCommand := by
  intro s c cs i hfatal hfiring hadv hcmds hd he
  have ht : s.took = { s with host := { s.host with commands := cs } } := by
    simp [State.took, State.setHost, hcmds]
  calc step s = hostTurn s := step_of_ready hfatal hfiring hadv
    _ = issueWith exec c s.took := by unfold hostTurn; rw [hcmds]
    _ = exec i _ := by rw [issueWith_of_decode hd he, ht]

/-! ### What every step keeps -/

/-- Settles O52: the memory part of what every step keeps (`step_basic`). -/
theorem memoryInvariant : Obligations.MemoryInvariant :=
  fun s t hm ht => (step_basic s t ht).mem hm

/-- Settles O58: the trace and the parameters by what every step keeps (`step_basic`), the fatal mark because a stuck block only moves the host's stream on. -/
theorem traceGrows : Obligations.TraceGrows := by
  intro s t ht
  obtain ⟨hparams, htrace, -, -, -⟩ := step_basic s t ht
  refine ⟨htrace, fun hfatal => ?_, hparams⟩
  rw [step_of_fatal hfatal] at ht
  cases ht
  rfl

/-! ### The state after reset -/

/-- The sentinel's timestamp as a number (R25), for timestamps of at most 64 bits. -/
theorem tsMax_toNat {p : Params} (h : p.tsBits ≤ 64) : p.tsMax.toNat = 2 ^ p.tsBits - 1 := by
  have hle : 2 ^ p.tsBits ≤ 2 ^ 64 := Nat.pow_le_pow_right (by omega) h
  unfold Params.tsMax
  rw [BitVec.toNat_ofNat, Nat.mod_eq_of_lt (by omega)]

/-- A number of cycles that ends before the sentinel fits a timestamp. -/
theorem toNat_ofNat_of_lt_tsMax {p : Params} {n : Nat} (h : n < p.tsMax.toNat) : (BitVec.ofNat 64 n).toNat = n := by
  have := p.tsMax.isLt
  rw [BitVec.toNat_ofNat, Nat.mod_eq_of_lt (by omega)]

/-- A line ends before the sentinel, so its draw phase does. -/
theorem cyclesDraw_lt_tsMax {p : Params} (h : p.Legal) : p.cyclesDraw < p.tsMax.toNat := by
  have hline := h.line
  rw [tsMax_toNat h.bits]
  unfold Params.cyclesLine at hline
  omega

section
variable {p : Params} {host : HostInput} {pram oam vram : Memory} {fb : Frame}

/-- The two events of reset: the sentinel and the PPU's first DRAW_END (R360). -/
theorem State.event_resetWith {h : Nat} {e : Event} (he : (State.resetWith p host pram oam vram fb).sched.event h = some e) :
    (h = 0 ∧ e = ⟨p.tsMax, .endOfTime, 1⟩) ∨ (h = 1 ∧ e = ⟨BitVec.ofNat 64 p.cyclesDraw, .drawEnd, 0⟩) := by
  match h with
  | 0 => exact .inl ⟨rfl, (Option.some.inj he).symm⟩
  | 1 => exact .inr ⟨rfl, (Option.some.inj he).symm⟩
  | _ + 2 => simp [State.resetWith, Sched.event, Sparse.get] at he

theorem State.linked_resetWith : (State.resetWith p host pram oam vram fb).sched.Linked where
  events_wf := by simp [State.resetWith, Sparse.wf]
  live := fun i h hh => by
    match i with
    | 0 => cases hh; exact ⟨_, rfl, rfl⟩
    | 1 => cases hh; exact ⟨_, rfl, rfl⟩
    | _ + 2 => simp [State.resetWith] at hh
  slot := fun h e he => by
    rcases State.event_resetWith he with ⟨rfl, rfl⟩ | ⟨rfl, rfl⟩ <;> rfl

/-- The scheduler after reset meets its invariants: the draw phase ends before the sentinel (R25, R164, R360). -/
theorem State.schedInv_resetWith (hp : p.Legal) : (State.resetWith p host pram oam vram fb).SchedInv := by
  have hlt : BitVec.ofNat 64 p.cyclesDraw < p.tsMax := by
    rw [BitVec.lt_def, toNat_ofNat_of_lt_tsMax (cyclesDraw_lt_tsMax hp)]
    exact cyclesDraw_lt_tsMax hp
  refine
    { linked := State.linked_resetWith, ordered := fun i h0 hn => ?_, sentinel := ⟨_, rfl, rfl, rfl⟩
      oneSentinel := fun h e he h0 => ?_, notPast := fun _ e _ => Nat.zero_le e.ts.toNat, issued := fun h e he => ?_
      someIssued := by simp [State.resetWith], target := fun ha => absurd ha (by simp [State.resetWith])
      firing := fun h hf => absurd hf (by simp [State.resetWith]) }
  · have hi : i = 1 := by simp [State.resetWith, Sched.n] at hn; omega
    subst hi
    exact BitVec.le_of_lt hlt
  · rcases State.event_resetWith he with ⟨rfl, rfl⟩ | ⟨rfl, rfl⟩
    · exact absurd rfl h0
    · exact ⟨by simp, hlt⟩
  · rcases State.event_resetWith he with ⟨rfl, rfl⟩ | ⟨rfl, rfl⟩ <;> simp [State.resetWith]

/-- After reset the PPU's first DRAW_END is pending at the end of line 0's draw phase (R246, R360). -/
theorem State.timeline_resetWith (hp : p.Legal) : (State.resetWith p host pram oam vram fb).Timeline where
  pending := ⟨_, rfl, rfl, (toNat_ofNat_of_lt_tsMax (cyclesDraw_lt_tsMax hp)).trans (Nat.zero_add _).symm⟩
  only := fun h e he htag => by
    rcases State.event_resetWith he with ⟨rfl, rfl⟩ | ⟨rfl, rfl⟩
    · cases htag
    · rfl
  begun := BitVec.le_refl _
  frame := by simp [State.resetWith]
  hblank := by simp [State.resetWith, Regs.hblank, Regs.zero, bit]
  vblank := by
    have := hp.visible
    simp [State.resetWith, Regs.vblank, Regs.zero, bit]
    omega
  produced := by simp [State.resetWith, Line.zero]

end

/-- Every register at 0 stores no bit outside its mask (R29, R56). -/
theorem Regs.inv_zero : Regs.zero.Inv where
  dispcnt := rfl
  dispstat := rfl
  bg0cnt := rfl
  bg1cnt := rfl
  hofs := fun i => by cases i <;> rfl
  vofs := fun i => by cases i <;> rfl
  refX := fun k => by cases k <;> rfl
  refY := fun k => by cases k <;> rfl
  winin := rfl
  winout := rfl
  bldcnt := rfl
  bldalpha := rfl
  bldy := rfl

/-- Settles O60: each part of the invariant, from the two events of reset and the empty line. -/
theorem resetInvariant : Obligations.ResetInvariant := by
  intro p host pram oam vram fb hp hpram hoam hvram hfb
  exact
    { mem := ⟨hpram, hoam, hvram, hfb, Sparse.bounded_nil _ _, Sparse.bounded_nil _ _, Sparse.bounded_nil _ _, Sparse.bounded_nil _ _, Nat.zero_le _⟩
      regs := Regs.inv_zero
      params := hp
      vcount := Nat.lt_trans hp.visible hp.blank
      sched := State.schedInv_resetWith hp
      capacity := hp.capacity
      timeline := fun _ => State.timeline_resetWith hp }

/-! ### Calls of the host inside a handler -/

/-- A call as the statements read it, with what follows it: what follows matters only where the call completes. -/
theorem andThen_callIf_congr {s s' : State} {b b' : Bool} {o o' : Output} {f g : State → Result} (hf : s.fatal = none)
    (hh : s.sched.heap ≠ []) (hs : s = s') (hb : b = b') (ho : o = o') (hfg : ∀ t, s.Called t → f t = g t) :
    andThen (s.callIf b o) f = andThen (s'.calls b' o') g := by
  subst hs hb ho
  rw [← callIf_eq_calls b o hf]
  refine andThen_congr fun t ht hft => hfg t ?_
  obtain ⟨u, hu, h | ⟨-, h⟩⟩ := callIf_called b o hf hh
  · cases h.symm.trans ht
    exact hu
  · cases h.symm.trans ht
    simp at hft

/-- A call that is not made. -/
theorem andThen_callIf_false {s : State} (hf : s.fatal = none) (o : Output) (f : State → Result) : andThen (s.callIf false o) f = f s :=
  andThen_of_none hf f

/-- The host's next response holds an ADVANCE. -/
def HostInput.nextAdvances (h : HostInput) : Prop := ∃ r, h.responses.head? = some r ∧ ¬ noAdvance r

/-- A call whose response holds an ADVANCE ends the handler there (R336). -/
theorem andThen_callIf_nested {s : State} (hf : s.fatal = none) (hh : s.sched.heap ≠ []) (hr : s.host.nextAdvances) (o : Output)
    (f : State → Result) : ∃ t, s.Called t ∧ andThen (s.callIf true o) f = .next (t.raise .nestedAdvance) := by
  obtain ⟨t, hk, -, h⟩ := callHost_called o hf hh
  exact ⟨t, hk, by rw [State.callIf, if_pos rfl, h hr, andThen_of_some (by simp)]⟩

/-- The PPU's Insert at the end of a handler that began in `s`, with room in the heap and before the sentinel (R153, R240, R241). -/
theorem State.Handled.insertPpu {s t : State} (h : s.Handled t) (hf : s.fatal = none) {n : Nat} (hn : s.sched.n < s.params.schedCapacity)
    (hsum : s.sched.now.toNat + n < s.params.tsMax.toNat) (tag : Tag) :
    t.insertPpu (BitVec.ofNat 64 n) tag =
      .next
        { t with
          sched := s.sched.push (s.sched.now + BitVec.ofNat 64 n) tag
          ppu := { t.ppu with ppuEv := s.sched.nextHandle } } := by
  have hd : (BitVec.ofNat 64 n).toNat = n := toNat_ofNat_of_lt_tsMax (p := s.params) (by omega)
  have hi := State.insertPpu_cases (h.fatal.trans hf) (BitVec.ofNat 64 n) tag
  rw [h.sched, h.params, hd] at hi
  rcases hi with ⟨r, hfull | hlate, -⟩ | ⟨-, -, hins⟩
  · omega
  · omega
  · exact hins

/-! ### DRAW_END -/

/-- DRAW_END with no ADVANCE in the host's responses (R240, R247): it completes, and its event is inserted. -/
theorem drawEnd_of_held {s : State} (hf : s.fatal = none) (hi : s.SchedInv) (hn : s.sched.n < s.params.schedCapacity)
    (hsum : s.sched.now.toNat + s.params.cyclesHBlank < s.params.tsMax.toNat) (hheld : s.host.held) :
    ∃ t, exec .drawEnd s = .next t ∧ t.fatal = none ∧
      s.sched.Pushed (s.sched.now + BitVec.ofNat 64 s.params.cyclesHBlank) .hblankEnd t.sched ∧
      t.ppu.phase = .hblank ∧ t.ppu.ppuEv = s.sched.nextHandle ∧ t.ppu.vcount = s.ppu.vcount ∧ t.ppu.ls = s.ppu.ls ∧
      t.line = s.catchUp.line ∧ t.fb = s.catchUp.fb ∧
      t.regs.dispstat.extractLsb' 0 3 = s.regs.dispstat.extractLsb' 0 3 ||| 2#3 := by
  obtain ⟨u, hx | ⟨hn', -⟩, -, hH, hphase, hvcount, hls, -, hline, hfb, hstatus⟩ := drawEnd_upTo hf hi.heap_ne
  · rw [hx, hH.insertPpu hf hn hsum]
    exact ⟨_, rfl, hH.fatal.trans hf, hi.push_spec _ _, hphase, rfl, hvcount, hls, hline, hfb, hstatus⟩
  · exact absurd hheld hn'

/-- The condition of DRAW_END's first call, HBLANK_IRQ_EN, is no status bit (R240). -/
theorem State.drawEnded_hblankIrqEn (s : State) : s.drawEnded.regs.hblankIrqEn = bit s.regs.dispstat 4 := by
  rw [State.drawEnded_eq]
  exact bit_setBit true (by omega) (by omega)

theorem State.drawEnded_visible (s : State) : s.drawEnded.visible = decide (s.ppu.vcount < s.params.vVisible) := by
  rw [State.drawEnded_eq]
  rfl

/-- DRAW_END whose first call is answered with an ADVANCE ends there, in a state its assignments and the response left (R336). -/
theorem drawEnd_of_nextAdvances {s : State} (hf : s.fatal = none) (hh : s.sched.heap ≠ []) (hr : s.host.nextAdvances)
    (hcall : bit s.regs.dispstat 4 = true ∨ s.ppu.vcount < s.params.vVisible) :
    ∃ u, s.drawEnded.Called u ∧ exec .drawEnd s = .next (u.raise .nestedAdvance) := by
  have hf' : s.drawEnded.fatal = none := s.handled_drawEnded.fatal.trans hf
  have hh' : s.drawEnded.sched.heap ≠ [] := by rwa [s.handled_drawEnded.sched]
  have hr' : s.drawEnded.host.nextAdvances := by rwa [State.drawEnded_eq]
  show ∃ u, s.drawEnded.Called u ∧ execDrawEnd s = _
  unfold execDrawEnd
  rw [State.drawEnded_hblankIrqEn]
  cases hirq : bit s.regs.dispstat 4 with
  | true => exact andThen_callIf_nested hf' hh' hr' _ _
  | false =>
    have hv : s.drawEnded.visible = true := by
      rw [State.drawEnded_visible]
      simpa [hirq] using hcall
    rw [andThen_callIf_false hf', hv]
    exact andThen_callIf_nested hf' hh' hr' _ _

/-- DRAW_END as the sequence of its assignments, its calls and its Insert (R240). -/
theorem drawEnd_sequence {s : State} (hf : s.fatal = none) (hi : s.SchedInv) (hn : s.sched.n < s.params.schedCapacity)
    (hsum : s.sched.now.toNat + s.params.cyclesHBlank < s.params.tsMax.toNat) :
    exec .drawEnd s =
      andThen (s.drawEnded.calls (bit s.regs.dispstat 4) (.irqRequest .hblank s.sched.now)) fun t =>
        andThen (t.calls (decide (s.ppu.vcount < s.params.vVisible)) (.dmaNotify .hblank s.sched.now)) fun u =>
          .next
            { u with
              sched := s.sched.push (s.sched.now + BitVec.ofNat 64 s.params.cyclesHBlank) .hblankEnd
              ppu := { u.ppu with ppuEv := s.sched.nextHandle } } := by
  have hH := s.handled_drawEnded
  have hf' := hH.fatal.trans hf
  have hh' : s.drawEnded.sched.heap ≠ [] := by rw [hH.sched]; exact hi.heap_ne
  refine andThen_callIf_congr hf' hh' rfl s.drawEnded_hblankIrqEn (by rw [hH.sched]) fun t ht => ?_
  have hvis : t.visible = decide (s.ppu.vcount < s.params.vVisible) := by
    rw [← State.drawEnded_visible, State.visible, State.visible, ht.vcount, ht.params]
  refine andThen_callIf_congr (ht.fatal.trans hf') (by rw [ht.sched]; exact hh') rfl hvis (by rw [ht.sched, hH.sched]) fun u hu => ?_
  exact (hH.trans (ht.handled.trans hu.handled)).insertPpu hf hn hsum _

/-! ### HBLANK_END -/

/-- HBLANK_END with no ADVANCE in the host's responses (R241, R247): it completes, and its event is inserted. -/
theorem hblankEnd_of_held {s : State} (hf : s.fatal = none) (hi : s.SchedInv) (hn : s.sched.n < s.params.schedCapacity)
    (hsum : s.sched.now.toNat + s.params.cyclesDraw < s.params.tsMax.toNat) (hheld : s.host.held) :
    ∃ t, exec .hblankEnd s = .next t ∧ t.fatal = none ∧
      s.sched.Pushed (s.sched.now + BitVec.ofNat 64 s.params.cyclesDraw) .drawEnd t.sched ∧
      t.ppu.phase = .draw ∧ t.ppu.ppuEv = s.sched.nextHandle ∧ t.ppu.vcount = (s.ppu.vcount + 1) % s.params.vTotal ∧
      t.ppu.ls = s.sched.now ∧ t.line.nextX = 0 ∧ t.fb = s.fb ∧ bit t.regs.dispstat 1 = false := by
  obtain ⟨u, hu, ⟨hx, -⟩ | ⟨hn', -⟩⟩ := hblankEnd_upTo hf hi.heap_ne
  · rw [hx, hu.handled.insertPpu hf hn hsum]
    exact ⟨_, rfl, hu.handled.fatal.trans hf, hi.push_spec _ _, hu.phase, rfl, hu.vcount, hu.ls, hu.nextX, hu.fb, hu.hblank⟩
  · exact absurd hheld hn'

/-- The assignments of HBLANK_END up to its first call: the next line, and VBlankStart's on line V_VISIBLE (R241, R243). -/
def State.lineBegun (s : State) : State :=
  if (s.ppu.vcount + 1) % s.params.vTotal = s.params.vVisible then s.nextLine.vblankBegun else s.nextLine

/-- HBLANK_END once VBlankStart is over (R241): the flag's end, the hand-off, the line compare, the line's start and the Insert. -/
def State.hblankRest (t : State) (delay : Timestamp) : Result :=
  andThen (t.vblankEnded.callIf (decide (t.ppu.vcount = 0)) (.present t.vblankEnded.fb t.vblankEnded.sched.now)) fun u =>
    andThen u.vcountCheck fun v => v.lineStarted.insertPpu delay .drawEnd

theorem State.atStart_lineBegun (s : State) : s.AtStart s.lineBegun := by
  unfold State.lineBegun
  split_ifs
  · exact s.atStart_nextLine.1.vblankBegun.1
  · exact s.atStart_nextLine.1

theorem State.lineBegun_host (s : State) : s.lineBegun.host = s.host := by
  unfold State.lineBegun
  split_ifs <;> rfl

theorem State.vblankEnded_host (s : State) : s.vblankEnded.host = s.host := by
  unfold State.vblankEnded
  split_ifs <;> rfl

/-- HBLANK_END with VBlankStart's two calls made under its condition (R241, R243). -/
theorem hblankEnd_eq_rest {s : State} (hf : s.fatal = none) :
    exec .hblankEnd s =
      andThen (s.lineBegun.callIf (decide ((s.ppu.vcount + 1) % s.params.vTotal = s.params.vVisible) && bit s.regs.dispstat 3)
          (.irqRequest .vblank s.sched.now)) fun t =>
        andThen (t.callIf (decide ((s.ppu.vcount + 1) % s.params.vTotal = s.params.vVisible)) (.dmaNotify .vblank t.sched.now)) fun u =>
          u.hblankRest (BitVec.ofNat 64 s.params.cyclesDraw) := by
  have hx : exec .hblankEnd s =
      andThen (if (s.ppu.vcount + 1) % s.params.vTotal = s.params.vVisible then s.nextLine.vblankStart else .next s.nextLine)
        fun u => u.hblankRest (BitVec.ofNat 64 s.params.cyclesDraw) := rfl
  rw [hx]
  unfold State.lineBegun
  by_cases hv : (s.ppu.vcount + 1) % s.params.vTotal = s.params.vVisible
  · have hirq : s.nextLine.vblankBegun.regs.vblankIrqEn = bit s.regs.dispstat 3 :=
      (bit_setBit true (by omega) (by omega)).trans (bit_setBit false (by omega) (by omega))
    rw [if_pos hv, if_pos hv, State.vblankStart, andThen_assoc, hirq, decide_eq_true hv, Bool.true_and]
    rfl
  · rw [if_neg hv, if_neg hv, decide_eq_false hv, Bool.false_and]
    have hf' : s.nextLine.fatal = none := hf
    rw [andThen_callIf_false hf', andThen_callIf_false hf', andThen_of_none hf']

/-- The condition of the line compare's call (R242), in the state before its assignment. -/
theorem State.vcountMatched_irq (t : State) :
    (t.vcountMatched.regs.vcountMatch && t.vcountMatched.regs.vcountIrqEn) =
      (decide (t.ppu.vcount = t.regs.dispstat.toNat / 256) && bit t.regs.dispstat 5) := by
  have hmatch : t.vcountMatched.regs.vcountMatch = decide (t.ppu.vcount = t.regs.lyc) := bit_setBit _ (by omega) (by omega)
  have hirq : t.vcountMatched.regs.vcountIrqEn = bit t.regs.dispstat 5 := bit_setBit _ (by omega) (by omega)
  rw [hmatch, hirq, Regs.lyc_eq]

/-- What a run of status-bit assignments leaves of DISPSTAT: LYC and the enable of the line compare (R31). -/
def SameCompare (d d' : Half) : Prop := d'.toNat / 256 = d.toNat / 256 ∧ bit d' 5 = bit d 5

theorem SameCompare.setBit {d d' : Half} (h : SameCompare d d') {i : Nat} (hi : i < 3) (b : Bool) : SameCompare d (setBit d' i b) :=
  ⟨(setBit_high d' b hi).trans h.1, (bit_setBit b (by omega) (by omega)).trans ((if_neg (by omega)).trans h.2)⟩

theorem State.sameCompare_lineBegun (s : State) : SameCompare s.regs.dispstat s.lineBegun.vblankEnded.regs.dispstat := by
  have h0 : SameCompare s.regs.dispstat s.nextLine.regs.dispstat := SameCompare.setBit ⟨rfl, rfl⟩ (by omega) _
  have h1 : SameCompare s.regs.dispstat s.lineBegun.regs.dispstat := by
    unfold State.lineBegun
    split_ifs
    · exact h0.setBit (by omega) _
    · exact h0
  unfold State.vblankEnded
  split_ifs
  · exact h1.setBit (by omega) _
  · exact h1

section
variable {s t : State} (hf : s.fatal = none) (hh : s.sched.heap ≠ []) (h : s.AtStart t)
include hf hh h

/-- `andThen_callIf_congr` inside HBLANK_END. -/
theorem State.AtStart.callIf_congr {t' : State} {b b' : Bool} {o o' : Output} {f g : State → Result} (ht : t = t') (hb : b = b')
    (ho : o = o') (hfg : ∀ u, s.AtStart u → f u = g u) : andThen (t.callIf b o) f = andThen (t'.calls b' o') g :=
  andThen_callIf_congr (h.handled.fatal.trans hf) (by rwa [h.handled.sched]) ht hb ho fun u hu => hfg u (h.called hu).1

/-- `andThen_callIf_nested` inside HBLANK_END. -/
theorem State.AtStart.callIf_nested (hr : t.host.nextAdvances) (o : Output) (f : State → Result) :
    ∃ u, s.AtStart u ∧ andThen (t.callIf true o) f = .next (u.raise .nestedAdvance) := by
  obtain ⟨u, hu, hx⟩ := andThen_callIf_nested (h.handled.fatal.trans hf) (by rwa [h.handled.sched]) hr o f
  exact ⟨u, (h.called hu).1, hx⟩

end

/-- HBLANK_END whose first call is answered with an ADVANCE ends there, in a state of the line it began (R336). -/
theorem hblankEnd_of_nextAdvances {s : State} {y : Nat} (hf : s.fatal = none) (hh : s.sched.heap ≠ [])
    (hy : y = (s.ppu.vcount + 1) % s.params.vTotal) (hr : s.host.nextAdvances)
    (hcall : y = s.params.vVisible ∨ y = 0 ∨ y = s.regs.dispstat.toNat / 256 ∧ bit s.regs.dispstat 5 = true) :
    ∃ u, s.AtStart u ∧ exec .hblankEnd s = .next (u.raise .nestedAdvance) := by
  have h0 := s.atStart_lineBegun
  have hr0 : s.lineBegun.host.nextAdvances := by rwa [State.lineBegun_host]
  have hf0 := h0.handled.fatal.trans hf
  rw [hblankEnd_eq_rest hf, ← hy]
  by_cases hv : y = s.params.vVisible
  · rw [decide_eq_true hv, Bool.true_and]
    cases bit s.regs.dispstat 3 with
    | true => exact h0.callIf_nested hf hh hr0 _ _
    | false =>
      rw [andThen_callIf_false hf0]
      exact h0.callIf_nested hf hh hr0 _ _
  · have h1 := h0.vblankEnded.1
    have hr1 : s.lineBegun.vblankEnded.host.nextAdvances := by rwa [State.vblankEnded_host]
    have hy0 : s.lineBegun.ppu.vcount = y := h0.vcount.trans hy.symm
    rw [decide_eq_false hv, Bool.false_and, andThen_callIf_false hf0, andThen_callIf_false hf0]
    unfold State.hblankRest
    rw [hy0]
    by_cases h00 : y = 0
    · rw [decide_eq_true h00]
      exact h1.callIf_nested hf hh hr1 _ _
    · obtain ⟨hlyc, hirq⟩ := (hcall.resolve_left hv).resolve_left h00
      obtain ⟨hl, hb⟩ := s.sameCompare_lineBegun
      have hflag : (s.lineBegun.vblankEnded.vcountMatched.regs.vcountMatch && s.lineBegun.vblankEnded.vcountMatched.regs.vcountIrqEn) = true := by
        rw [State.vcountMatched_irq, hl, hb, hirq, h1.vcount, ← hy, decide_eq_true hlyc]
        rfl
      rw [decide_eq_false h00, andThen_callIf_false (h1.handled.fatal.trans hf), State.vcountCheck, hflag]
      exact h1.vcountMatched.1.callIf_nested hf hh hr1 _ _

/-! ### HBLANK_END as a sequence -/

/-- A status bit set on a condition. -/
theorem setBit_decide (d : Half) (i : Nat) (p : Prop) [Decidable p] :
    setBit d i (decide p) = (d &&& ~~~ BitVec.twoPow 16 i) ||| (if p then BitVec.twoPow 16 i else 0#16) := by
  unfold setBit
  ext j hj
  by_cases hp : p <;> by_cases hij : j = i <;> simp [hp, hij]

/-- The assignments of HBLANK_END up to its first call, whole (R241, R243). -/
theorem State.lineBegun_eq {s : State} {y : Nat} (hy : y = (s.ppu.vcount + 1) % s.params.vTotal) :
    s.lineBegun =
      { s with
        line := { s.line with nextX := 0 }
        regs :=
          { s.regs with
            dispstat := (s.regs.dispstat &&& 0xFFFD#16) ||| (if y = s.params.vVisible then 1#16 else 0#16) }
        ppu :=
          { s.ppu with
            vcount := y
            phase := .draw
            ls := s.sched.now
            ix := if y = s.params.vVisible then s.regs.refX else s.ppu.ix
            iy := if y = s.params.vVisible then s.regs.refY else s.ppu.iy } } := by
  subst hy
  unfold State.lineBegun
  split_ifs
  · rfl
  · rw [BitVec.or_zero]
    rfl

theorem State.vblankEnded_eq (t : State) :
    t.vblankEnded =
      { t with
        regs :=
          { t.regs with
            dispstat := if t.ppu.vcount + 1 = t.params.vTotal then t.regs.dispstat &&& 0xFFFE#16 else t.regs.dispstat } } := by
  unfold State.vblankEnded
  split_ifs <;> rfl

theorem State.vcountMatched_eq (t : State) :
    t.vcountMatched =
      { t with
        regs :=
          { t.regs with
            dispstat :=
              (t.regs.dispstat &&& 0xFFFB#16) ||| (if t.ppu.vcount = t.regs.dispstat.toNat / 256 then 4#16 else 0#16) } } := by
  unfold State.vcountMatched Regs.setVcountMatch
  rw [setBit_decide, Regs.lyc_eq]
  rfl

/-- The line's start and the Insert that ends HBLANK_END (R241, R263). -/
theorem State.AtStart.lineStarted_insertPpu {s t : State} {y : Nat} (h : s.AtStart t) (hf : s.fatal = none)
    (hn : s.sched.n < s.params.schedCapacity) (hsum : s.sched.now.toNat + s.params.cyclesDraw < s.params.tsMax.toNat)
    (hy : y = (s.ppu.vcount + 1) % s.params.vTotal) :
    t.lineStarted.insertPpu (BitVec.ofNat 64 s.params.cyclesDraw) .drawEnd =
      .next
        { t with
          sched := s.sched.push (s.sched.now + BitVec.ofNat 64 s.params.cyclesDraw) .drawEnd
          ppu :=
            { t.ppu with
              ppuEv := s.sched.nextHandle
              mx := if y < s.params.vVisible ∧ y % (t.regs.mosaic.toNat / 16 % 16 + 1) = 0 then t.ppu.ix else t.ppu.mx
              my := if y < s.params.vVisible ∧ y % (t.regs.mosaic.toNat / 16 % 16 + 1) = 0 then t.ppu.iy else t.ppu.my }
          line :=
            if y < s.params.vVisible then
              let latch := y % (t.regs.mosaic.toNat / 16 % 16 + 1) = 0
              { nextX := 0
                hold := ⟨none, none, none, none⟩
                ax :=
                  ⟨if bit t.regs.bgcnt.bg2 6 = true ∧ ¬ latch then t.ppu.mx.k2 else t.ppu.ix.k2,
                    if bit t.regs.bgcnt.bg3 6 = true ∧ ¬ latch then t.ppu.mx.k3 else t.ppu.ix.k3⟩
                ay :=
                  ⟨if bit t.regs.bgcnt.bg2 6 = true ∧ ¬ latch then t.ppu.my.k2 else t.ppu.iy.k2,
                    if bit t.regs.bgcnt.bg3 6 = true ∧ ¬ latch then t.ppu.my.k3 else t.ppu.iy.k3⟩
                objbuf := []
                objwin := []
                win0 := []
                win1 := [] }
            else t.line } := by
  rw [h.lineStarted.1.handled.insertPpu hf hn hsum, State.lineStarted_eq h.nextX, h.vcount, h.handled.params, ← hy]
  by_cases hv : y < s.params.vVisible
  · simp only [if_pos hv, Ppu.mosaicLatched, Regs.bgMosaicH_eq]
    by_cases hl : y % (t.regs.mosaic.toNat / 16 % 16 + 1) = 0
    · simp [hv, hl, lineStartAcc, Line.zero]
    · simp [hl, lineStartAcc, Line.zero, Regs.bgMosaic, PerBg.get]
  · simp [hv]

/-- HBLANK_END as the sequence of its assignments, its calls and what `finish` says of the line's start and the Insert (R241 to R243). -/
theorem hblankEnd_sequence {s : State} {y : Nat} {finish : State → Result} (hf : s.fatal = none) (hh : s.sched.heap ≠ [])
    (hy : y = (s.ppu.vcount + 1) % s.params.vTotal)
    (hfinish : ∀ w, s.AtStart w → w.lineStarted.insertPpu (BitVec.ofNat 64 s.params.cyclesDraw) .drawEnd = finish w) :
    exec .hblankEnd s =
      andThen (s.lineBegun.calls (decide (y = s.params.vVisible) && bit s.regs.dispstat 3) (.irqRequest .vblank s.sched.now)) fun t =>
        andThen (t.calls (decide (y = s.params.vVisible)) (.dmaNotify .vblank s.sched.now)) fun u =>
          andThen
            (State.calls
              { u with
                regs :=
                  { u.regs with
                    dispstat := if y + 1 = s.params.vTotal then u.regs.dispstat &&& 0xFFFE#16 else u.regs.dispstat } }
              (decide (y = 0)) (.present s.fb s.sched.now)) fun v =>
            andThen
              (State.calls
                { v with
                  regs :=
                    { v.regs with
                      dispstat := (v.regs.dispstat &&& 0xFFFB#16) ||| (if y = v.regs.dispstat.toNat / 256 then 4#16 else 0#16) } }
                (decide (y = v.regs.dispstat.toNat / 256) && bit v.regs.dispstat 5) (.irqRequest .vcount s.sched.now)) finish := by
  rw [hblankEnd_eq_rest hf, ← hy]
  refine s.atStart_lineBegun.callIf_congr hf hh rfl rfl rfl fun t ht => ?_
  refine ht.callIf_congr hf hh rfl rfl (by rw [ht.handled.sched]) fun u hu => ?_
  have hvu : u.ppu.vcount = y := hu.vcount.trans hy.symm
  have hu' := hu.vblankEnded.1
  refine hu'.callIf_congr hf hh ?_ (by rw [hvu]) (by rw [hu'.fb, hu'.handled.sched]) fun v hv => ?_
  · rw [State.vblankEnded_eq, hvu, hu.handled.params]
  have hvv : v.ppu.vcount = y := hv.vcount.trans hy.symm
  have hv' := hv.vcountMatched.1
  refine hv'.callIf_congr hf hh ?_ ?_ (by rw [hv'.handled.sched]) hfinish
  · rw [State.vcountMatched_eq, hvv]
  · rw [State.vcountMatched_irq, hvv]

/-! ### The host's responses and the handlers' timing -/

/-- The last output after a fatal error is raised is its record (R331). -/
theorem State.getLast?_raise (s : State) (r : FatalReason) : (s.raise r).trace.getLast? = some (.fatal r s.sched.now) := by
  simp

/-- Settles O48: with no ADVANCE in a response (`drawEnd_of_held`, `hblankEnd_of_held`), with one in the first (`drawEnd_of_nextAdvances`,
`hblankEnd_of_nextAdvances`), and the whole sequences (`drawEnd_sequence`, `hblankEnd_sequence`). -/
theorem dmaResponseKeepsTiming : Obligations.DmaResponseKeepsTiming := by
  intro s y hf hi hbits hn hhblank hdraw hy
  rw [← tsMax_toNat hbits] at hhblank hdraw
  have hh := hi.heap_ne
  refine ⟨fun hheld => ⟨drawEnd_of_held hf hi hn hhblank hheld, ?_⟩, fun hr => ⟨fun hcall => ?_, fun hcall => ?_⟩,
    ⟨_, hi.push_spec _ _, ?_⟩, ⟨_, hi.push_spec _ _, ?_⟩⟩
  · rw [hy]
    exact hblankEnd_of_held hf hi hn hdraw hheld
  · obtain ⟨u, hu, hx⟩ := drawEnd_of_nextAdvances hf hh hr hcall
    have hsched : u.sched = s.sched := hu.sched.trans s.handled_drawEnded.sched
    refine ⟨_, hx, rfl, hsched, ?_, ?_, by rw [State.getLast?_raise, hsched]⟩
    · exact hu.phase.trans (by rw [State.drawEnded_eq])
    · exact hu.ppuEv.trans (by rw [State.drawEnded_eq])
  · obtain ⟨u, hu, hx⟩ := hblankEnd_of_nextAdvances hf hh hy hr hcall
    have hsched : u.sched = s.sched := hu.handled.sched
    exact ⟨_, hx, rfl, hsched, hu.vcount.trans hy.symm, hu.ppuEv, by rw [State.getLast?_raise, hsched]⟩
  · rw [drawEnd_sequence hf hi hn hhblank, State.drawEnded_eq]
    rfl
  · rw [hblankEnd_sequence hf hh hy fun w hw => hw.lineStarted_insertPpu hf hn hdraw hy, State.lineBegun_eq hy]

end Sys2Proof.Machine
end

section
/-! SUPPORT. The statements of 10_state.md: what every step keeps of the scheduler (R23 to R27, R164) and of the registers (R29, R37), the halfword writes
of the reference points (R37, R46, R213), and the samples of the text and affine layers (R33, R34, R123, R124, R266 to R270). -/

namespace Sys2Proof.Machine

/-! ### What every step keeps of the registers -/

/-- Settles O53: the register part of what every step keeps (`step_basic`). -/
theorem registerInvariant : Obligations.RegisterInvariant :=
  fun s t hr ht => (step_basic s t ht).regs hr

/-! ### What every step keeps of the scheduler -/

/-- What every step keeps of the scheduler: its invariants (R164), a `now` that never falls (R24), a handle counter that never falls, and issued
handles that stay stale (R26). -/
structure State.Advances (s t : State) : Prop where
  inv : t.SchedInv
  now : s.sched.now ≤ t.sched.now
  handles : s.sched.nextHandle ≤ t.sched.nextHandle
  stale : ∀ h, h < s.sched.nextHandle → s.sched.event h = none → t.sched.event h = none

theorem State.Advances.trans {a b c : State} (h : a.Advances b) (k : b.Advances c) : a.Advances c where
  inv := k.inv
  now := BitVec.le_trans h.now k.now
  handles := h.handles.trans k.handles
  stale := fun x hx hn => k.stale x (hx.trans_le h.handles) (h.stale x hx hn)

theorem State.Commanded.advances {s t : State} (h : s.Commanded t) : s.Advances t :=
  ⟨h.inv, h.now ▸ BitVec.le_refl _, h.handles, h.stale⟩

/-- The events and the handle counter as they were, and the clock no earlier. -/
theorem State.advances_of_events {s t : State} (inv : t.SchedInv) (now : s.sched.now ≤ t.sched.now)
    (events : t.sched.events = s.sched.events) (handles : t.sched.nextHandle = s.sched.nextHandle) : s.Advances t :=
  ⟨inv, now, handles.ge, fun h _ hn => by rwa [Sched.event, events]⟩

/-- The scheduler and the parameters as they were. -/
theorem State.advances_of_sched {s t : State} (hi : s.SchedInv) (hs : t.sched = s.sched) (hp : t.params = s.params) : s.Advances t :=
  State.advances_of_events (by rwa [State.SchedInv, hs, hp]) (hs ▸ BitVec.le_refl _) (by rw [hs]) (by rw [hs])

/-- An event inserted before the sentinel (R153). -/
theorem State.advances_of_push {s t : State} (hi : s.SchedInv) {delay : Timestamp} {tag : Tag} (htag : tag ≠ .endOfTime)
    (hsum : s.sched.now.toNat + delay.toNat < s.params.tsMax.toNat) (hs : t.sched = s.sched.push (s.sched.now + delay) tag)
    (hp : t.params = s.params) : s.Advances t := by
  have hpush := hi.push_spec (s.sched.now + delay) tag
  obtain ⟨hge, hlt⟩ := sum_between hsum
  rw [← hs] at hpush
  refine ⟨?_, hpush.clock.now ▸ BitVec.le_refl _, by rw [hpush.nextHandle]; omega, fun h hh hn => ?_⟩
  · rw [State.SchedInv, hp]
    exact hi.pushed hpush hge hlt htag
  · rw [← Sched.due_none, hpush.old h (by omega), Sched.due_none, hn]

/-- A scanline callback that ended in a fatal error, or in the Insert of its next event (R240, R241). -/
theorem advances_of_handler {s u : State} {r : Result} {delay : Timestamp} {tag : Tag} (hi : s.SchedInv) (hu : s.Handled u)
    (htag : tag ≠ .endOfTime)
    (hr : (∃ reason, r = .next (u.raise reason)) ∨
      s.sched.now.toNat + delay.toNat < s.params.tsMax.toNat ∧
        ∃ p, r = .next ((u.setSched (s.sched.push (s.sched.now + delay) tag)).setPpu p)) :
    ∃ t, r = .next t ∧ s.Advances t ∧ t.sched.firing = s.sched.firing := by
  rcases hr with ⟨reason, rfl⟩ | ⟨hsum, p, rfl⟩
  · exact ⟨_, rfl, State.advances_of_sched hi hu.sched hu.params, congrArg Sched.firing hu.sched⟩
  · exact ⟨_, rfl, State.advances_of_push hi htag hsum rfl hu.params, (hi.push_spec _ _).clock.firing⟩

/-- Every instruction completes under the scheduler's invariants and keeps them, and leaves the event being fired (R156, R164). -/
theorem exec_advances (i : Instr) {s : State} (hf : s.fatal = none) (hi : s.SchedInv) :
    ∃ t, exec i s = .next t ∧ s.Advances t ∧ t.sched.firing = s.sched.firing := by
  cases he : i.isEvent with
  | false =>
    obtain ⟨t, ht, hc⟩ := exec_commanded he hi
    exact ⟨t, ht, hc.advances, hc.firing⟩
  | true =>
    cases i <;> simp only [Instr.isEvent, Bool.false_eq_true] at he
    case drawEnd =>
      obtain ⟨u, hu, -, -, -, -, -, -, hr⟩ := execDrawEnd_cases hf hi
      exact advances_of_handler hi hu (by simp) (hr.imp_right fun ⟨_, hsum, hx⟩ => ⟨hsum, _, hx⟩)
    case hblankEnd =>
      obtain ⟨u, hu, hr⟩ := execHblankEnd_cases hf hi
      exact advances_of_handler hi hu (by simp) (hr.imp_right fun ⟨_, hsum, _, _, _, _, _, _, _, hx⟩ => ⟨hsum, _, hx⟩)
    case endOfTime => exact ⟨_, rfl, State.advances_of_sched hi rfl rfl, rfl⟩
    case external k =>
      obtain ⟨t, ht, hc⟩ := runAll_commanded (s.host.actionOf k) hi
      exact ⟨t, ht, hc.advances, hc.firing⟩

/-- The end of Fire (R156): the fired event's handle becomes stale. -/
theorem finishFire_advances {s : State} {h : Nat} (hi : s.SchedInv) (hf : s.sched.firing = some h) :
    ∃ t, finishFire h s = .next t ∧ s.Advances t := by
  obtain ⟨e, he, hr, hinv⟩ := hi.finish hf
  refine ⟨s.setSched (Sched.removeAt { s.sched with firing := none } e.slot), by simp only [finishFire, he], hinv,
    hr.clock.now ▸ BitVec.le_refl _, hr.nextHandle.ge, fun k _ hk => ?_⟩
  by_cases hkh : k = h
  · exact hkh ▸ hr.gone
  · exact Sched.due_none.1 ((hr.old k hkh).trans (Sched.due_none.2 hk))

/-- The callback of the event being fired, and the end of Fire. -/
theorem callbackTurn_advances {s : State} {h : Nat} (hfatal : s.fatal = none) (hi : s.SchedInv) (hf : s.sched.firing = some h) :
    ∃ t, callbackTurn h s = .next t ∧ s.Advances t := by
  obtain ⟨-, -, e, he, -⟩ := hi.firing h hf
  obtain ⟨u, hu, hsu, hfu⟩ := exec_advances e.tag.instr hfatal hi
  have hturn : callbackTurn h s = andThen (.next u) (finishFire h) := by simp only [callbackTurn, he, hu]
  by_cases hfatal' : u.fatal = none
  · obtain ⟨t, ht, hut⟩ := finishFire_advances hsu.inv (hfu.trans hf)
    exact ⟨t, by rw [hturn, andThen_of_none hfatal', ht], hsu.trans hut⟩
  · exact ⟨u, by rw [hturn, andThen_of_some hfatal'], hsu⟩

/-- The end of ADVANCE (R159): no live event is due before the target. -/
theorem advanced_advances {s : State} (hi : s.SchedInv) (hfiring : s.sched.firing = none) (hadv : s.sched.inAdvance = true)
    (hdue : ∀ h e, s.sched.event h = some e → s.sched.target ≤ e.ts) : s.Advances s.advanced := by
  have hmoved := hi.moved hfiring hdue (.inl (BitVec.le_refl _))
  exact State.advances_of_events
    { hmoved with
      linked := ⟨hmoved.linked.events_wf, hmoved.linked.live, hmoved.linked.slot⟩
      target := fun h => nomatch h
      firing := fun h hf => absurd (hfiring.symm.trans hf) (by simp) }
    (hi.target hadv) rfl rfl

/-- The beginning of Fire for a live event that none is earlier than and that the target has reached (R156). -/
theorem beginFire_advances {s : State} {h : Nat} {e : Event} (hi : s.SchedInv) (hfiring : s.sched.firing = none)
    (hadv : s.sched.inAdvance = true) (he : s.sched.event h = some e) (hmin : ∀ k f, s.sched.event k = some f → e.ts ≤ f.ts)
    (hdue : e.ts ≤ s.sched.target) : ∃ t, beginFire h s = .next t ∧ s.Advances t := by
  have hnow := hi.notPast h e he
  rw [beginFire_spec he]
  split_ifs with htag
  · exact ⟨_, rfl, State.advances_of_events (hi.moved hfiring hmin (.inl hdue)) hnow rfl rfl⟩
  · exact ⟨_, rfl, State.advances_of_events (hi.fires hfiring hadv he hmin hdue htag) hnow rfl rfl⟩

/-- One turn of the ADVANCE loop (R159): the root is the earliest live event, so the loop ends or fires an event no other is earlier than. -/
theorem loopTurn_advances {s : State} (hi : s.SchedInv) (hfiring : s.sched.firing = none) (hadv : s.sched.inAdvance = true) :
    ∃ t, loopTurn s = .next t ∧ s.Advances t := by
  obtain ⟨root, rest, hheap⟩ : ∃ r l, s.sched.heap = r :: l := List.exists_cons_of_ne_nil hi.heap_ne
  obtain ⟨first, -, hts, hmin⟩ := hi.root hheap
  rw [← hts] at hmin
  simp only [loopTurn, hheap]
  split_ifs with hlate
  · exact ⟨_, rfl, advanced_advances hi hfiring hadv fun h e he => BitVec.le_trans (BitVec.le_of_lt hlate) (hmin h e he)⟩
  · obtain ⟨⟨e, he, hets⟩, -, n, hdrew⟩ := State.chooseDue_spec hi hheap
    rw [← hets] at hmin hlate
    rw [hdrew]
    obtain ⟨t, ht, hst⟩ := beginFire_advances (s := s.drew n) hi hfiring hadv he hmin (BitVec.not_lt.1 hlate)
    exact ⟨t, ht, (State.advances_of_sched hi rfl rfl : s.Advances (s.drew n)).trans hst⟩

/-- The host's next command, if it has one (R6, R118). -/
theorem hostTurn_advances {s : State} (hf : s.fatal = none) (hi : s.SchedInv) : ∃ t, hostTurn s = .next t ∧ s.Advances t := by
  have hsame : ∀ u : State, u.sched = s.sched → u.params = s.params → s.Advances u := fun u => State.advances_of_sched hi
  unfold hostTurn
  split
  · exact ⟨s, rfl, hsame s rfl rfl⟩
  · unfold issueWith
    split
    · exact ⟨_, rfl, hsame _ rfl rfl⟩
    · split_ifs
      · exact ⟨_, rfl, hsame _ rfl rfl⟩
      · obtain ⟨t, ht, hst, -⟩ := exec_advances _ (s := s.took) hf hi
        exact ⟨t, ht, (hsame s.took rfl rfl).trans hst⟩

/-- Every step completes under the scheduler's invariants and keeps what `Advances` lists. -/
theorem step_advances {s : State} (hi : s.SchedInv) : ∃ t, step s = .next t ∧ s.Advances t := by
  by_cases hfatal : s.fatal = none
  · simp only [step, hfatal, Option.isSome_none, Bool.false_eq_true, if_false]
    cases hfiring : s.sched.firing with
    | some h => exact callbackTurn_advances hfatal hi hfiring
    | none =>
      cases hadv : s.sched.inAdvance with
      | true => exact loopTurn_advances hi hfiring hadv
      | false => exact hostTurn_advances hfatal hi
  · exact ⟨_, step_of_fatal hfatal, State.advances_of_sched hi rfl rfl⟩

/-- The step taken is the one that `step_advances` gives. -/
theorem advances_of_step {s t : State} (hi : s.SchedInv) (ht : step s = .next t) : s.Advances t := by
  obtain ⟨u, hu, hsu⟩ := step_advances hi
  cases hu.symm.trans ht
  exact hsu

/-- Settles O54: the invariants among what every step keeps (`step_advances`). -/
theorem schedulerInvariant : Obligations.SchedulerInvariant :=
  fun _ _ hi ht => (advances_of_step hi ht).inv

/-- Settles O16: the handle counter and the stale handles among what every step keeps (`step_advances`). -/
theorem handlesNeverReused : Obligations.HandlesNeverReused := by
  intro s t hi ht
  obtain ⟨-, -, hhandles, hstale⟩ := advances_of_step hi ht
  exact ⟨hhandles, hstale⟩

/-- Settles O56: each of the four kinds of step completes (`step_advances`). -/
theorem everyStepCompletes : Obligations.EveryStepCompletes := by
  intro s hi
  obtain ⟨t, ht, -⟩ := step_advances hi
  exact ⟨t, ht⟩

/-- Settles O57: `now` among what every step keeps (`step_advances`); only the loop of ADVANCE moves it, to a live event's time or the target. -/
theorem timeNeverDecreases : Obligations.TimeNeverDecreases :=
  fun _ _ hi ht => (advances_of_step hi ht).now

/-! ### Halfword writes of the reference points -/

/-- A halfword write of a register catches up and writes the register its aligned offset names (R88, R90, R204). -/
theorem exec_write16Mmio {a : Word} {o : Nat} {h : RegHalf} (hreg : regAt o = h) (heven : o % 2 = 0) (hlt : o < 0x58)
    (ha : a.toNat / 2 = 0x02000000 + o / 2) (v : Half) (s : State) :
    exec (.write16Mmio a v) s = .next (s.catchUp.regWriteHalf h v) := by
  have hlegal : Space.mmio.holds a = true := by
    rw [Space.holds_iff]
    show a.toNat / 0x1000000 = 4 ∧ a.toNat % 0x1000000 ≤ 0x57
    omega
  have ho : alignHalf (mmioOffset a) = o := by
    rw [mmioOffset_eq, alignHalf]
    omega
  show execWrite16Mmio a v s = _
  rw [execWrite16Mmio, busWrite, whenLegal, if_pos hlegal, ho, State.regWrite16, hreg]

/-- The offset of an affine set's first reference point (R37). -/
def Aff.refOffset : Aff → Nat
  | .k2 => 0x28
  | .k3 => 0x38

/-- The four halfwords of an affine set's reference points, in order from its first offset. -/
theorem regAt_ref (k : Aff) :
    regAt k.refOffset = .refXLo k ∧ regAt (k.refOffset + 2) = .refXHi k ∧
      regAt (k.refOffset + 4) = .refYLo k ∧ regAt (k.refOffset + 6) = .refYHi k := by
  cases k <;> exact ⟨rfl, rfl, rfl, rfl⟩

/-- A halfword write of either half of an X reference point stores the whole and loads `ix` with it (R46, R213). -/
theorem State.regWriteHalf_refX (s : State) {h : RegHalf} {k : Aff} {w : Word} (v : Half)
    (hw : h = .refXLo k ∧ w = hiHalf (s.regs.refX.get k) ++ v ∨ h = .refXHi k ∧ w = v ++ loHalf (s.regs.refX.get k)) :
    s.regWriteHalf h v =
      { s with
        regs := { s.regs with refX := s.regs.refX.set k (sextRef w) }
        ppu := { s.ppu with ix := s.ppu.ix.set k (sextRef w) } } := by
  rcases hw with ⟨rfl, rfl⟩ | ⟨rfl, rfl⟩ <;>
    simp only [State.regWriteHalf, Regs.written, Ppu.refLoaded, PerAff.get_set, if_true, refWithLo, refWithHi, State.setRegs, State.setPpu]

/-- A halfword write of either half of a Y reference point stores the whole and loads `iy` with it (R46, R213). -/
theorem State.regWriteHalf_refY (s : State) {h : RegHalf} {k : Aff} {w : Word} (v : Half)
    (hw : h = .refYLo k ∧ w = hiHalf (s.regs.refY.get k) ++ v ∨ h = .refYHi k ∧ w = v ++ loHalf (s.regs.refY.get k)) :
    s.regWriteHalf h v =
      { s with
        regs := { s.regs with refY := s.regs.refY.set k (sextRef w) }
        ppu := { s.ppu with iy := s.ppu.iy.set k (sextRef w) } } := by
  rcases hw with ⟨rfl, rfl⟩ | ⟨rfl, rfl⟩ <;>
    simp only [State.regWriteHalf, Regs.written, Ppu.refLoaded, PerAff.get_set, if_true, refWithLo, refWithHi, State.setRegs, State.setPpu]

/-- Settles O25: the address names one of the four halves (`regAt_ref`), whose write is `regWriteHalf_refX` or `regWriteHalf_refY`. -/
theorem writeReferencePoint : Obligations.WriteReferencePoint := by
  intro s a v k base hk
  obtain ⟨hxlo, hxhi, hylo, hyhi⟩ := regAt_ref k
  have hbase : base = 0x04000000 + k.refOffset := by rcases hk with ⟨rfl, rfl⟩ | ⟨rfl, rfl⟩ <;> rfl
  have heven : k.refOffset % 2 = 0 := by cases k <;> rfl
  have hlt : k.refOffset + 6 < 0x58 := by cases k <;> decide
  have hx := @State.regWriteHalf_refX s.catchUp
  have hy := @State.regWriteHalf_refY s.catchUp
  rw [State.catchUp_regs, State.catchUp_ppu] at hx hy
  refine ⟨fun w hw => ?_, fun w hw => ?_⟩
  · rcases hw with ⟨ha, hw⟩ | ⟨ha, hw⟩
    · exact (exec_write16Mmio hxlo (by omega) (by omega) (by omega) v s).trans (congrArg _ (hx v (.inl ⟨rfl, hw⟩)))
    · exact (exec_write16Mmio hxhi (by omega) (by omega) (by omega) v s).trans (congrArg _ (hx v (.inr ⟨rfl, hw⟩)))
  · rcases hw with ⟨ha, hw⟩ | ⟨ha, hw⟩
    · exact (exec_write16Mmio hylo (by omega) (by omega) (by omega) v s).trans (congrArg _ (hy v (.inl ⟨rfl, hw⟩)))
    · exact (exec_write16Mmio hyhi (by omega) (by omega) (by omega) v s).trans (congrArg _ (hy v (.inr ⟨rfl, hw⟩)))

/-! ### The fetches and the palette in numbers -/

/-- A bit as a quotient's parity. -/
theorem bit_eq {n : Nat} (v : BitVec n) (i : Nat) : bit v i = decide (v.toNat / 2 ^ i % 2 = 1) := by
  rw [bit, BitVec.getLsbD, Nat.testBit_eq_decide_div_mod_eq]

theorem State.bgFetch8_toNat (s : State) (o : Nat) : (s.bgFetch8 o).toNat = s.bgByteAt o := by
  unfold State.bgFetch8 State.bgByteAt bgLimit State.mode
  rw [bgMode_eq, apply_ite BitVec.toNat]
  rfl

theorem State.bgFetch16_toNat (s : State) (o : Nat) : (s.bgFetch16 o).toNat = s.bgHalfAt o := by
  have hlo := (s.bgFetch8 o).isLt
  rw [State.bgFetch16, BitVec.toNat_append, Nat.shiftLeft_eq, Nat.mul_comm, ← Nat.two_pow_add_eq_or_of_lt hlo, State.bgFetch8_toNat,
    State.bgFetch8_toNat, State.bgHalfAt, Nat.mul_comm]

theorem State.opaqueIndex_bgpal (s : State) (j pal : Nat) : opaqueIndex j (fun j => s.bgpal (pal * 16 + j)) = s.bgEntry j pal := by
  rw [State.bgEntry, Nat.mul_comm 16 pal]
  rfl

theorem State.opaqueIndex_bgpal_zero (s : State) (j : Nat) : opaqueIndex j s.bgpal = s.bgEntry j 0 := by
  simp only [← State.opaqueIndex_bgpal, Nat.zero_mul, Nat.zero_add]

theorem charBase_eq (cnt : Half) : charBase cnt = cnt.toNat / 4 % 4 * 0x4000 := by
  rw [charBase, field_eq]
  rfl

theorem screenBase_eq (cnt : Half) : screenBase cnt = cnt.toNat / 256 % 32 * 0x800 := by
  rw [screenBase, field_eq]
  rfl

theorem screenSize_eq (cnt : Half) : screenSize cnt = cnt.toNat / 0x4000 := by
  have := cnt.isLt
  rw [screenSize, field_eq]
  omega

/-! ### The sample of a text layer -/

/-- The colour at pixel `(px, py)` of a text layer, after scrolling (R123, R127, R128, R267). -/
def State.textTexel (s : State) (cnt : Half) (px py : Nat) : Option Colour :=
  let m := s.bgFetch16 (mapAddr cnt px py)
  let tx := if bit m 10 then 7 - px % 8 else px % 8
  let ty := if bit m 11 then 7 - py % 8 else py % 8
  if bit cnt 7 then opaqueIndex (s.bgFetch8 (charBase cnt + field m 0 10 * 64 + ty * 8 + tx)).toNat s.bgpal
  else
    opaqueIndex (nibble (s.bgFetch8 (charBase cnt + field m 0 10 * 32 + ty * 4 + tx / 2)) tx) fun j => s.bgpal (field m 12 4 * 16 + j)

/-- The line a text layer samples: with its mosaic bit set the first line of the block (R269). -/
def Regs.textLine (r : Regs) (i : Bg) (y : Nat) : Nat := if r.bgMosaic i then y - y % r.bgMosaicH else y

/-- A text layer's sample is that of the scrolled position, wrapped at the layer's size (R267). -/
theorem State.textSample_eq (s : State) (i : Bg) (x y : Nat) :
    s.textSample i x y =
      s.textTexel (s.regs.bgcnt.get i) ((x + (s.regs.hofs.get i).toNat) % textWidth (s.regs.bgcnt.get i))
        ((s.regs.textLine i y + (s.regs.vofs.get i).toNat) % textHeight (s.regs.bgcnt.get i)) := rfl

/-- The map entry's address in numbers, for a pixel inside the layer (R123). -/
theorem mapAddr_eq {cnt : Half} {px py size : Nat} (hsize : size = cnt.toNat / 0x4000)
    (hpx : px < if size = 1 ∨ size = 3 then 512 else 256) (hpy : py < if size = 2 ∨ size = 3 then 512 else 256) :
    mapAddr cnt px py =
      cnt.toNat / 256 % 32 * 0x800 +
        (if size = 0 then 0 else if size = 1 then px / 256 else if size = 2 then py / 256 else px / 256 + 2 * (py / 256)) * 0x800 +
        py / 8 % 32 * 64 + px / 8 % 32 * 2 := by
  have hlt : size < 4 := by
    have := cnt.isLt
    omega
  have hblock : screenBlock size px py =
      if size = 0 then 0 else if size = 1 then px / 256 else if size = 2 then py / 256 else px / 256 + 2 * (py / 256) := by
    interval_cases size <;> simp [screenBlock] at hpx hpy ⊢ <;> omega
  rw [mapAddr, screenBase_eq, screenSize_eq, ← hsize, hblock]

/-- The colour index a column selects in a byte of a 4-bit tile (R127). -/
theorem nibble_eq (b : Byte) (tx : Nat) : nibble b tx = if tx % 2 = 1 then b.toNat / 16 else b.toNat % 16 := by
  have := b.isLt
  rw [nibble, field_eq, field_eq]
  split_ifs <;> omega

/-- The colour at a layer pixel in numbers: the map entry `m`, its flips, and the 8-bit or the 4-bit tile (R123, R127, R128). -/
theorem State.textTexel_eq (s : State) (cnt : Half) {px py m tx ty : Nat} (hm : m = s.bgHalfAt (mapAddr cnt px py))
    (htx : tx = if m / 1024 % 2 = 1 then 7 - px % 8 else px % 8) (hty : ty = if m / 2048 % 2 = 1 then 7 - py % 8 else py % 8) :
    s.textTexel cnt px py =
      if cnt.toNat / 128 % 2 = 1 then s.bgEntry (s.bgByteAt (cnt.toNat / 4 % 4 * 0x4000 + m % 1024 * 64 + ty * 8 + tx)) 0
      else
        s.bgEntry
          (if tx % 2 = 1 then s.bgByteAt (cnt.toNat / 4 % 4 * 0x4000 + m % 1024 * 32 + ty * 4 + tx / 2) / 16
            else s.bgByteAt (cnt.toNat / 4 % 4 * 0x4000 + m % 1024 * 32 + ty * 4 + tx / 2) % 16) (m / 4096) := by
  have hlt := (s.bgFetch16 (mapAddr cnt px py)).isLt
  rw [State.bgFetch16_toNat, ← hm] at hlt
  have hpal : m / 2 ^ 12 % 2 ^ 4 = m / 4096 := by omega
  have htile : m / 2 ^ 0 % 2 ^ 10 = m % 1024 := by omega
  simp only [State.textTexel, bit_eq, field_eq, State.bgFetch16_toNat, ← hm, decide_eq_true_eq, hpal, htile, charBase_eq, nibble_eq,
    State.bgFetch8_toNat, State.opaqueIndex_bgpal, State.opaqueIndex_bgpal_zero, htx, hty]
  rfl

theorem textWidth_eq (cnt : Half) : textWidth cnt = if cnt.toNat / 0x4000 = 1 ∨ cnt.toNat / 0x4000 = 3 then 512 else 256 := by
  rw [textWidth, screenSize_eq]

theorem textHeight_eq (cnt : Half) : textHeight cnt = if cnt.toNat / 0x4000 = 2 ∨ cnt.toNat / 0x4000 = 3 then 512 else 256 := by
  rw [textHeight, screenSize_eq]

/-- A coordinate moved by a multiple of the layer's size scrolls to the same position (R267). -/
theorem scrolled_of_dvd {size n : Nat} (h : size ∣ n) (x scroll : Nat) : (x + n + scroll) % size = (x + scroll) % size := by
  obtain ⟨k, rfl⟩ := h
  rw [Nat.add_right_comm, Nat.add_mul_mod_self_left]

theorem Regs.textLine_eq (r : Regs) (i : Bg) (y : Nat) :
    r.textLine i y = if (r.bgcnt.get i).toNat / 64 % 2 = 1 then y - y % (r.mosaic.toNat / 16 % 16 + 1) else y := by
  simp [Regs.textLine, Regs.bgMosaic, bit_eq, Regs.bgMosaicH_eq]

/-- The lines of a mosaic block sample its first line (R269). -/
theorem Regs.textLine_of_mosaic {r : Regs} {i : Bg} {y y' : Nat} (hbit : bit (r.bgcnt.get i) 6 = true)
    (hy : y / (r.mosaic.toNat / 16 % 16 + 1) = y' / (r.mosaic.toNat / 16 % 16 + 1)) : r.textLine i y = r.textLine i y' := by
  have hfirst : ∀ y, r.textLine i y = y / (r.mosaic.toNat / 16 % 16 + 1) * (r.mosaic.toNat / 16 % 16 + 1) := fun y => by
    rw [Regs.textLine, Regs.bgMosaic, if_pos hbit, Regs.bgMosaicH_eq, Nat.div_mul_self_eq_mod_sub_self]
  rw [hfirst, hfirst, hy]

theorem Regs.textLine_of_noMosaic {r : Regs} {i : Bg} (hbit : bit (r.bgcnt.get i) 6 = false) (y : Nat) : r.textLine i y = y := by
  simp [Regs.textLine, Regs.bgMosaic, hbit]

/-- Settles O35: the sample is that of the scrolled position (`textSample_eq`), whose colour in numbers is `textTexel_eq`; the lines of a mosaic block
share the position, and so do pixels a multiple of the layer's size apart. -/
theorem textLayers : Obligations.TextLayers := by
  refine ⟨fun s i x y c size px py m tx ty hc hsize hpx hpy hm htx hty => ?_, fun s i x y y' hbit hy => ?_, fun s i x y hbit => ?_⟩
  · subst hc
    have hpxlt : px < if size = 1 ∨ size = 3 then 512 else 256 := by
      rw [hpx]
      exact Nat.mod_lt _ (by split_ifs <;> decide)
    have hpylt : py < if size = 2 ∨ size = 3 then 512 else 256 := by
      rw [hpy]
      exact Nat.mod_lt _ (by split_ifs <;> decide)
    have hsample : s.textSample i x y = s.textTexel (s.regs.bgcnt.get i) px py := by
      rw [State.textSample_eq, textWidth_eq, textHeight_eq, Regs.textLine_eq, ← hsize, hpx, hpy]
    rw [← mapAddr_eq hsize hpxlt hpylt] at hm
    rw [hsample, State.textTexel_eq s _ hm htx hty]
    refine ⟨fun h8 => if_pos h8, fun h4 b hb => ?_⟩
    rw [if_neg (by omega), hb]
  · rw [State.textSample_eq, State.textSample_eq, Regs.textLine_of_mosaic hbit hy]
  · have hw : textWidth (s.regs.bgcnt.get i) ∣ 512 := by
      rw [textWidth_eq]
      split_ifs <;> decide
    have hh : textHeight (s.regs.bgcnt.get i) ∣ 512 := by
      rw [textHeight_eq]
      split_ifs <;> decide
    simp only [State.textSample_eq, Regs.textLine_of_noMosaic hbit]
    refine ⟨by rw [scrolled_of_dvd hw], by rw [scrolled_of_dvd hh], fun hsize => ?_, fun hsize => ?_⟩
    · rw [scrolled_of_dvd (by rw [textWidth_eq, if_neg (by omega)])]
    · rw [scrolled_of_dvd (by rw [textHeight_eq, if_neg (by omega)])]

/-! ### The sample of an affine layer -/

/-- The texel coordinate of an accumulator (R130). -/
theorem texelOf_eq (v : Word) : texelOf v = v.toInt / 256 := Int.shiftRight_eq_div_pow _ _

/-- The texel of an affine layer in numbers: the map's byte, and the 8-bit tile (R124, R128, R270). -/
theorem State.affineTexel_eq (s : State) (cnt : Half) (size u v : Nat) :
    s.affineTexel cnt size u v =
      s.bgEntry (s.bgByteAt (cnt.toNat / 4 % 4 * 0x4000 +
        s.bgByteAt (cnt.toNat / 256 % 32 * 0x800 + v / 8 * (size / 8) + u / 8) * 64 + v % 8 * 8 + u % 8)) 0 := by
  simp only [State.affineTexel, charBase_eq, screenBase_eq, State.bgFetch8_toNat, State.opaqueIndex_bgpal_zero]

section
variable {s : State} {k : Aff} {size : Nat} (hsize : size = 128 * 2 ^ ((s.regs.bgcnt.get k.bg).toNat / 0x4000))
include hsize

/-- With OVERFLOW_WRAP an affine layer samples at its accumulators' texel modulo its size (R270). -/
theorem State.affineSample_of_wrap (hbit : bit (s.regs.bgcnt.get k.bg) 13 = true) :
    s.affineSample k = s.affineTexel (s.regs.bgcnt.get k.bg) size ((s.line.ax.get k).toInt / 256 % size).toNat
      ((s.line.ay.get k).toInt / 256 % size).toNat := by
  simp only [State.affineSample, hbit, if_true, texelOf_eq, screenSize_eq, Nat.shiftLeft_eq, ← hsize]

/-- Without OVERFLOW_WRAP it samples inside the layer only (R270). -/
theorem State.affineSample_of_edge (hbit : bit (s.regs.bgcnt.get k.bg) 13 = false) :
    s.affineSample k =
      if (s.line.ax.get k).toInt / 256 < 0 ∨ (size : Int) ≤ (s.line.ax.get k).toInt / 256 ∨
          (s.line.ay.get k).toInt / 256 < 0 ∨ (size : Int) ≤ (s.line.ay.get k).toInt / 256 then none
      else s.affineTexel (s.regs.bgcnt.get k.bg) size ((s.line.ax.get k).toInt / 256).toNat ((s.line.ay.get k).toInt / 256).toNat := by
  simp only [State.affineSample, hbit, Bool.false_eq_true, if_false, texelOf_eq, screenSize_eq, Nat.shiftLeft_eq, ← hsize]

end

/-- A number of layer sizes does not move the texel modulo the size. -/
theorem texel_emod_of_shift {a b n : Int} {size : Nat} (h : b = a + 256 * size * n) : b / 256 % size = a / 256 % size := by
  rw [h, Int.mul_assoc, Int.add_mul_ediv_left _ _ (by decide), Int.add_mul_emod_self_left]

/-- Settles O36: the two ways an affine layer samples (`affineSample_of_wrap`, `affineSample_of_edge`), and the texel in numbers (`affineTexel_eq`). -/
theorem affineEdges : Obligations.AffineEdges := by
  intro s t k size hsize
  refine ⟨fun c u v tile hc hu hv hat htile => ?_, fun m n hbit ht hx hy => ?_, fun hbit hout => ?_⟩
  · subst hc htile
    rw [← State.affineTexel_eq]
    rcases hat with ⟨hbit, hx, hy⟩ | ⟨hbit, hx, hy⟩
    · rw [State.affineSample_of_wrap hsize hbit, hx, hy, Int.toNat_natCast, Int.toNat_natCast]
    · rw [State.affineSample_of_edge hsize hbit, hx, hy, if_neg (by omega), Int.toNat_natCast, Int.toNat_natCast]
  · generalize t.line = l at ht hx hy
    subst ht
    rw [State.affineSample_of_wrap (s := { s with line := l }) hsize hbit, State.affineSample_of_wrap hsize hbit,
      texel_emod_of_shift hx, texel_emod_of_shift hy]
    rfl
  · rw [State.affineSample_of_edge hsize hbit, if_pos hout]

end Sys2Proof.Machine
end

section
/-! SUPPORT. The statements of 20_memory.md: the address ranges (R81, R82), the reads and writes of the four spaces (R83 to R90, R92), and what
every WRITE has in common: it is idempotent (R93), and it misses the pixels already produced (R97). -/

namespace Sys2Proof.Machine

/-! ### The address ranges -/

theorem Space.mmio_holds_iff (a : Word) : Space.mmio.holds a = true ↔ 0x04000000 ≤ a.toNat ∧ a.toNat ≤ 0x04000057 := by
  rw [Space.holds_iff]
  show a.toNat / 0x1000000 = 4 ∧ a.toNat % 0x1000000 ≤ 0x57 ↔ _
  omega

theorem Space.pram_holds_iff (a : Word) : Space.pram.holds a = true ↔ 0x05000000 ≤ a.toNat ∧ a.toNat < 0x06000000 := by
  rw [Space.holds_iff]
  show a.toNat / 0x1000000 = 5 ∧ a.toNat % 0x1000000 ≤ 0xFFFFFF ↔ _
  omega

theorem Space.vram_holds_iff (a : Word) : Space.vram.holds a = true ↔ 0x06000000 ≤ a.toNat ∧ a.toNat < 0x07000000 := by
  rw [Space.holds_iff]
  show a.toNat / 0x1000000 = 6 ∧ a.toNat % 0x1000000 ≤ 0xFFFFFF ↔ _
  omega

theorem Space.oam_holds_iff (a : Word) : Space.oam.holds a = true ↔ 0x07000000 ≤ a.toNat ∧ a.toNat < 0x08000000 := by
  rw [Space.holds_iff]
  show a.toNat / 0x1000000 = 7 ∧ a.toNat % 0x1000000 ≤ 0xFFFFFF ↔ _
  omega

/-- Settles O4: one range for each space. -/
theorem addressSpaces : Obligations.AddressSpaces := fun a =>
  ⟨Space.mmio_holds_iff a, Space.pram_holds_iff a, Space.vram_holds_iff a, Space.oam_holds_iff a⟩

/-! ### Legal commands -/

theorem whenLegal_of_legal {legal : Bool} (h : legal = true) (s : State) (body : State → Result) : whenLegal legal s body = body s :=
  if_pos h

/-- A legal WRITE catches up before it changes state (R90). -/
theorem busWrite_of_legal {legal : Bool} (h : legal = true) (s : State) (write : State → State) :
    busWrite legal s write = .next (write s.catchUp) :=
  if_pos h

/-! ### Reads -/

/-- Settles O17: the six reads at the offsets in numbers (`bankOffset_eq`). -/
theorem readPaletteAndOam : Obligations.ReadPaletteAndOam := by
  intro s a
  rw [← bankOffset_eq]
  refine ⟨fun h1 h2 => ?_, fun h1 h2 => ?_⟩
  · have ha := (Space.pram_holds_iff a).2 ⟨h1, h2⟩
    simp only [exec, execRead8Pram, execRead16Pram, execRead32Pram, whenLegal_of_legal ha]
    exact ⟨rfl, rfl, rfl⟩
  · have ha := (Space.oam_holds_iff a).2 ⟨h1, h2⟩
    simp only [exec, execRead8Oam, execRead16Oam, execRead32Oam, whenLegal_of_legal ha]
    exact ⟨rfl, rfl, rfl⟩

/-- A position in the hole has no offset (R85). -/
theorem State.vo_of_hole {s : State} {o : Nat} (h : vramHole s.mode o) : s.vo o = none := by
  obtain ⟨h1, h2, h3⟩ := h
  have hbank : o / 0x4000 % 2 = 0 := by omega
  have h4 : 3 ≤ s.regs.bgMode := by rwa [bgMode_eq]
  simp only [State.vo, vramOffset, h1, h4, hbank, and_self, if_true]

/-- Any other position of the window has the offset that mirrors the object region (R85). -/
theorem State.vo_of_not_hole {s : State} {o : Nat} (ho : o < 0x20000) (h : ¬ vramHole s.mode o) : s.vo o = some (vramAt o) := by
  unfold vramHole State.mode at h
  unfold State.vo vramOffset vramAt
  rw [bgMode_eq]
  by_cases h1 : 0x18000 ≤ o
  · rw [if_pos h1, if_neg (by omega), if_neg (by omega)]
  · rw [if_neg h1, if_pos (by omega)]

/-- The hole begins and ends at word boundaries. -/
theorem vramHole_alignHalf {mode o : Nat} : vramHole mode (alignHalf o) ↔ vramHole mode o := by
  unfold vramHole alignHalf
  omega

theorem vramHole_alignWord {mode o : Nat} : vramHole mode (alignWord o) ↔ vramHole mode o := by
  unfold vramHole alignWord
  omega

theorem State.vo_alignHalf_of_not_hole {s : State} {o : Nat} (ho : o < 0x20000) (h : ¬ vramHole s.mode o) :
    s.vo (alignHalf o) = some (vramAt (alignHalf o)) :=
  State.vo_of_not_hole (by unfold alignHalf; omega) (mt vramHole_alignHalf.1 h)

theorem State.vo_alignWord_of_not_hole {s : State} {o : Nat} (ho : o < 0x20000) (h : ¬ vramHole s.mode o) :
    s.vo (alignWord o) = some (vramAt (alignWord o)) :=
  State.vo_of_not_hole (by unfold alignWord; omega) (mt vramHole_alignWord.1 h)

theorem vramWindow_lt (a : Word) : vramWindow a < 0x20000 := by
  rw [vramWindow_eq]
  omega

/-- Settles O18: the position has no offset (`vo_of_hole`), or one (`vo_of_not_hole`), and so has the aligned position. -/
theorem readImage : Obligations.ReadImage := by
  intro s a h1 h2
  have ha := (Space.vram_holds_iff a).2 ⟨h1, h2⟩
  have hw := vramWindow_lt a
  rw [← vramWindow_eq]
  simp only [exec, execRead8Vram, execRead16Vram, execRead32Vram, whenLegal_of_legal ha]
  refine ⟨fun h => ?_, fun h => ?_⟩
  · rw [State.vo_of_hole h, State.vo_of_hole (vramHole_alignHalf.2 h), State.vo_of_hole (vramHole_alignWord.2 h)]
    exact ⟨rfl, rfl, rfl⟩
  · rw [State.vo_of_not_hole hw h, State.vo_alignHalf_of_not_hole hw h, State.vo_alignWord_of_not_hole hw h]
    exact ⟨rfl, rfl, rfl⟩

/-- The bits a read of DISPSTAT shows, field by field (R180). -/
theorem and_dispstatRead (d : Half) : d &&& dispstatRead = d.extractLsb' 8 8 ++ 0#2 ++ d.extractLsb' 0 6 := by
  ext i hi
  rw [dispstatRead, BitVec.getElem_append]
  split
  · interval_cases i <;> simp
  · rw [BitVec.getElem_append]
    interval_cases i <;> simp_all

/-- The register bank on the bus is what R180 lists. -/
theorem State.regRead16_eq_shown (s : State) (o : Nat) : s.regRead16 o = s.shown o := by
  unfold State.regRead16 regAt
  split
  case h_2 => exact congrArg some (and_dispstatRead _)
  case h_42 => simp_all [State.shown, State.regDriven]
  all_goals rfl

/-- The offset of an address of the register bank (R82). -/
theorem mmioOffset_of_toNat {a : Word} {o : Nat} (ho : o ≤ 0x57) (ha : a.toNat = 0x04000000 + o) :
    Space.mmio.holds a = true ∧ mmioOffset a = o := by
  rw [Space.mmio_holds_iff, mmioOffset_eq]
  omega

/-- Settles O19: what is read is what R180 shows (`regRead16_eq_shown`), or a free value. -/
theorem readRegisters : Obligations.ReadRegisters := by
  refine ⟨fun s o a ho ha => ?_, fun s o a ho ha => ?_⟩ <;> obtain ⟨hlegal, hoff⟩ := mmioOffset_of_toNat ho ha
  · simp only [exec, execRead8Mmio, execRead16Mmio, whenLegal_of_legal hlegal, hoff, alignHalf, State.regRead16_eq_shown]
    refine ⟨fun h hs => ?_, fun hs => ?_⟩ <;> rw [hs]
    · rw [← byteLane_eq]
      exact ⟨rfl, rfl⟩
    · exact ⟨⟨_, rfl⟩, _, rfl⟩
  · simp only [exec, execRead32Mmio, whenLegal_of_legal hlegal, hoff, alignWord, State.regRead16_eq_shown]
    refine ⟨_, _, _, rfl, fun v hs => ?_, fun hs => ?_, fun v hs => ?_, fun hs => ?_⟩ <;> rw [hs]
    exacts [rfl, ⟨_, rfl⟩, rfl, ⟨_, rfl⟩]

/-! ### What a WRITE stores -/

/-- What a WRITE stores, once the pipeline is caught up (R193 to R205). An image memory write with no offset stores nothing. -/
def State.store (u : State) : Instr → State
  | .write8Mmio a b =>
    u.regWrite16 (alignHalf (mmioOffset a)) (mergeByte (u.regs.s16 (alignHalf (mmioOffset a))) (mmioOffset a) b)
  | .write16Mmio a h => u.regWrite16 (alignHalf (mmioOffset a)) h
  | .write32Mmio a w => (u.regWrite16 (alignWord (mmioOffset a)) (loHalf w)).regWrite16 (alignWord (mmioOffset a) + 2) (hiHalf w)
  | .write8Pram a b => u.setPram (u.pram.write16 (alignHalf (bankOffset a)) (replicate b))
  | .write16Pram a h => u.setPram (u.pram.write16 (alignHalf (bankOffset a)) h)
  | .write32Pram a w => u.setPram (u.pram.write32 (alignWord (bankOffset a)) w)
  | .write8Vram a b => u.setVram ((u.vramByteTarget (vramWindow a)).elim u.vram fun v => u.vram.write16 v (replicate b))
  | .write16Vram a h => u.setVram ((u.vo (alignHalf (vramWindow a))).elim u.vram fun v => u.vram.write16 v h)
  | .write32Vram a w => u.setVram ((u.vo (alignWord (vramWindow a))).elim u.vram fun v => u.vram.write32 v w)
  | .write16Oam a h => u.setOam (u.oam.write16 (alignHalf (bankOffset a)) h)
  | .write32Oam a w => u.setOam (u.oam.write32 (alignWord (bankOffset a)) w)
  | _ => u

/-- `isWriteInstr` by constructor. -/
def isWrite : Instr → Bool
  | .write8Mmio _ _ | .write16Mmio _ _ | .write32Mmio _ _ | .write8Pram _ _ | .write16Pram _ _ | .write32Pram _ _ => true
  | .write8Vram _ _ | .write16Vram _ _ | .write32Vram _ _ | .write8Oam _ _ | .write16Oam _ _ | .write32Oam _ _ => true
  | _ => false

theorem isWrite_of_isWriteInstr {i : Instr} (hi : isWriteInstr i) : isWrite i = true := by
  cases i <;> simp [isWriteInstr, encode] at hi <;> rfl

theorem isBus_of_isWrite {i : Instr} (hi : isWrite i = true) : i.isBus = true := by
  cases i <;> simp only [isWrite, Bool.false_eq_true] at hi <;> rfl

/-- A legal WRITE catches up and then stores (R90). -/
theorem exec_write {i : Instr} (hi : isWrite i = true) (hwf : i.wf = true) (s : State) : exec i s = .next (s.catchUp.store i) := by
  cases i <;> simp only [isWrite, Bool.false_eq_true] at hi
  all_goals
    simp only [exec, execWrite8Mmio, execWrite16Mmio, execWrite32Mmio, execWrite8Pram, execWrite16Pram, execWrite32Pram, execWrite8Vram,
      execWrite16Vram, execWrite32Vram, execWrite8Oam, execWrite16Oam, execWrite32Oam]
    refine (busWrite_of_legal hwf s _).trans (congrArg _ ?_)
  case write8Vram a b =>
    simp only [State.store]
    cases s.catchUp.vramByteTarget (vramWindow a) <;> rfl
  case write16Vram a h =>
    simp only [State.store]
    cases s.catchUp.vo (alignHalf (vramWindow a)) <;> rfl
  case write32Vram a w =>
    simp only [State.store]
    cases s.catchUp.vo (alignWord (vramWindow a)) <;> rfl
  all_goals rfl

/-! ### Writes of the banks -/

theorem State.caughtUp_catchUp (s : State) : s.CaughtUp s.catchUp where
  sched := s.catchUp_sched
  fatal := s.catchUp_fatal
  regs := s.catchUp_regs
  ppu := s.catchUp_ppu
  line := rfl
  fb := rfl
  trace := s.catchUp_trace
  params := s.catchUp_params
  host := s.catchUp_host
  draws := s.catchUp_draws

/-- The banks are no part of `CaughtUp`. -/
theorem State.CaughtUp.setPram {s t : State} (h : s.CaughtUp t) (m : Memory) : s.CaughtUp (t.setPram m) := { h with }
theorem State.CaughtUp.setOam {s t : State} (h : s.CaughtUp t) (m : Memory) : s.CaughtUp (t.setOam m) := { h with }
theorem State.CaughtUp.setVram {s t : State} (h : s.CaughtUp t) (m : Memory) : s.CaughtUp (t.setVram m) := { h with }

theorem alignHalf_div (o : Nat) : alignHalf o / 2 = o / 2 := by unfold alignHalf; omega
theorem alignHalf_even (o : Nat) : alignHalf o % 2 = 0 := by unfold alignHalf; omega
theorem alignWord_div (o : Nat) : alignWord o / 4 = o / 4 := by unfold alignWord; omega
theorem alignWord_multiple (o : Nat) : alignWord o % 4 = 0 := by unfold alignWord; omega

/-- A byte written to an even offset in both halves (R89). -/
theorem Memory.read8_write16_replicate (m : Memory) {o : Nat} (ho : o % 2 = 0) (j : Nat) (b : Byte) :
    (m.write16 o (replicate b)).read8 j = if j / 2 = o / 2 then b else m.read8 j := by
  rw [Memory.read8_write16_even m j _ ho, lane_replicate]

/-- Settles O20: the bytes of a halfword and of a word stored at its aligned offset (`read8_write16_even`, `read8_write32`). -/
theorem writePalette : Obligations.WritePalette := by
  intro s a h1 h2
  have ha := (Space.pram_holds_iff a).2 ⟨h1, h2⟩
  have hc := s.caughtUp_catchUp
  rw [← bankOffset_eq, ← alignHalf_div (bankOffset a), ← alignWord_div (bankOffset a), ← s.catchUp_pram, ← s.catchUp_oam,
    ← s.catchUp_vram]
  refine ⟨fun b => ?_, fun h => ?_, fun w => ?_⟩
  · exact ⟨_, exec_write (i := .write8Pram a b) rfl ha s, hc.setPram _, rfl, rfl,
      fun j => Memory.read8_write16_replicate _ (alignHalf_even _) j b⟩
  · exact ⟨_, exec_write (i := .write16Pram a h) rfl ha s, hc.setPram _, rfl, rfl,
      fun j => Memory.read8_write16_even _ j h (alignHalf_even _)⟩
  · exact ⟨_, exec_write (i := .write32Pram a w) rfl ha s, hc.setPram _, rfl, rfl,
      fun j => Memory.read8_write32 _ j w (alignWord_multiple _)⟩

/-- Settles O21: a byte write stores nothing, and the others store as in palette memory. -/
theorem writeOam : Obligations.WriteOam := by
  intro s a h1 h2
  have ha := (Space.oam_holds_iff a).2 ⟨h1, h2⟩
  have hc := s.caughtUp_catchUp
  rw [← bankOffset_eq, ← alignHalf_div (bankOffset a), ← alignWord_div (bankOffset a), ← s.catchUp_pram, ← s.catchUp_oam,
    ← s.catchUp_vram]
  refine ⟨fun b => ?_, fun h => ?_, fun w => ?_⟩
  · exact ⟨_, exec_write (i := .write8Oam a b) rfl ha s, hc, rfl, rfl, rfl⟩
  · exact ⟨_, exec_write (i := .write16Oam a h) rfl ha s, hc.setOam _, rfl, rfl,
      fun j => Memory.read8_write16_even _ j h (alignHalf_even _)⟩
  · exact ⟨_, exec_write (i := .write32Oam a w) rfl ha s, hc.setOam _, rfl, rfl,
      fun j => Memory.read8_write32 _ j w (alignWord_multiple _)⟩

theorem State.bgLimit_eq (s : State) : bgLimit s.regs.bgMode = if s.mode ≤ 2 then 0x10000 else 0x14000 := by
  rw [bgMode_eq]
  rfl

/-- A byte write is dropped in the hole, and from the background limit on (R85, R86, R196). -/
theorem State.vramByteTarget_of_dropped {s : State} {o : Nat} (ho : o < 0x20000)
    (h : vramHole s.mode o ∨ (if s.mode ≤ 2 then 0x10000 else 0x14000) ≤ vramAt o) : s.vramByteTarget o = none := by
  unfold State.vramByteTarget
  by_cases hh : vramHole s.mode o
  · rw [State.vo_of_hole hh]
  · rw [State.vo_of_not_hole ho hh, State.bgLimit_eq]
    exact if_neg (Nat.not_lt.2 (h.resolve_left hh))

/-- Below the limit it goes to the halfword of its offset (R196). -/
theorem State.vramByteTarget_of_stored {s : State} {o : Nat} (ho : o < 0x20000) (hh : ¬ vramHole s.mode o)
    (h : vramAt o < if s.mode ≤ 2 then 0x10000 else 0x14000) : s.vramByteTarget o = some (alignHalf (vramAt o)) := by
  unfold State.vramByteTarget
  rw [State.vo_of_not_hole ho hh, State.bgLimit_eq]
  exact if_pos h

/-- Both sides of the object region's mirror are word-aligned. -/
theorem vramAt_alignHalf (o : Nat) : vramAt (alignHalf o) = alignHalf (vramAt o) := by
  unfold vramAt alignHalf
  split_ifs <;> omega

theorem vramAt_alignWord (o : Nat) : vramAt (alignWord o) = alignWord (vramAt o) := by
  unfold vramAt alignWord
  split_ifs <;> omega

theorem State.catchUp_mode (s : State) : s.catchUp.mode = s.mode := by
  rw [State.mode, State.catchUp_regs, State.mode]

/-- Settles O22: where the write goes (`vramByteTarget_of_dropped`, `vramByteTarget_of_stored`, `vo_of_hole`, `vo_of_not_hole`), and the bytes
stored there. -/
theorem writeImage : Obligations.WriteImage := by
  intro s a h1 h2
  have ha := (Space.vram_holds_iff a).2 ⟨h1, h2⟩
  have hc := s.caughtUp_catchUp
  have hw := vramWindow_lt a
  rw [← vramWindow_eq, ← alignHalf_div (vramAt _), ← alignWord_div (vramAt _), ← s.catchUp_mode, ← s.catchUp_pram, ← s.catchUp_oam,
    ← s.catchUp_vram]
  refine ⟨fun b => ?_, fun h => ?_, fun w => ?_⟩
  · refine ⟨_, exec_write (i := .write8Vram a b) rfl ha s, hc.setVram _, rfl, rfl, fun hd => ?_, fun hn hl j => ?_⟩ <;>
      simp only [State.store, State.setVram_vram]
    · rw [State.vramByteTarget_of_dropped hw hd, Option.elim_none]
    · rw [State.vramByteTarget_of_stored hw hn hl, Option.elim_some]
      exact Memory.read8_write16_replicate _ (alignHalf_even _) j b
  · refine ⟨_, exec_write (i := .write16Vram a h) rfl ha s, hc.setVram _, rfl, rfl, fun hh => ?_, fun hn j => ?_⟩ <;>
      simp only [State.store, State.setVram_vram]
    · rw [State.vo_of_hole (vramHole_alignHalf.2 hh), Option.elim_none]
    · rw [State.vo_alignHalf_of_not_hole hw hn, Option.elim_some, vramAt_alignHalf]
      exact Memory.read8_write16_even _ j h (alignHalf_even _)
  · refine ⟨_, exec_write (i := .write32Vram a w) rfl ha s, hc.setVram _, rfl, rfl, fun hh => ?_, fun hn j => ?_⟩ <;>
      simp only [State.store, State.setVram_vram]
    · rw [State.vo_of_hole (vramHole_alignWord.2 hh), Option.elim_none]
    · rw [State.vo_alignWord_of_not_hole hw hn, Option.elim_some, vramAt_alignWord]
      exact Memory.read8_write32 _ j w (alignWord_multiple _)

/-! ### Registers written twice -/

theorem PerAff.set_set {α : Type} (p : PerAff α) (k : Aff) (v v' : α) : (p.set k v).set k v' = p.set k v' := by
  cases k <;> rfl

theorem PerBg.set_set {α : Type} (p : PerBg α) (i : Bg) (v v' : α) : (p.set i v).set i v' = p.set i v' := by
  cases i <;> rfl

theorem loHalf_append (h l : Half) : loHalf (h ++ l) = l := BitVec.extractLsb'_append_eq_right

theorem hiHalf_append (h l : Half) : hiHalf (h ++ l) = h := BitVec.extractLsb'_append_eq_left

/-- A reference point keeps its low 28 bits (R37). -/
theorem getLsbD_sextRef (w : Word) {i : Nat} (hi : i < 28) : (sextRef w).getLsbD i = w.getLsbD i := by
  rw [sextRef, BitVec.getLsbD_signExtend, if_pos hi, BitVec.getLsbD_extractLsb', decide_eq_true (by omega), decide_eq_true hi, Bool.true_and,
    Bool.true_and, Nat.zero_add]

/-- A reference point depends on those bits alone. -/
theorem sextRef_congr {w w' : Word} (h : ∀ i < 28, w.getLsbD i = w'.getLsbD i) : sextRef w = sextRef w' := by
  refine congrArg (BitVec.signExtend 32) (BitVec.eq_of_getLsbD_eq fun i hi => ?_)
  simp [hi, h i hi]

theorem loHalf_sextRef (w : Word) : loHalf (sextRef w) = loHalf w := by
  refine BitVec.eq_of_getLsbD_eq fun i hi => ?_
  simp only [loHalf, BitVec.getLsbD_extractLsb', Nat.zero_add, getLsbD_sextRef w (show i < 28 by omega)]

theorem getLsbD_mask12 : ∀ i < 16, (0x0FFF#16).getLsbD i = decide (i < 12) := by decide

/-- The high half of a reference point has 12 bits. -/
theorem hiHalf_sextRef_and (w : Word) : hiHalf (sextRef w) &&& 0x0FFF#16 = hiHalf w &&& 0x0FFF#16 := by
  refine BitVec.eq_of_getLsbD_eq fun i hi => ?_
  by_cases h : i < 12
  · simp only [hiHalf, BitVec.getLsbD_and, BitVec.getLsbD_extractLsb', getLsbD_sextRef w (show 16 + i < 28 by omega)]
  · rw [BitVec.getLsbD_and, BitVec.getLsbD_and, getLsbD_mask12 i hi, decide_eq_false h, Bool.and_false, Bool.and_false]

/-- A reference point takes 12 bits of the high half. -/
theorem sextRef_append_congr {v v' : Half} (h : v &&& 0x0FFF#16 = v' &&& 0x0FFF#16) (l : Half) : sextRef (v ++ l) = sextRef (v' ++ l) := by
  refine sextRef_congr fun i hi => ?_
  rw [BitVec.getLsbD_append, BitVec.getLsbD_append]
  split
  · rfl
  · have hb : (v &&& 0x0FFF#16).getLsbD (i - 16) = (v' &&& 0x0FFF#16).getLsbD (i - 16) := by rw [h]
    rwa [BitVec.getLsbD_and, BitVec.getLsbD_and, getLsbD_mask12 _ (by omega), decide_eq_true (by omega), Bool.and_true, Bool.and_true] at hb

/-- The high half that a reference point keeps is as good as the one written. -/
theorem sextRef_hiHalf_append (w : Word) (l : Half) : sextRef (hiHalf (sextRef w) ++ l) = sextRef (hiHalf w ++ l) :=
  sextRef_append_congr (hiHalf_sextRef_and w) l

/-- The bits of its register a halfword write stores (R29, R37). -/
def RegHalf.mask : RegHalf → Half
  | .dispcnt => 0xFFF7#16
  | .dispstat => dispstatWritable
  | .bgcnt .bg0 | .bgcnt .bg1 => 0xDFFF#16
  | .hofs _ | .vofs _ => 0x01FF#16
  | .refXHi _ | .refYHi _ => 0x0FFF#16
  | .winin | .winout => 0x3F3F#16
  | .bldcnt => 0x3FFF#16
  | .bldalpha => 0x1F1F#16
  | .bldy => 0x001F#16
  | .vcount | .unused => 0#16
  | .bgcnt .bg2 | .bgcnt .bg3 | .pa _ | .pb _ | .pc _ | .pd _ | .refXLo _ | .refYLo _ => 0xFFFF#16
  | .win0h | .win1h | .win0v | .win1v | .mosaic => 0xFFFF#16

/-- A write depends on the bits of the mask alone. -/
theorem Regs.written_and_mask (r : Regs) (h : RegHalf) (v : Half) : r.written h (v &&& h.mask) = r.written h v := by
  have hall : v &&& 0xFFFF#16 = v := BitVec.and_allOnes
  have href : v &&& 0x0FFF#16 &&& 0x0FFF#16 = v &&& 0x0FFF#16 := and_and_mask v _
  cases h with
  | bgcnt i => cases i <;> simp only [Regs.written, RegHalf.mask, and_and_mask, hall]
  | refXHi k | refYHi k => simp only [Regs.written, RegHalf.mask, refWithHi, sextRef_append_congr href]
  | _ => simp only [Regs.written, RegHalf.mask, and_and_mask, hall]

/-- A write of DISPSTAT replaces its writable bits and keeps the rest (R207). -/
theorem dispstat_written (d v : Half) :
    (d &&& dispstatKept ||| v &&& dispstatWritable) &&& dispstatWritable = v &&& dispstatWritable ∧
      (d &&& dispstatKept ||| v &&& dispstatWritable) &&& dispstatKept = d &&& dispstatKept := by
  have hkept : dispstatKept &&& dispstatWritable = 0#16 := by decide
  have hwritable : dispstatWritable &&& dispstatKept = 0#16 := by decide
  constructor
  · rw [BitVec.and_or_distrib_right, BitVec.and_assoc, hkept, BitVec.and_zero, BitVec.zero_or, and_and_mask]
  · rw [BitVec.and_or_distrib_right, and_and_mask, BitVec.and_assoc, hwritable, BitVec.and_zero, BitVec.or_zero]

/-- What is then stored has the bits written, in the mask. -/
theorem Regs.stored_written_and_mask (r : Regs) (h : RegHalf) (v : Half) : (r.written h v).stored h &&& h.mask = v &&& h.mask := by
  cases h with
  | dispstat => exact (and_and_mask _ _).trans (dispstat_written _ v).1
  | vcount | unused => simp only [RegHalf.mask, BitVec.and_zero]
  | bgcnt i => cases i <;> simp only [Regs.written, Regs.stored, RegHalf.mask, PerBg.get_set, if_true, and_and_mask]
  | hofs i | vofs i => simp only [Regs.written, Regs.stored, RegHalf.mask, PerBg.get_set, if_true, and_and_mask]
  | refXLo k | refYLo k =>
    simp only [Regs.written, Regs.stored, PerAff.get_set, if_true, refWithLo, loHalf_sextRef, loHalf_append]
  | refXHi k | refYHi k =>
    simp only [Regs.written, Regs.stored, RegHalf.mask, PerAff.get_set, if_true, refWithHi, hiHalf_sextRef_and, hiHalf_append]
  | _ => simp only [Regs.written, Regs.stored, RegHalf.mask, PerAff.get_set, if_true, and_and_mask]

/-- The last write of a register counts. -/
theorem Regs.written_written (r : Regs) (h : RegHalf) (v v' : Half) : (r.written h v).written h v' = r.written h v' := by
  cases h with
  | dispstat => simp only [Regs.written, (dispstat_written _ v).2]
  | bgcnt i => cases i <;> simp only [Regs.written, PerBg.set_set]
  | refXLo k | refYLo k =>
    simp only [Regs.written, PerAff.get_set, PerAff.set_set, if_true, refWithLo, sextRef_hiHalf_append, hiHalf_append]
  | refXHi k | refYHi k =>
    simp only [Regs.written, PerAff.get_set, PerAff.set_set, if_true, refWithHi, loHalf_sextRef, loHalf_append]
  | _ => simp only [Regs.written, PerBg.set_set, PerAff.set_set]

theorem Ppu.refLoaded_refLoaded (p : Ppu) (r r' : Regs) (h : RegHalf) : (p.refLoaded r h).refLoaded r' h = p.refLoaded r' h := by
  cases h <;> simp only [Ppu.refLoaded, PerAff.set_set]

theorem State.regWriteHalf_regWriteHalf (s : State) (h : RegHalf) (v v' : Half) :
    (s.regWriteHalf h v).regWriteHalf h v' = s.regWriteHalf h v' := by
  have hr := s.regs.written_written h v v'
  have hp := s.ppu.refLoaded_refLoaded (s.regs.written h v) (s.regs.written h v') h
  simp only [State.regWriteHalf, State.setPpu, State.setRegs, hr, hp]

theorem State.regWrite16_regWrite16 (s : State) (o : Nat) (v v' : Half) : (s.regWrite16 o v).regWrite16 o v' = s.regWrite16 o v' :=
  s.regWriteHalf_regWriteHalf (regAt o) v v'

theorem State.regWriteHalf_congr (s : State) {h : RegHalf} {v v' : Half} (hv : v &&& h.mask = v' &&& h.mask) :
    s.regWriteHalf h v = s.regWriteHalf h v' := by
  unfold State.regWriteHalf
  rw [← s.regs.written_and_mask h v, hv, s.regs.written_and_mask]

/-- The two halves of a reference point may be written in either order. -/
theorem State.regWriteHalf_refX_comm (s : State) (k : Aff) (lo hi : Half) :
    (s.regWriteHalf (.refXLo k) lo).regWriteHalf (.refXHi k) hi = (s.regWriteHalf (.refXHi k) hi).regWriteHalf (.refXLo k) lo := by
  simp only [State.regWriteHalf, State.setPpu, State.setRegs, Regs.written, Ppu.refLoaded, PerAff.get_set, PerAff.set_set, if_true,
    refWithLo, refWithHi, loHalf_sextRef, loHalf_append, sextRef_hiHalf_append, hiHalf_append]

theorem State.regWriteHalf_refY_comm (s : State) (k : Aff) (lo hi : Half) :
    (s.regWriteHalf (.refYLo k) lo).regWriteHalf (.refYHi k) hi = (s.regWriteHalf (.refYHi k) hi).regWriteHalf (.refYLo k) lo := by
  simp only [State.regWriteHalf, State.setPpu, State.setRegs, Regs.written, Ppu.refLoaded, PerAff.get_set, PerAff.set_set, if_true,
    refWithLo, refWithHi, loHalf_sextRef, loHalf_append, sextRef_hiHalf_append, hiHalf_append]

/-- The two halfwords of a word of the bank may be written in either order. -/
theorem State.regWrite16_comm (s : State) {o : Nat} (ho : o % 4 = 0) (hlt : o < 0x58) (lo hi : Half) :
    (s.regWrite16 o lo).regWrite16 (o + 2) hi = (s.regWrite16 (o + 2) hi).regWrite16 o lo := by
  obtain ⟨n, rfl⟩ : ∃ n, o = 4 * n := ⟨o / 4, by omega⟩
  have hn : n < 22 := by omega
  rcases (by omega : n < 10 ∨ n = 10 ∨ n = 11 ∨ n = 12 ∨ n = 13 ∨ n = 14 ∨ n = 15 ∨ 15 < n) with h | rfl | rfl | rfl | rfl | rfl | rfl | h
  · interval_cases n <;> rfl
  · exact s.regWriteHalf_refX_comm .k2 lo hi
  · exact s.regWriteHalf_refY_comm .k2 lo hi
  · rfl
  · rfl
  · exact s.regWriteHalf_refX_comm .k3 lo hi
  · exact s.regWriteHalf_refY_comm .k3 lo hi
  · interval_cases n <;> rfl

/-- The bits of a merged halfword (R203). -/
theorem getLsbD_mergeByte (c : Half) (o : Nat) (b : Byte) {i : Nat} (hi : i < 16) :
    (mergeByte c o b).getLsbD i = if i / 8 = o % 2 then b.getLsbD (i % 8) else c.getLsbD i := by
  unfold mergeByte
  rcases Nat.mod_two_eq_zero_or_one o with h | h
  · rw [h, if_neg (by decide), BitVec.getLsbD_append]
    by_cases h8 : i < 8
    · rw [if_pos h8, if_pos (by omega), Nat.mod_eq_of_lt h8]
    · rw [if_neg h8, if_neg (by omega), hiByte, BitVec.getLsbD_extractLsb', decide_eq_true (by omega), Bool.true_and,
        Nat.add_sub_cancel' (by omega)]
  · rw [h, if_pos rfl, BitVec.getLsbD_append]
    by_cases h8 : i < 8
    · rw [if_pos h8, if_neg (by omega), loByte, BitVec.getLsbD_extractLsb', decide_eq_true h8, Bool.true_and, Nat.zero_add]
    · rw [if_neg h8, if_pos (by omega), show i % 8 = i - 8 by omega]

theorem mergeByte_mergeByte (c : Half) (o : Nat) (b : Byte) : mergeByte (mergeByte c o b) o b = mergeByte c o b := by
  refine BitVec.eq_of_getLsbD_eq fun i hi => ?_
  rw [getLsbD_mergeByte _ o b hi, getLsbD_mergeByte c o b hi]
  split_ifs <;> rfl

/-- A merge depends, in the mask, on the mask's bits of the other byte. -/
theorem mergeByte_and_congr {c c' m : Half} (h : c &&& m = c' &&& m) (o : Nat) (b : Byte) :
    mergeByte c o b &&& m = mergeByte c' o b &&& m := by
  refine BitVec.eq_of_getLsbD_eq fun i hi => ?_
  have hb : (c &&& m).getLsbD i = (c' &&& m).getLsbD i := by rw [h]
  rw [BitVec.getLsbD_and, BitVec.getLsbD_and, getLsbD_mergeByte c o b hi, getLsbD_mergeByte c' o b hi]
  split_ifs
  · rfl
  · simpa only [BitVec.getLsbD_and] using hb

/-- A byte write of a register, done again, changes nothing (R203). -/
theorem State.mergeByte_again (s : State) (h : RegHalf) {m : Half} {o : Nat} {b : Byte} (hm : mergeByte m o b = m) :
    (s.regWriteHalf h m).regWriteHalf h (mergeByte ((s.regWriteHalf h m).regs.stored h) o b) = s.regWriteHalf h m := by
  rw [State.regWriteHalf_regWriteHalf]
  refine s.regWriteHalf_congr ?_
  calc mergeByte ((s.regs.written h m).stored h) o b &&& h.mask = mergeByte m o b &&& h.mask :=
        mergeByte_and_congr (s.regs.stored_written_and_mask h m) o b
    _ = m &&& h.mask := by rw [hm]

/-! ### What every WRITE has in common -/

theorem State.catchUp_catchUp (s : State) : s.catchUp.catchUp = s.catchUp :=
  State.catchUp_again (s := s) (by simp) (by simp) (by simp) (by simp) (by simp) rfl

/-- After a WRITE the pipeline is still caught up: the line and the framebuffer are the catch-up's (R90). -/
theorem kept_of_exec_write {i : Instr} (hi : isWrite i = true) (hwf : i.wf = true) {s t : State} (ht : exec i s = .next t) :
    s.catchUp.Kept t ∧ t.catchUp = t ∧ t.line = s.catchUp.line ∧ t.fb = s.catchUp.fb := by
  obtain ⟨u, hu, hk⟩ := exec_bus_kept (isBus_of_isWrite hi) s.catchUp
  obtain rfl : u = t := by
    rw [exec_write hi hwf, State.catchUp_catchUp, ← exec_write hi hwf, ht] at hu
    exact (Host.Outcome.next.inj hu).symm
  obtain ⟨hline, hfb⟩ := hk.caught s.catchUp_catchUp
  exact ⟨hk, State.catchUp_again hk.params (by rw [hk.sched]) hk.vcount hk.phase hk.ls (by rw [hline, State.catchUp_catchUp]), hline, hfb⟩

/-- A word write that stores what two halfword writes store is these two. -/
theorem exec_word_of_store {word lo hi : Instr} (hword : isWrite word = true ∧ word.wf = true) (hlo : isWrite lo = true ∧ lo.wf = true)
    (hhi : isWrite hi = true ∧ hi.wf = true) (hstore : ∀ u : State, u.store word = (u.store lo).store hi) (s : State) :
    ∃ t u, exec lo s = .next t ∧ exec hi t = .next u ∧ exec word s = .next u := by
  have ht := exec_write hlo.1 hlo.2 s
  obtain ⟨-, hcaught, -⟩ := kept_of_exec_write hlo.1 hlo.2 ht
  refine ⟨_, _, ht, exec_write hhi.1 hhi.2 _, ?_⟩
  rw [exec_write hword.1 hword.2, hstore, hcaught]

section
variable {a lo hi : Word} (hlo : lo.toNat = a.toNat / 4 * 4) (hhi : hi.toNat = lo.toNat + 2)
include hlo hhi

/-- The two halfwords of a word are in its space. -/
theorem Space.holds_halves {sp : Space} (ha : sp.holds a = true) : sp.holds lo = true ∧ sp.holds hi = true := by
  have hlast : sp.lastOffset % 4 = 3 := by cases sp <;> rfl
  rw [Space.holds_iff] at ha ⊢
  rw [Space.holds_iff]
  omega

theorem mmioOffset_halves :
    alignHalf (mmioOffset lo) = alignWord (mmioOffset a) ∧ alignHalf (mmioOffset hi) = alignWord (mmioOffset a) + 2 := by
  simp only [mmioOffset_eq, alignHalf, alignWord]
  omega

theorem bankOffset_halves :
    alignHalf (bankOffset lo) = alignWord (bankOffset a) ∧ alignHalf (bankOffset hi) = alignWord (bankOffset a) + 2 := by
  simp only [bankOffset_eq, alignHalf, alignWord]
  omega

theorem vramWindow_halves :
    alignHalf (vramWindow lo) = alignWord (vramWindow a) ∧ alignHalf (vramWindow hi) = alignWord (vramWindow a) + 2 := by
  simp only [vramWindow_eq, alignHalf, alignWord]
  omega

end

/-- The second halfword of a word of image memory is in the hole, or beside the first, as the first is (R85). -/
theorem State.vo_add_two (u : State) {o : Nat} (ho : o % 4 = 0) : u.vo (o + 2) = (u.vo o).map (· + 2) := by
  unfold State.vo vramOffset
  by_cases h : 0x18000 ≤ o
  · rw [if_pos h, if_pos (by omega), show (o + 2) / 0x4000 = o / 0x4000 by omega]
    split
    · rfl
    · exact congrArg some (Nat.sub_add_comm (by omega))
  · rw [if_neg h, if_neg (by omega)]
    rfl

/-- Settles O28: the word write stores what the two halfword writes do (`exec_word_of_store`), space by space. -/
theorem wordWriteIsTwoHalves : Obligations.WordWriteIsTwoHalves := by
  intro s a lo hi w hlo hhi
  refine ⟨fun ha => ?_, fun ha => ?_, fun ha => ?_, fun ha => ?_⟩
  · obtain ⟨hl, hh⟩ := Space.holds_halves hlo hhi ha
    obtain ⟨h0, h2⟩ := mmioOffset_halves hlo hhi
    refine exec_word_of_store (word := .write32Mmio a w) (lo := .write16Mmio lo _) (hi := .write16Mmio hi _)
      ⟨rfl, ha⟩ ⟨rfl, hl⟩ ⟨rfl, hh⟩ (fun u => ?_) s
    simp only [State.store, h0, h2]
    rfl
  · obtain ⟨hl, hh⟩ := Space.holds_halves hlo hhi ha
    obtain ⟨h0, h2⟩ := bankOffset_halves hlo hhi
    refine exec_word_of_store (word := .write32Pram a w) (lo := .write16Pram lo _) (hi := .write16Pram hi _)
      ⟨rfl, ha⟩ ⟨rfl, hl⟩ ⟨rfl, hh⟩ (fun u => ?_) s
    simp only [State.store, h0, h2]
    rfl
  · obtain ⟨hl, hh⟩ := Space.holds_halves hlo hhi ha
    obtain ⟨h0, h2⟩ := vramWindow_halves hlo hhi
    refine exec_word_of_store (word := .write32Vram a w) (lo := .write16Vram lo _) (hi := .write16Vram hi _)
      ⟨rfl, ha⟩ ⟨rfl, hl⟩ ⟨rfl, hh⟩ (fun u => ?_) s
    simp only [State.store, h0, h2]
    have hvo : ∀ m, (u.setVram m).vo (alignWord (vramWindow a) + 2) = (u.vo (alignWord (vramWindow a))).map (· + 2) :=
      fun _ => u.vo_add_two (alignWord_multiple _)
    rw [hvo]
    cases u.vo (alignWord (vramWindow a)) <;> rfl
  · obtain ⟨hl, hh⟩ := Space.holds_halves hlo hhi ha
    obtain ⟨h0, h2⟩ := bankOffset_halves hlo hhi
    refine exec_word_of_store (word := .write32Oam a w) (lo := .write16Oam lo _) (hi := .write16Oam hi _)
      ⟨rfl, ha⟩ ⟨rfl, hl⟩ ⟨rfl, hh⟩ (fun u => ?_) s
    simp only [State.store, h0, h2]
    rfl

theorem State.setPram_of_eq {u : State} {m : Memory} (h : m = u.pram) : u.setPram m = u := by subst h; rfl
theorem State.setOam_of_eq {u : State} {m : Memory} (h : m = u.oam) : u.setOam m = u := by subst h; rfl
theorem State.setVram_of_eq {u : State} {m : Memory} (h : m = u.vram) : u.setVram m = u := by subst h; rfl

/-- A store to an offset that there may be, done again, changes nothing when it does so at the offset. -/
theorem storedAt_again {o : Option Nat} {m : Memory} {f : Memory → Nat → Memory} (h : ∀ v, o = some v → f (f m v) v = f m v) :
    o.elim (o.elim m (f m)) (f (o.elim m (f m))) = o.elim m (f m) := by
  cases o with
  | none => rfl
  | some v => exact h v rfl

/-- Storing again changes nothing (R93). -/
theorem State.store_store {i : Instr} (hwf : i.wf = true) {u : State} (hu : u.MemInv) : (u.store i).store i = u.store i := by
  cases i
  case write8Mmio a b => exact u.mergeByte_again _ (mergeByte_mergeByte _ _ b)
  case write16Mmio a h => exact u.regWriteHalf_regWriteHalf _ h h
  case write32Mmio a w =>
    have hlt : alignWord (mmioOffset a) < 0x58 := by
      have := (Space.mmio_holds_iff a).1 hwf
      rw [mmioOffset_eq, alignWord]
      omega
    simp only [State.store]
    rw [← State.regWrite16_comm _ (alignWord_multiple _) hlt, State.regWrite16_regWrite16, State.regWrite16_regWrite16]
  case write8Pram a b => exact State.setPram_of_eq (Memory.write16_again hu.pram.1 _ _)
  case write16Pram a h => exact State.setPram_of_eq (Memory.write16_again hu.pram.1 _ _)
  case write32Pram a w => exact State.setPram_of_eq (Memory.write32_again hu.pram.1 _ (alignWord_multiple _))
  case write16Oam a h => exact State.setOam_of_eq (Memory.write16_again hu.oam.1 _ _)
  case write32Oam a w => exact State.setOam_of_eq (Memory.write32_again hu.oam.1 _ (alignWord_multiple _))
  case write8Vram a b =>
    exact State.setVram_of_eq (storedAt_again (f := fun m v => m.write16 v (replicate b)) fun v _ => Memory.write16_again hu.vram.1 _ _)
  case write16Vram a h =>
    exact State.setVram_of_eq (storedAt_again (f := fun m v => m.write16 v h) fun v _ => Memory.write16_again hu.vram.1 _ _)
  case write32Vram a w =>
    exact State.setVram_of_eq (storedAt_again (f := fun m v => m.write32 v w) fun v hv =>
      Memory.write32_again hu.vram.1 _ ((vramOffset_mod4 hv).trans (alignWord_multiple _)))
  all_goals rfl

/-- Settles O29: the state after the write is caught up (`kept_of_exec_write`), and storing again changes nothing (`store_store`). -/
theorem writesIdempotent : Obligations.WritesIdempotent := by
  intro i s t hi hwf hm ht
  replace hi := isWrite_of_isWriteInstr hi
  obtain ⟨-, hcaught, -⟩ := kept_of_exec_write hi hwf ht
  rw [exec_write hi hwf] at ht ⊢
  rw [hcaught, ← Host.Outcome.next.inj ht, State.store_store hwf (s.kept_catchUp.mem hm)]

/-- A catch-up leaves the pixels already produced alone (R260). -/
theorem State.catchUp_pixel_of_lt {s : State} {x : Nat} (hx : x < s.line.nextX) : s.catchUp.pixel x s.ppu.vcount = s.pixel x s.ppu.vcount := by
  rw [State.pixel, State.pixel, State.catchUp_params]
  unfold State.catchUp
  split_ifs
  · rfl
  · exact State.producePixels_fb _ s fun x' h1 _ => by unfold fbIndex; omega

/-- Settles O31: the write leaves the caught-up line and framebuffer (`kept_of_exec_write`), in which the pixel is produced already. -/
theorem writesMissProducedPixels : Obligations.WritesMissProducedPixels := by
  intro i s t later x hi hwf hdot hvis hdraw hx htime ht
  obtain ⟨hk, -, hline, hfb⟩ := kept_of_exec_write (isWrite_of_isWriteInstr hi) hwf ht
  have hdue : x + 1 ≤ (s.sched.now.toNat - s.ppu.ls.toNat) / s.params.cyclesPerDot := by
    rw [Nat.le_div_iff_mul_le hdot, Nat.mul_comm]
    omega
  have hprod : x < t.line.nextX := by
    rw [hline, State.catchUp_nextX hvis hdraw, State.pixelsDue]
    omega
  have hlater : (t.atTime later).catchUp.pixel x t.ppu.vcount = t.pixel x t.ppu.vcount := State.catchUp_pixel_of_lt hprod
  rw [hk.vcount, State.catchUp_ppu] at hlater
  rw [hlater, State.pixel, State.pixel, hfb, hk.params]

end Sys2Proof.Machine
end

section
/-! SUPPORT. The statements of 30_encoding.md: the decoder and the encoder (R110 to R117), refused commands (R118), the action of an external event (R118,
R163, R245), and the attributes, the texels and the tile data of objects (R122, R125 to R130, R275 to R282). -/

namespace Sys2Proof.Machine

/-! ### Operand fields -/

/-- The high bits of an operand are 0 exactly when it fits the low ones. -/
theorem extractLsb'_high_eq_zero_iff {n m : Nat} (x : BitVec (n + m)) : x.extractLsb' n m = 0#m ↔ x.toNat < 2 ^ n := by
  have hlt : x.toNat / 2 ^ n < 2 ^ m := by
    rw [Nat.div_lt_iff_lt_mul (Nat.two_pow_pos n), Nat.mul_comm, ← Nat.pow_add]
    exact x.isLt
  rw [← BitVec.toNat_inj, BitVec.extractLsb'_toNat, Nat.shiftRight_eq_div_pow, Nat.mod_eq_of_lt hlt, BitVec.toNat_zero,
    Nat.div_eq_zero_iff_lt (Nat.two_pow_pos n)]

/-- An operand that fits its low bits is those bits. -/
theorem setWidth_extractLsb'_of_lt {n m : Nat} {x : BitVec m} (h : x.toNat < 2 ^ n) : (x.extractLsb' 0 n).setWidth m = x := by
  rw [← BitVec.toNat_inj, BitVec.toNat_setWidth, BitVec.extractLsb'_toNat, Nat.shiftRight_zero, Nat.mod_eq_of_lt h, Nat.mod_eq_of_lt x.isLt]

/-- The low bits of a zero-extended operand are the operand. -/
theorem extractLsb'_setWidth {n m : Nat} (h : n ≤ m) (x : BitVec n) : (x.setWidth m).extractLsb' 0 n = x := by
  rw [BitVec.extractLsb'_setWidth_of_le (by omega), BitVec.extractLsb'_eq_self]

/-- A zero-extended operand fits its low bits. -/
theorem toNat_setWidth_lt {n m : Nat} (x : BitVec n) : (x.setWidth m).toNat < 2 ^ n :=
  Nat.lt_of_le_of_lt (by rw [BitVec.toNat_setWidth]; exact Nat.mod_le _ _) x.isLt

/-! ### What each operand form decodes (R112, R113, R115) -/

/-- The address of a READ or WRITE: `A[63:32]` is 0 when it fits 32 bits (R113). -/
theorem addressHigh_eq_zero_iff (c : Command) : c.a.extractLsb' 32 32 = 0 ↔ c.a.toNat < 2 ^ 32 :=
  extractLsb'_high_eq_zero_iff (n := 32) (m := 32) c.a

theorem decodeNone_ok_iff {c : Command} {i j : Instr} : decodeNone c i = .ok j ↔ (c.a = 0#64 ∧ c.b = 0#32) ∧ i = j := by
  unfold decodeNone
  split_ifs with ha hb <;> simp_all

theorem decodeA_ok_iff {c : Command} {mk : BitVec 64 → Instr} {j : Instr} : decodeA c mk = .ok j ↔ c.b = 0#32 ∧ mk c.a = j := by
  unfold decodeA
  split_ifs with hb <;> simp_all

theorem decodeB_ok_iff {c : Command} {mk : Word → Instr} {j : Instr} : decodeB c mk = .ok j ↔ c.a = 0#64 ∧ mk c.b = j := by
  unfold decodeB
  split_ifs with ha <;> simp_all

theorem decodeRead_ok_iff {c : Command} {mk : Word → Instr} {j : Instr} :
    decodeRead c mk = .ok j ↔ (c.a.toNat < 2 ^ 32 ∧ c.b = 0#32) ∧ mk (c.a.extractLsb' 0 32) = j := by
  rw [← addressHigh_eq_zero_iff]
  unfold decodeRead
  split_ifs with ha hb <;> simp_all

theorem decodeWrite8_ok_iff {c : Command} {mk : Word → Byte → Instr} {j : Instr} :
    decodeWrite8 c mk = .ok j ↔ (c.a.toNat < 2 ^ 32 ∧ c.b.toNat < 2 ^ 8) ∧ mk (c.a.extractLsb' 0 32) (c.b.extractLsb' 0 8) = j := by
  rw [← addressHigh_eq_zero_iff, ← extractLsb'_high_eq_zero_iff (m := 24) c.b]
  unfold decodeWrite8
  split_ifs with ha hb <;> simp_all

theorem decodeWrite16_ok_iff {c : Command} {mk : Word → Half → Instr} {j : Instr} :
    decodeWrite16 c mk = .ok j ↔ (c.a.toNat < 2 ^ 32 ∧ c.b.toNat < 2 ^ 16) ∧ mk (c.a.extractLsb' 0 32) (c.b.extractLsb' 0 16) = j := by
  rw [← addressHigh_eq_zero_iff, ← extractLsb'_high_eq_zero_iff (m := 16) c.b]
  unfold decodeWrite16
  split_ifs with ha hb <;> simp_all

theorem decodeWrite32_ok_iff {c : Command} {mk : Word → Word → Instr} {j : Instr} :
    decodeWrite32 c mk = .ok j ↔ c.a.toNat < 2 ^ 32 ∧ mk (c.a.extractLsb' 0 32) c.b = j := by
  rw [← addressHigh_eq_zero_iff]
  unfold decodeWrite32
  split_ifs with ha <;> simp_all

/-! ### Decoding what was encoded -/

section
variable (code : BitVec 16) (addr : Word)

theorem decodeRead_setWidth (mk : Word → Instr) : decodeRead ⟨code, addr.setWidth 64, 0#32⟩ mk = .ok (mk addr) :=
  decodeRead_ok_iff.2 ⟨⟨toNat_setWidth_lt addr, rfl⟩, congrArg mk (extractLsb'_setWidth (by decide) addr)⟩

theorem decodeWrite8_setWidth (data : Byte) (mk : Word → Byte → Instr) :
    decodeWrite8 ⟨code, addr.setWidth 64, data.setWidth 32⟩ mk = .ok (mk addr data) :=
  decodeWrite8_ok_iff.2 ⟨⟨toNat_setWidth_lt addr, toNat_setWidth_lt data⟩,
    congrArg₂ mk (extractLsb'_setWidth (by decide) addr) (extractLsb'_setWidth (by decide) data)⟩

theorem decodeWrite16_setWidth (data : Half) (mk : Word → Half → Instr) :
    decodeWrite16 ⟨code, addr.setWidth 64, data.setWidth 32⟩ mk = .ok (mk addr data) :=
  decodeWrite16_ok_iff.2 ⟨⟨toNat_setWidth_lt addr, toNat_setWidth_lt data⟩,
    congrArg₂ mk (extractLsb'_setWidth (by decide) addr) (extractLsb'_setWidth (by decide) data)⟩

theorem decodeWrite32_setWidth (data : Word) (mk : Word → Word → Instr) :
    decodeWrite32 ⟨code, addr.setWidth 64, data⟩ mk = .ok (mk addr data) :=
  decodeWrite32_ok_iff.2 ⟨toNat_setWidth_lt addr, congrArg (mk · data) (extractLsb'_setWidth (by decide) addr)⟩

end

/-- Settles O1: the scheduler commands and callbacks by computation, a READ or WRITE because its operands are zero-extended. -/
theorem decodeEncode : Obligations.DecodeEncode := by
  intro i
  cases i with
  | schedule | cancel | advance | now | next | remain | drawEnd | hblankEnd | endOfTime | external => rfl
  | read8Mmio a | read16Mmio a | read32Mmio a | read8Pram a | read16Pram a | read32Pram a | read8Vram a | read16Vram a | read32Vram a
  | read8Oam a | read16Oam a | read32Oam a => exact decodeRead_setWidth _ a _
  | write8Mmio a d | write8Pram a d | write8Vram a d | write8Oam a d => exact decodeWrite8_setWidth _ a d _
  | write16Mmio a d | write16Pram a d | write16Vram a d | write16Oam a d => exact decodeWrite16_setWidth _ a d _
  | write32Mmio a d | write32Pram a d | write32Vram a d | write32Oam a d => exact decodeWrite32_setWidth _ a d _

/-- A word that holds an instruction's triple decodes to it. -/
theorem decodeTableWord_of_encode {nbits w : Nat} {i : Instr} (h : Command.ofBits (w % 2 ^ nbits) = encode i) :
    decodeTableWord nbits w = some i := by
  unfold decodeTableWord
  rw [h, decodeEncode i]

/-- Settles O5: six words hold the triple of their instruction (`decodeTableWord_of_encode`); WIDTH 3 is reserved. -/
theorem specWords : Obligations.SpecWords :=
  ⟨decodeTableWord_of_encode rfl, decodeTableWord_of_encode rfl, decodeTableWord_of_encode rfl, decodeTableWord_of_encode rfl,
    decodeTableWord_of_encode rfl, decodeTableWord_of_encode rfl, rfl⟩

/-! ### Legal codes -/

/-- The legal codes by the fields CLASS, SUB, RSVD and WIDTH (R110, R116). -/
theorem legalCode_iff (code : BitVec 16) :
    legalCode code ↔
      (code.toNat / 0x1000 = 1 ∧ code.toNat / 0x100 % 0x10 < 6 ∧ code.toNat % 0x100 = 0) ∨
      ((code.toNat / 0x1000 = 2 ∨ code.toNat / 0x1000 = 3) ∧ 4 ≤ code.toNat / 0x100 % 0x10 ∧ code.toNat / 0x100 % 0x10 ≤ 7 ∧
        code.toNat % 0x100 ≤ 2) ∨
      (code.toNat / 0x1000 = 4 ∧ code.toNat / 0x100 % 0x10 < 4 ∧ code.toNat % 0x100 = 0) := by
  constructor
  · rintro (⟨k, hk, h⟩ | ⟨s, w, hs, hs', hw, h | h⟩ | ⟨k, hk, h⟩) <;> omega
  · rintro (⟨h1, h2, h3⟩ | ⟨h1, h2, h3, h4⟩ | ⟨h1, h2, h3⟩)
    · exact .inl ⟨code.toNat / 0x100 % 0x10, h2, by omega⟩
    · exact .inr (.inl ⟨code.toNat / 0x100 % 0x10, code.toNat % 0x100, h2, h3, h4, by omega⟩)
    · exact .inr (.inr ⟨code.toNat / 0x100 % 0x10, h2, by omega⟩)

/-- How a triple of a legal code is answered: by an instruction exactly when its operands are legal, and then the triple is that instruction's encoding. -/
structure Answers (c : Command) (r : Except DecodeError Instr) : Prop where
  legal : legalCode c.code
  not_reserved : r ≠ .error .reservedCode
  ok_iff : (∃ i, r = .ok i) ↔ operandsLegal c
  encode_eq : ∀ i, r = .ok i → encode i = c

section
variable {c : Command} {n : Nat}

/-- An operand form that accepts exactly the operands `ops` of a legal code. -/
theorem answers_of_ok_iff {r : Except DecodeError Instr} {ops : Prop} {i : Instr} (hlegal : legalCode c.code) (hres : r ≠ .error .reservedCode)
    (hok : ∀ j, r = .ok j ↔ ops ∧ i = j) (hops : operandsLegal c ↔ ops) (henc : ops → encode i = c) : Answers c r where
  legal := hlegal
  not_reserved := hres
  ok_iff := by simp [hok, hops]
  encode_eq := by
    intro j h
    obtain ⟨haccepted, rfl⟩ := (hok j).1 h
    exact henc haccepted

variable (hcode : c.code.toNat = n)
include hcode

/-- A command by its code as a number and its operands. -/
theorem command_eq {a : BitVec 64} {b : Word} (ha : a = c.a) (hb : b = c.b) : (⟨BitVec.ofNat 16 n, a, b⟩ : Command) = c := by
  subst hcode ha hb
  rw [BitVec.ofNat_toNat, BitVec.setWidth_eq]

theorem answers_schedule (hn : n = 0x1000) : Answers c (.ok (.schedule c.a c.b)) := by
  subst hn
  exact answers_of_ok_iff (ops := True) (i := .schedule c.a c.b) ((legalCode_iff _).2 (by omega)) (by simp) (by simp)
    (by simp [operandsLegal, hcode]) fun _ => command_eq hcode rfl rfl

theorem answers_none {i : Instr} (hn : n % 0x100 = 0 ∧ (0x1300 ≤ n ∧ n < 0x1600 ∨ 0x4000 ≤ n ∧ n < 0x4300))
    (henc : encode i = ⟨BitVec.ofNat 16 n, 0#64, 0#32⟩) : Answers c (decodeNone c i) := by
  refine answers_of_ok_iff ((legalCode_iff _).2 (by omega)) (by unfold decodeNone; split_ifs <;> simp) (fun _ => decodeNone_ok_iff) ?_
    fun ⟨ha, hb⟩ => henc.trans (command_eq hcode ha.symm hb.symm)
  obtain ⟨-, hn | hn⟩ := hn
  · have hclass : n / 0x1000 = 1 := by omega
    have hb : 0x1000 < n := by omega
    simp [operandsLegal, hcode, hclass, hb, hn.1, and_comm]
  · have hclass : n / 0x1000 = 4 := by omega
    simp [operandsLegal, hcode, hclass, hn.2]

theorem answers_operandA {mk : BitVec 64 → Instr} (hn : n % 0x100 = 0 ∧ 0x1000 < n ∧ n < 0x1300)
    (henc : ∀ a, encode (mk a) = ⟨BitVec.ofNat 16 n, a, 0#32⟩) : Answers c (decodeA c mk) := by
  have hclass : n / 0x1000 = 1 := by omega
  have ha : ¬ 0x1300 ≤ n := by omega
  have hb : 0x1000 < n := by omega
  exact answers_of_ok_iff ((legalCode_iff _).2 (by omega)) (by unfold decodeA; split_ifs <;> simp) (fun _ => decodeA_ok_iff)
    (by simp [operandsLegal, hcode, hclass, hb, ha]) fun h => (henc _).trans (command_eq hcode rfl h.symm)

theorem answers_operandB {mk : Word → Instr} (hn : n = 0x4300) (henc : ∀ b, encode (mk b) = ⟨BitVec.ofNat 16 n, 0#64, b⟩) :
    Answers c (decodeB c mk) :=
  answers_of_ok_iff ((legalCode_iff _).2 (by omega)) (by unfold decodeB; split_ifs <;> simp) (fun _ => decodeB_ok_iff)
    (by simp [operandsLegal, hcode, hn]) fun ha => (henc _).trans (command_eq hcode ha.symm rfl)

theorem answers_read {mk : Word → Instr} (hclass : n / 0x1000 = 2) (hn : 4 ≤ n / 0x100 % 0x10 ∧ n / 0x100 % 0x10 ≤ 7 ∧ n % 0x100 ≤ 2)
    (henc : ∀ a, encode (mk a) = ⟨BitVec.ofNat 16 n, a.setWidth 64, 0#32⟩) : Answers c (decodeRead c mk) :=
  answers_of_ok_iff ((legalCode_iff _).2 (by omega)) (by unfold decodeRead; split_ifs <;> simp) (fun _ => decodeRead_ok_iff)
    (by simp [operandsLegal, hcode, hclass])
    fun ⟨ha, hb⟩ => (henc _).trans (command_eq hcode (setWidth_extractLsb'_of_lt ha) hb.symm)

theorem answers_write8 {mk : Word → Byte → Instr} (hclass : n / 0x1000 = 3)
    (hn : 4 ≤ n / 0x100 % 0x10 ∧ n / 0x100 % 0x10 ≤ 7 ∧ n % 0x100 = 0)
    (henc : ∀ a d, encode (mk a d) = ⟨BitVec.ofNat 16 n, a.setWidth 64, d.setWidth 32⟩) : Answers c (decodeWrite8 c mk) := by
  have hwidth : n % 4 = 0 := by omega
  exact answers_of_ok_iff ((legalCode_iff _).2 (by omega)) (by unfold decodeWrite8; split_ifs <;> simp) (fun _ => decodeWrite8_ok_iff)
    (by simp [operandsLegal, hcode, hclass, hwidth])
    fun ⟨ha, hb⟩ => (henc _ _).trans (command_eq hcode (setWidth_extractLsb'_of_lt ha) (setWidth_extractLsb'_of_lt hb))

theorem answers_write16 {mk : Word → Half → Instr} (hclass : n / 0x1000 = 3)
    (hn : 4 ≤ n / 0x100 % 0x10 ∧ n / 0x100 % 0x10 ≤ 7 ∧ n % 0x100 = 1)
    (henc : ∀ a d, encode (mk a d) = ⟨BitVec.ofNat 16 n, a.setWidth 64, d.setWidth 32⟩) : Answers c (decodeWrite16 c mk) := by
  have hwidth : n % 4 = 1 := by omega
  exact answers_of_ok_iff ((legalCode_iff _).2 (by omega)) (by unfold decodeWrite16; split_ifs <;> simp) (fun _ => decodeWrite16_ok_iff)
    (by simp [operandsLegal, hcode, hclass, hwidth])
    fun ⟨ha, hb⟩ => (henc _ _).trans (command_eq hcode (setWidth_extractLsb'_of_lt ha) (setWidth_extractLsb'_of_lt hb))

theorem answers_write32 {mk : Word → Word → Instr} (hclass : n / 0x1000 = 3)
    (hn : 4 ≤ n / 0x100 % 0x10 ∧ n / 0x100 % 0x10 ≤ 7 ∧ n % 0x100 = 2)
    (henc : ∀ a d, encode (mk a d) = ⟨BitVec.ofNat 16 n, a.setWidth 64, d⟩) : Answers c (decodeWrite32 c mk) := by
  have hwidth : n % 4 = 2 := by omega
  have hb : c.b.toNat < 4294967296 := c.b.isLt
  exact answers_of_ok_iff ((legalCode_iff _).2 (by omega)) (by unfold decodeWrite32; split_ifs <;> simp) (fun _ => decodeWrite32_ok_iff)
    (by simp [operandsLegal, hcode, hclass, hwidth, hb])
    fun ha => (henc _ _).trans (command_eq hcode (setWidth_extractLsb'_of_lt ha) rfl)

end

/-- The decoder answers a legal code by the operand form of its row (R112, R113, R115), any other as reserved (R116). -/
theorem decode_cases (c : Command) : Answers c (decode c) ∨ ¬ legalCode c.code ∧ decode c = .error .reservedCode := by
  unfold decode
  split
  case h_1 h => exact .inl (answers_schedule h rfl)
  case h_2 h | h_3 h => exact .inl (answers_operandA h (by decide) fun _ => rfl)
  case h_4 h | h_5 h | h_6 h | h_31 h | h_32 h | h_33 h => exact .inl (answers_none h (by decide) rfl)
  case h_7 h | h_8 h | h_9 h | h_10 h | h_11 h | h_12 h | h_13 h | h_14 h | h_15 h | h_16 h | h_17 h | h_18 h =>
    exact .inl (answers_read h rfl (by decide) fun _ => rfl)
  case h_19 h | h_22 h | h_25 h | h_28 h => exact .inl (answers_write8 h rfl (by decide) fun _ _ => rfl)
  case h_20 h | h_23 h | h_26 h | h_29 h => exact .inl (answers_write16 h rfl (by decide) fun _ _ => rfl)
  case h_21 h | h_24 h | h_27 h | h_30 h => exact .inl (answers_write32 h rfl (by decide) fun _ _ => rfl)
  case h_34 h => exact .inl (answers_operandB h rfl fun _ => rfl)
  case h_35 =>
    refine .inr ⟨?_, rfl⟩
    rintro (⟨k, hk, h⟩ | ⟨s, w, hs, hs', hw, h | h⟩ | ⟨k, hk, h⟩)
    · interval_cases k <;> contradiction
    · interval_cases s <;> interval_cases w <;> contradiction
    · interval_cases s <;> interval_cases w <;> contradiction
    · interval_cases k <;> contradiction

/-- Settles O2: a reserved code does not decode, and a legal one by `decode_cases`. -/
theorem encodeDecode : Obligations.EncodeDecode := by
  intro c i h
  obtain hc | ⟨-, hr⟩ := decode_cases c
  · exact hc.encode_eq i h
  · cases h.symm.trans hr

/-- Settles O3: both sides by `decode_cases`. -/
theorem legalCommands : Obligations.LegalCommands := by
  intro c
  obtain hc | ⟨hl, hr⟩ := decode_cases c
  · exact ⟨⟨fun h => absurd h hc.not_reserved, fun h => absurd hc.legal h⟩, fun _ => hc.ok_iff⟩
  · exact ⟨⟨fun _ => hl, fun _ => hr⟩, fun h => absurd h hl⟩

/-! ### Refused commands -/

/-- A command that does not decode, or decodes to an EVENT, is refused wherever it is issued (R118, R334). -/
theorem issueWith_of_refused (run : Instr → State → Result) {c : Command}
    (h : (∃ e, decode c = .error e) ∨ ∃ i, decode c = .ok i ∧ i.isEvent = true) (s : State) :
    issueWith run c s = .next (s.refuse .badCommand) := by
  unfold issueWith
  obtain ⟨e, hd⟩ | ⟨i, hd, he⟩ := h
  · rw [hd]
  · rw [hd]
    exact if_pos he

/-- A READ or WRITE whose address is of another space is refused (R81, R118): its meaning is `whenLegal` of just that condition. -/
theorem exec_of_not_wf {i : Instr} (h : i.wf = false) (s : State) : exec i s = .next (s.refuse .badCommand) := by
  cases i with
  | schedule | cancel | advance | now | next | remain | drawEnd | hblankEnd | endOfTime | external => cases h
  | _ => exact if_neg (ne_true_of_eq_false h)

/-- Settles O7: a ready block refuses the head of the stream (`issueWith_of_refused`), and the meaning a wrong address (`exec_of_not_wf`). -/
theorem commandsRefused : Obligations.CommandsRefused := by
  refine ⟨fun s c cs hfatal hfiring hadv hcmds h => ?_, fun i s h => exec_of_not_wf h s⟩
  have ht : s.took = { s with host := { s.host with commands := cs } } := by
    simp [State.took, State.setHost, hcmds]
  calc step s = hostTurn s := step_of_ready hfatal hfiring hadv
    _ = issueWith exec c s.took := by unfold hostTurn; rw [hcmds]
    _ = .next (s.took.refuse .badCommand) := issueWith_of_refused exec h s.took
    _ = _ := by rw [ht]; rfl

/-! ### The action of an external event -/

theorem inOrder_cons_of_refused {c : Command} (h : (∃ e, decode c = .error e) ∨ ∃ i, decode c = .ok i ∧ i.isEvent = true) (cs : List Command)
    (s : State) : inOrder (c :: cs) s = inOrder cs (s.refuse .badCommand) := by
  obtain ⟨e, hd⟩ | ⟨i, hd, he⟩ := h
  · simp only [inOrder, hd]
  · simp only [inOrder, hd, he, if_true]

theorem inOrder_cons_of_decode {c : Command} {i : Instr} (hd : decode c = .ok i) (he : i.isEvent = false) (cs : List Command) (s : State) :
    inOrder (c :: cs) s = andThen (exec i s) (inOrder cs) := by
  simp only [inOrder, hd, he, Bool.false_eq_true, if_false]
  rfl

/-- A command is refused, or it is run as what it decodes to (R118). -/
theorem decode_refused_or_runs (c : Command) :
    ((∃ e, decode c = .error e) ∨ ∃ i, decode c = .ok i ∧ i.isEvent = true) ∨ ∃ i, decode c = .ok i ∧ i.isEvent = false := by
  cases decode c with
  | error e => exact .inl (.inl ⟨e, rfl⟩)
  | ok i =>
    cases he : i.isEvent with
    | true => exact .inl (.inr ⟨i, rfl, he⟩)
    | false => exact .inr ⟨i, rfl, he⟩

/-- The action's commands as the statement reads them (R163, R245): `runAll runCommand`, while no fatal error stands. -/
theorem runAll_eq_inOrder (cs : List Command) {s : State} (hf : s.fatal = none) : runAll runCommand cs s = inOrder cs s := by
  induction cs generalizing s with
  | nil => rfl
  | cons c cs ih =>
    show andThen (issueWith runCommand c s) (runAll runCommand cs) = _
    obtain h | ⟨i, hd, he⟩ := decode_refused_or_runs c
    · rw [issueWith_of_refused _ h, inOrder_cons_of_refused h, andThen_of_none (by simpa using hf), ih (by simpa using hf)]
    · rw [issueWith_of_decode hd he, inOrder_cons_of_decode hd he, runCommand_eq_exec he]
      exact andThen_congr fun t _ ht => ih ht

/-- Settles O51: the action in order (`runAll_eq_inOrder`); with the scheduler's invariants it completes (`runAll_commanded`). -/
theorem externalRunsAction : Obligations.ExternalRunsAction := by
  intro s k hf
  refine ⟨runAll_eq_inOrder _ hf, fun h => ?_, fun hi => ?_⟩
  · show runAll runCommand (s.host.actionOf k) s = _
    rw [h]
    rfl
  · obtain ⟨t, ht, -⟩ := runAll_commanded (s.host.actionOf k) hi
    exact ⟨t, ht⟩

/-! ### The attributes and the size of an object -/

/-- The X of an object is a signed 9-bit field (R125). -/
theorem toInt_extractLsb'_nine (a : Half) :
    (a.extractLsb' 0 9).toInt = if a.toNat % 512 < 256 then (a.toNat % 512 : Int) else (a.toNat % 512 : Int) - 512 := by
  rw [BitVec.toInt_eq_toNat_cond, BitVec.extractLsb'_toNat, Nat.shiftRight_zero]
  split_ifs <;> omega

/-- The size table (R126) by its rows. -/
theorem objSize_eq_table {shape size : Nat} (hshape : shape < 4) (hsize : size < 4) :
    [[(8, 8), (16, 16), (32, 32), (64, 64)], [(16, 8), (32, 8), (32, 16), (64, 32)],
      [(8, 16), (8, 32), (16, 32), (32, 64)], [(8, 8), (8, 8), (8, 8), (8, 8)]][shape]?.bind (·[size]?) = some (objSize shape size) := by
  interval_cases shape <;> interval_cases size <;> rfl

theorem ObjAttr.box_eq (o : ObjAttr) : o.box = if o.affine = true ∧ o.bit9 = true then (2 * o.dims.1, 2 * o.dims.2) else o.dims := by
  unfold ObjAttr.box
  simp only [Bool.and_eq_true]

theorem Regs.objMosaicW_eq (r : Regs) : r.objMosaicW = r.mosaic.toNat / 256 % 16 + 1 := by
  rw [Regs.objMosaicW, field_eq]
  rfl

theorem Regs.objMosaicH_eq (r : Regs) : r.objMosaicH = r.mosaic.toNat / 4096 + 1 := by
  have := r.mosaic.isLt
  rw [Regs.objMosaicH, field_eq]
  omega

/-! ### The footprint of an object -/

/-- The row of the box that a line is on (R275). -/
theorem footprint_row_iff (ly y yo : Nat) :
    ((((y : Int) - yo) % 256).toNat = ly) ↔ ly < 256 ∧ ((ly : Int) + yo) % 256 = (y : Int) % 256 := by
  omega

/-- The position in the box under the object mosaic (R282). -/
theorem Regs.objMosaicAdjust_eq_iff (r : Regs) (o : ObjAttr) (lx ly x y a b : Nat) :
    r.objMosaicAdjust o lx ly x y = (a, b) ↔
      (o.mosaic = false → a = lx ∧ b = ly) ∧
      (o.mosaic = true → (a : Int) = max 0 ((lx : Int) - (x % r.objMosaicW : Nat)) ∧ (b : Int) = max 0 ((ly : Int) - (y % r.objMosaicH : Nat))) := by
  unfold Regs.objMosaicAdjust
  cases o.mosaic
  · simp only [Bool.false_eq_true, if_false, Prod.mk.injEq, false_implies, true_implies, and_true]
    omega
  · simp only [if_true, Prod.mk.injEq, reduceCtorEq, false_implies, true_implies, true_and]
    omega

/-- What an object covers (R275): the pixel is in its box, and its position there is adjusted for the mosaic. -/
theorem Regs.footprint_eq_some_iff (r : Regs) (o : ObjAttr) (x y : Nat) (p : Nat × Nat) :
    r.footprint o x y = some p ↔
      ∃ lx ly : Nat, lx < o.box.1 ∧ ly < o.box.2 ∧ (x : Int) = o.x + lx ∧ ly < 256 ∧ ((ly : Int) + o.y) % 256 = (y : Int) % 256 ∧
        r.objMosaicAdjust o lx ly x y = p := by
  unfold Regs.footprint
  simp only [Option.ite_none_left_eq_some, Option.some.injEq]
  constructor
  · rintro ⟨hin, hp⟩
    obtain ⟨h256, hrow⟩ := (footprint_row_iff _ y o.y).1 rfl
    exact ⟨_, _, by omega, by omega, by omega, h256, hrow, hp⟩
  · rintro ⟨lx, ly, hlx, hly, hx, h256, hrow, hp⟩
    have hcol : ((x : Int) - o.x).toNat = lx := by omega
    rw [(footprint_row_iff ly y o.y).2 ⟨h256, hrow⟩, hcol]
    exact ⟨by omega, hp⟩

/-- Settles O39: the attributes are fields (`field_eq`, `bit_eq`), the size is the table's (`objSize_eq_table`), and the footprint is
`footprint_eq_some_iff` with the mosaic in numbers. -/
theorem objectFootprint : Obligations.ObjectFootprint := by
  refine ⟨fun s i a0 a1 a2 o ho h0 h1 h2 => ?_, fun o hshape hsize => ⟨objSize_eq_table hshape hsize, o.box_eq⟩, fun r o x y a b => ?_⟩
  · subst ho h0 h1 h2
    have h0 := (s.oam.read16 (8 * i)).isLt
    have h1 := (s.oam.read16 (8 * i + 2)).isLt
    have h2 := (s.oam.read16 (8 * i + 4)).isLt
    simp only [State.objAttr, ObjAttr.ofHalves, field_eq, bit_eq, decide_eq_true_eq, toInt_extractLsb'_nine, BitVec.extractLsb'_toNat,
      Nat.shiftRight_eq_div_pow, true_and]
    omega
  · simp only [Regs.footprint_eq_some_iff, Regs.objMosaicAdjust_eq_iff, Regs.objMosaicW_eq, Regs.objMosaicH_eq]

/-! ### The texel of an object -/

/-- The position shown is in the box, with mosaic or without (R275, R282). -/
theorem Regs.footprint_lt_box {r : Regs} {o : ObjAttr} {x y lx ly : Nat} (h : r.footprint o x y = some (lx, ly)) :
    lx < o.box.1 ∧ ly < o.box.2 := by
  obtain ⟨a, b, ha, hb, -, -, -, hadj⟩ := (Regs.footprint_eq_some_iff ..).1 h
  unfold Regs.objMosaicAdjust at hadj
  split_ifs at hadj <;> cases hadj <;> omega

theorem State.objTexel_of_affine {o : ObjAttr} (h : o.affine = true) (s : State) (lx ly : Nat) :
    s.objTexel o lx ly = s.affineObjTexel o lx ly :=
  if_pos h

/-- Without double size the box is the object (R126). -/
theorem ObjAttr.box_of_regular {o : ObjAttr} (h : o.affine = false) : o.box = o.dims := by
  simp [ObjAttr.box, h]

theorem ObjAttr.box_of_single {o : ObjAttr} (h : o.bit9 = false) : o.box = o.dims := by
  simp [ObjAttr.box, h]

/-- The texel of a regular object is the position, mirrored by the flips (R276). -/
theorem State.objTexel_of_regular {o : ObjAttr} (haff : o.affine = false) {lx ly : Nat} (hlx : lx < o.dims.1) (hly : ly < o.dims.2) (s : State) :
    ∃ tx ty : Nat, s.objTexel o lx ly = some (tx, ty) ∧
      (if o.hflip = true then tx + lx + 1 = o.dims.1 else tx = lx) ∧ (if o.vflip = true then ty + ly + 1 = o.dims.2 else ty = ly) := by
  refine ⟨(o.regularTexel lx ly).1, (o.regularTexel lx ly).2, by simp [State.objTexel, haff], ?_⟩
  unfold ObjAttr.regularTexel
  split_ifs <;> omega

/-- The texel of an affine object in numbers (R277): the floor of the matrix applied to the distance from the centre of the box. -/
theorem State.affineObjTexel_eq_some_iff (s : State) (o : ObjAttr) (lx ly tx ty : Nat) (dx dy : Int)
    (hdx : dx = (lx : Int) - (o.box.1 / 2 : Nat)) (hdy : dy = (ly : Int) - (o.box.2 / 2 : Nat)) :
    s.affineObjTexel o lx ly = some (tx, ty) ↔
      tx < o.dims.1 ∧ ty < o.dims.2 ∧
        (tx : Int) = (s.affineParam o.group 0 * dx + s.affineParam o.group 1 * dy) / 256 + (o.dims.1 / 2 : Nat) ∧
        (ty : Int) = (s.affineParam o.group 2 * dx + s.affineParam o.group 3 * dy) / 256 + (o.dims.2 / 2 : Nat) := by
  subst hdx hdy
  simp only [State.affineObjTexel, Int.shiftRight_eq_div_pow, Option.ite_none_left_eq_some, Option.some.injEq, Prod.mk.injEq,
    Int.natCast_ediv, Nat.cast_ofNat]
  omega

/-- The parameters of an affine group stand in every fourth halfword of object memory (R52, R125). -/
theorem State.affineParam_eq (s : State) (g : Nat) :
    s.affineParam g 0 = (s.oam.read16 (32 * g + 6)).toInt ∧ s.affineParam g 1 = (s.oam.read16 (32 * g + 14)).toInt ∧
    s.affineParam g 2 = (s.oam.read16 (32 * g + 22)).toInt ∧ s.affineParam g 3 = (s.oam.read16 (32 * g + 30)).toInt :=
  ⟨rfl, rfl, rfl, rfl⟩

/-- Settles O40: a regular object by `objTexel_of_regular` inside its box (`footprint_lt_box`), an affine one by `affineObjTexel_eq_some_iff`. -/
theorem objectTexels : Obligations.ObjectTexels := by
  refine ⟨fun s o lx ly haff hlx hly => ?_, fun r s o x y lx ly haff hfoot => ?_,
    fun s o lx ly tx ty dx dy pa pb pc pd haff hdx hdy hpa hpb hpc hpd => ?_,
    fun s o lx ly haff hsingle hpa hpb hpc hpd hlx hly => ?_⟩
  · exact s.objTexel_of_regular haff hlx hly
  · obtain ⟨hlx, hly⟩ := Regs.footprint_lt_box hfoot
    rw [ObjAttr.box_of_regular haff] at hlx hly
    obtain ⟨tx, ty, htexel, hx, hy⟩ := s.objTexel_of_regular haff hlx hly
    refine ⟨tx, ty, htexel, ?_, ?_⟩
    · split_ifs at hx <;> omega
    · split_ifs at hy <;> omega
  · obtain ⟨ha, hb, hc, hd⟩ := s.affineParam_eq o.group
    rw [State.objTexel_of_affine haff, State.affineObjTexel_eq_some_iff s o lx ly tx ty dx dy hdx hdy, ha, hb, hc, hd, ← hpa, ← hpb, ← hpc, ← hpd]
  · rw [ObjAttr.box_of_single hsingle] at hlx hly
    rw [State.objTexel_of_affine haff, State.affineObjTexel_eq_some_iff s o lx ly lx ly _ _ rfl rfl, hpa, hpb, hpc, hpd, ObjAttr.box_of_single hsingle]
    omega

/-! ### The colour of an object's texel -/

/-- The tile number of an object's texel (R278): tile rows follow each other in the object under one-dimensional mapping, and are 32 apart under
two-dimensional mapping, where an 8-bit tile number is even. -/
def Regs.objTileNumber (r : Regs) (o : ObjAttr) (step tx ty : Nat) : Nat :=
  if bit r.dispcnt 6 = true then o.tile + ty / 8 * (o.dims.1 / 8) * step + tx / 8 * step
  else o.tile - o.tile % step + ty / 8 * 32 + tx / 8 * step

/-- The address of an object's texel in numbers (R278), an 8-bit tile taking two numbers. -/
theorem Regs.objTexelAddr_eq (r : Regs) (o : ObjAttr) {step : Nat} (hstep : step = if o.bpp8 = true then 2 else 1) (tx ty : Nat) :
    r.objTexelAddr o tx ty = 0x10000 + (r.objTileNumber o step tx ty * 32 + (ty % 8 * 8 + tx % 8) * step / 2) % 0x8000 := by
  have hoff : (if o.bpp8 then ty % 8 * 8 + tx % 8 else ty % 8 * 4 + tx % 8 / 2) = (ty % 8 * 8 + tx % 8) * step / 2 := by
    subst hstep
    split_ifs <;> omega
  have htile : (if o.bpp8 then o.tile / 2 * 2 else o.tile) = o.tile - o.tile % step := by
    subst hstep
    split_ifs <;> omega
  simp only [Regs.objTexelAddr, hoff, htile, ← hstep]
  rfl

/-- The tile data of objects is 32 KiB of VRAM (R278). -/
theorem Regs.objTexelAddr_range (r : Regs) (o : ObjAttr) (tx ty : Nat) :
    0x10000 ≤ r.objTexelAddr o tx ty ∧ r.objTexelAddr o tx ty < 0x18000 := by
  rw [r.objTexelAddr_eq o rfl]
  omega

theorem State.opaqueIndex_objpal (s : State) (j pal : Nat) : opaqueIndex j (fun j => s.objpal (pal * 16 + j)) = s.objEntry j pal := by
  rw [State.objEntry, Nat.mul_comm 16 pal]
  rfl

theorem State.opaqueIndex_objpal_zero (s : State) (j : Nat) : opaqueIndex j s.objpal = s.objEntry j 0 := by
  simp only [← State.opaqueIndex_objpal, Nat.zero_mul, Nat.zero_add]

/-- The colour of an object's texel in numbers (R278, R279). -/
theorem State.objColor_eq (s : State) (o : ObjAttr) {tx ty addr b : Nat} (haddr : s.regs.objTexelAddr o tx ty = addr)
    (hb : b = (s.vram.read8 addr).toNat) :
    s.objColor o tx ty =
      if 3 ≤ s.mode ∧ addr < 0x14000 then none
      else if o.bpp8 = true then s.objEntry b 0
      else s.objEntry (if tx % 2 = 1 then b / 16 else b % 16) o.pal := by
  subst haddr hb
  simp only [State.objColor, bgMode_eq, State.opaqueIndex_objpal, State.opaqueIndex_objpal_zero, nibble_eq]
  rfl

/-- Settles O41: where the texel is (`objTexelAddr_eq`, `objTexelAddr_range`) and the colour there (`objColor_eq`). -/
theorem objectTileRange : Obligations.ObjectTileRange := by
  intro s o tx ty
  obtain ⟨hlow, hhigh⟩ := s.regs.objTexelAddr_range o tx ty
  refine ⟨hlow, hhigh, fun step tn addr b hstep htn haddr hb => ?_⟩
  replace haddr : s.regs.objTexelAddr o tx ty = addr := by
    rw [haddr, htn, s.regs.objTexelAddr_eq o hstep]
    rfl
  rw [s.objColor_eq o haddr hb]
  refine ⟨haddr, fun hmode hlt => if_pos ⟨hmode, hlt⟩, fun husable => ?_⟩
  rw [if_neg (by omega)]
  exact ⟨fun h8 => if_pos h8, fun h4 => if_neg (by simp [h4])⟩

end Sys2Proof.Machine
end

section
/-! SUPPORT. The statements of 40_scheduler.md: SCHEDULE, ADVANCE and the time queries (R152, R153, R157, R159 to R162, R332, R333, R336, R337), the turns
of ADVANCE's loop and the end of Fire (R155, R156, R165), and the PPU's Insert on a full heap (R332). -/

namespace Sys2Proof.Machine

/-! ### The callback of the event being fired -/

theorem step_of_firing {s : State} {h : Nat} (hfatal : s.fatal = none) (hfiring : s.sched.firing = some h) : step s = callbackTurn h s := by
  simp [step, hfatal, hfiring]

theorem callbackTurn_of_exec {s t : State} {h : Nat} {e : Event} (he : s.sched.event h = some e) (ht : exec e.tag.instr s = .next t) :
    callbackTurn h s = andThen (.next t) (finishFire h) := by
  simp only [callbackTurn, he, ht]

/-- The end of Fire removes the fired event from the slot it then has, and changes only the scheduler (R156). -/
theorem finishFire_removes {s : State} {h : Nat} (hi : s.SchedInv) (hf : s.sched.firing = some h) :
    ∃ c, finishFire h s = .next { s with sched := c } ∧ Sched.Removed { s.sched with firing := none } h c := by
  obtain ⟨e, he, hremoved, -⟩ := hi.finish hf
  exact ⟨_, by simp only [finishFire, he]; rfl, hremoved⟩

/-- Settles O9: the callback keeps the invariants and the event being fired (`exec_advances`), so the end of Fire finds it (`finishFire_removes`). -/
theorem stepRunsCallback : Obligations.StepRunsCallback := by
  intro s t h e i hfatal hi hfiring he htag ht
  have hinstr : e.tag.instr = i := by
    obtain ⟨htag, rfl⟩ | ⟨htag, rfl⟩ | ⟨k, htag, rfl⟩ := htag <;> rw [htag] <;> rfl
  have hstep : step s = andThen (.next t) (finishFire h) := by
    rw [step_of_firing hfatal hfiring, callbackTurn_of_exec he (by rwa [hinstr])]
  refine ⟨fun hraised => by rw [hstep, andThen_of_some hraised], fun hreturned => ?_⟩
  obtain ⟨u, hu, hadvances, hstill⟩ := exec_advances i hfatal hi
  cases ht.symm.trans hu
  rw [hstep, andThen_of_none hreturned]
  exact finishFire_removes hadvances.inv (hstill.trans hfiring)

/-! ### The turns of ADVANCE's loop -/

theorem step_of_advancing {s : State} (hfatal : s.fatal = none) (hfiring : s.sched.firing = none) (hadv : s.sched.inAdvance = true) :
    step s = loopTurn s := by
  simp [step, hfatal, hfiring, hadv]

/-- A turn looks at the root: the loop ends when it is not due, else an event as early begins to fire (R155, R159). -/
theorem loopTurn_of_root {s : State} {root : Nat} {rest : List Nat} (hheap : s.sched.heap = root :: rest) :
    loopTurn s =
      if s.sched.target < s.sched.ts root then .next s.advanced else beginFire (s.chooseDue root).1 (s.chooseDue root).2 := by
  simp only [loopTurn, hheap]

/-- Settles O10: the loop looks at the root, a live event of the least timestamp (`Sched.Inv.root`); what fires is as early (`State.chooseDue_spec`,
`beginFire_spec`). -/
theorem advanceTurn : Obligations.AdvanceTurn := by
  intro s hfatal hi hfiring hadv
  obtain ⟨root, rest, hheap⟩ := List.exists_cons_of_ne_nil hi.heap_ne
  obtain ⟨first, hfirst, hts, hmin⟩ := hi.root hheap
  rw [step_of_advancing hfatal hfiring hadv, loopTurn_of_root hheap, hts]
  refine ⟨fun hlate => if_pos (hlate root first hfirst), fun ⟨k, f, hf, hdue⟩ => ?_⟩
  obtain ⟨⟨e, he, hets⟩, htie, n, hdrew⟩ := State.chooseDue_spec hi hheap
  rw [hts] at hets
  rw [if_neg (BitVec.not_lt.2 (BitVec.le_trans (hmin k f hf) hdue)), hdrew, beginFire_spec (s := s.drew n) he]
  refine ⟨_, e, s.draws + n, he, hets ▸ hmin, fun hp => ?_, fun htag => if_neg htag, fun htag => if_pos htag⟩
  rw [htie hp, hheap]
  rfl

/-! ### SCHEDULE -/

theorem exec_schedule (d : Timestamp) (k : Word) (s : State) :
    exec (.schedule d k) s =
      andThen (.next (s.insert d (.external k))) fun t => .next (t.emit (.handle s.sched.nextHandle)) := rfl

/-- SCHEDULE whose Insert raises a fatal error returns no handle (R157, R331). -/
theorem exec_schedule_of_raise {s : State} {d : Timestamp} {k : Word} {r : FatalReason} (h : s.insert d (.external k) = s.raise r) :
    exec (.schedule d k) s = .next (s.raise r) := by
  rw [exec_schedule, h, andThen_of_some (by simp)]

/-- Settles O11: with room and a sum below the sentinel Insert pushes the event (`State.insert_cases`), and `Sched.Inv.push_spec` says what that leaves. -/
theorem scheduleInserts : Obligations.ScheduleInserts := by
  intro s d k hfatal hi hbits hroom hsum
  rw [← tsMax_toNat hbits] at hsum
  have hinsert : s.insert d (.external k) = s.setSched (s.sched.push (s.sched.now + d) (.external k)) := by
    obtain ⟨hfull, -⟩ | ⟨-, hlate, -⟩ | ⟨-, -, h⟩ := s.insert_cases d (.external k)
    · omega
    · omega
    · exact h
  refine ⟨_, ?_, hi.push_spec (s.sched.now + d) (.external k)⟩
  rw [exec_schedule, hinsert, andThen_of_none (by simpa using hfatal)]
  rfl

/-- Settles O12: Insert checks the capacity first and then the sum (`State.insert_cases`). -/
theorem scheduleFatal : Obligations.ScheduleFatal := by
  intro s d k hbits
  rw [← tsMax_toNat hbits]
  refine ⟨fun hfull => exec_schedule_of_raise ?_, fun hroom hlate => exec_schedule_of_raise ?_⟩
  · exact if_pos hfull.ge
  · exact (if_neg (Nat.not_le.2 hroom)).trans (if_pos hlate)

/-! ### ADVANCE -/

theorem exec_advance (n : Timestamp) (s : State) :
    exec (.advance n) s =
      if s.sched.inAdvance then .next (s.raise .nestedAdvance)
      else if s.params.tsMax.toNat < s.sched.now.toNat + n.toNat then .next (s.raise (.timestampOverflow n))
      else .next (s.setSched { s.sched with inAdvance := true, target := s.sched.now + n }) := rfl

/-- Settles O14: the checks of ADVANCE in their order (`exec_advance`, R337): an ADVANCE in progress, then the sum. -/
theorem advanceBegins : Obligations.AdvanceBegins := by
  intro s n hbits
  rw [← tsMax_toNat hbits, exec_advance]
  refine ⟨fun hnested => if_pos hnested, fun hidle hlate => ?_, fun hidle hsum => ?_⟩
  · rw [if_neg (ne_true_of_eq_false hidle), if_pos hlate]
    rfl
  · rw [if_neg (ne_true_of_eq_false hidle), if_neg (Nat.not_lt.2 hsum), BitVec.add_def]
    rfl

/-! ### NOW, NEXT and REMAIN -/

theorem exec_next_of_root {s : State} {root : Nat} {rest : List Nat} (hheap : s.sched.heap = root :: rest) :
    exec .next s = .next (s.emit (.timestamp (s.sched.ts root))) := by
  simp only [exec, execNext, hheap]

theorem exec_remain_of_root {s : State} {root : Nat} {rest : List Nat} (hheap : s.sched.heap = root :: rest) :
    exec .remain s = .next (s.emit (.timestamp (s.sched.ts root - s.sched.now))) := by
  simp only [exec, execRemain, hheap]

/-- A difference of timestamps, the later less the earlier, as a number. -/
theorem ofNat_sub_of_le {a b : Timestamp} (h : a ≤ b) : BitVec.ofNat 64 (b.toNat - a.toNat) = b - a := by
  rw [← BitVec.toNat_sub_of_le h, BitVec.ofNat_toNat, BitVec.setWidth_eq]

/-- Settles O15: NEXT and REMAIN look at the root, a live event of the least timestamp (`Sched.Inv.root`), never before `now` (R164). -/
theorem timeQueries : Obligations.TimeQueries := by
  intro s hi
  obtain ⟨root, rest, hheap⟩ := List.exists_cons_of_ne_nil hi.heap_ne
  obtain ⟨e, he, hts, hmin⟩ := hi.root hheap
  have hnow : s.sched.now ≤ e.ts := hi.notPast root e he
  rw [exec_next_of_root hheap, exec_remain_of_root hheap, hts]
  refine ⟨rfl, root, e, he, hmin, rfl, hnow, ?_⟩
  rw [ofNat_sub_of_le hnow]
  rfl

/-! ### The PPU's Insert on a full heap -/

/-- The PPU's Insert at the end of a handler that began in `s` with the heap full: `CapacityExceeded` is the last output (R153, R332). -/
theorem State.Handled.insertPpu_of_full {s t : State} (h : s.Handled t) (hfull : s.sched.n = s.params.schedCapacity) (delay : Timestamp)
    (tag : Tag) :
    ∃ u, t.insertPpu delay tag = .next u ∧ u.fatal = some (.capacityExceeded tag) ∧ u.sched = s.sched ∧
      u.trace.getLast? = some (.fatal (.capacityExceeded tag) s.sched.now) := by
  have hinsert : t.insert delay tag = t.raise (.capacityExceeded tag) := if_pos (by rw [h.params, h.sched, hfull])
  refine ⟨t.raise (.capacityExceeded tag), ?_, rfl, h.sched, ?_⟩
  · rw [State.insertPpu, hinsert, andThen_of_some (by simp)]
  · rw [State.getLast?_raise, h.sched]

/-- Settles O49: both handlers reach their Insert when no response holds an ADVANCE (`drawEnd_upTo`, `hblankEnd_upTo`), with the scheduler as it was. -/
theorem ppuInsertFatal : Obligations.PpuInsertFatal := by
  intro s hfatal hi hfull hheld
  constructor
  · obtain ⟨t, hexec | ⟨hnot, -⟩, -, hhandled, -⟩ := drawEnd_upTo hfatal hi.heap_ne
    · rw [hexec]
      exact hhandled.insertPpu_of_full hfull _ _
    · exact absurd hheld hnot
  · obtain ⟨t, hstart, ⟨hexec, -⟩ | ⟨hnot, -⟩⟩ := hblankEnd_upTo hfatal hi.heap_ne
    · rw [hexec]
      exact hstart.handled.insertPpu_of_full hfull _ _
    · exact absurd hheld hnot

end Sys2Proof.Machine
end

section
/-! SUPPORT. The statements of 41_bus_access.md about halfword and byte writes of the register bank (R202 to R204, R206 to R220). -/

namespace Sys2Proof.Machine

/-! ### Halfword writes of the other registers -/

/-- The halves of the reference points, whose writes also load the internal references (R213). -/
def RegHalf.isRef : RegHalf → Bool
  | .refXLo _ | .refXHi _ | .refYLo _ | .refYHi _ => true
  | _ => false

theorem Ppu.refLoaded_of_not_isRef {h : RegHalf} (hh : h.isRef = false) (p : Ppu) (r : Regs) : p.refLoaded r h = p := by
  cases h with
  | refXLo | refXHi | refYLo | refYHi => cases hh
  | _ => rfl

/-- A halfword write of a register other than a reference point changes the register bank alone, after the catch-up (R90, R204). -/
theorem exec_write16Mmio_regs (o : Nat) (ho : o % 2 = 0 ∧ o < 0x58 ∧ (regAt o).isRef = false) {a : Word} {v : Half} {s : State}
    (ha : a.toNat / 2 = 0x02000000 + o / 2) :
    exec (.write16Mmio a v) s = .next { s.catchUp with regs := s.regs.written (regAt o) v } := by
  obtain ⟨heven, hlt, hh⟩ := ho
  rw [exec_write16Mmio rfl heven hlt ha, State.regWriteHalf, Ppu.refLoaded_of_not_isRef hh, State.catchUp_regs]
  rfl

/-- A halfword write of VCOUNT or of an unused offset is the catch-up alone (R208, R220). -/
theorem exec_write16Mmio_catchUp (o : Nat) (ho : o % 2 = 0 ∧ o < 0x58 ∧ (regAt o = .vcount ∨ regAt o = .unused)) {a : Word} {v : Half}
    {s : State} (ha : a.toNat / 2 = 0x02000000 + o / 2) : exec (.write16Mmio a v) s = .next s.catchUp := by
  obtain ⟨heven, hlt, hh | hh⟩ := ho <;>
  · rw [exec_write16Mmio hh heven hlt ha]
    rfl

/-- The bits a write of DISPSTAT stores, field by field (R207). -/
theorem dispstat_written_eq_fields (d v : Half) :
    d &&& dispstatKept ||| v &&& dispstatWritable =
      v.extractLsb' 8 8 ++ d.extractLsb' 6 2 ++ v.extractLsb' 3 3 ++ d.extractLsb' 0 3 := by
  refine BitVec.eq_of_getLsbD_eq fun i hi => ?_
  rw [dispstatKept, dispstatWritable, BitVec.getLsbD_append, BitVec.getLsbD_append, BitVec.getLsbD_append]
  interval_cases i <;> simp

/-- Settles O23: each address names its register (`regAt`), whose write is `exec_write16Mmio_regs` or `exec_write16Mmio_catchUp`; the bits of
DISPSTAT are `dispstat_written_eq_fields`. -/
theorem writeControlRegisters : Obligations.WriteControlRegisters := by
  intro s a v
  refine ⟨exec_write16Mmio_regs 0x00 (by decide), ?_, ?_, exec_write16Mmio_regs 0x08 (by decide), exec_write16Mmio_regs 0x0A (by decide),
    exec_write16Mmio_regs 0x0C (by decide), exec_write16Mmio_regs 0x0E (by decide)⟩
  · rw [← dispstat_written_eq_fields]
    exact exec_write16Mmio_regs 0x04 (by decide)
  · rintro (ha | ha | ha | ha)
    · exact exec_write16Mmio_catchUp 0x06 (by decide) ha
    · exact exec_write16Mmio_catchUp 0x02 (by decide) ha
    · exact exec_write16Mmio_catchUp 0x4E (by decide) ha
    · exact exec_write16Mmio_catchUp 0x56 (by decide) ha

/-- Settles O24: the offsets of each background and of each affine set name their registers (`regAt`), none of them a reference point
(`exec_write16Mmio_regs`). -/
theorem writeScrollAndMatrix : Obligations.WriteScrollAndMatrix := by
  refine ⟨fun s a v i => ?_, fun s a v k base hk => ?_⟩
  · cases i with
    | bg0 => exact ⟨exec_write16Mmio_regs 0x10 (by decide), exec_write16Mmio_regs 0x12 (by decide)⟩
    | bg1 => exact ⟨exec_write16Mmio_regs 0x14 (by decide), exec_write16Mmio_regs 0x16 (by decide)⟩
    | bg2 => exact ⟨exec_write16Mmio_regs 0x18 (by decide), exec_write16Mmio_regs 0x1A (by decide)⟩
    | bg3 => exact ⟨exec_write16Mmio_regs 0x1C (by decide), exec_write16Mmio_regs 0x1E (by decide)⟩
  · rcases hk with ⟨rfl, rfl⟩ | ⟨rfl, rfl⟩
    · exact ⟨exec_write16Mmio_regs 0x20 (by decide), exec_write16Mmio_regs 0x22 (by decide), exec_write16Mmio_regs 0x24 (by decide),
        exec_write16Mmio_regs 0x26 (by decide)⟩
    · exact ⟨exec_write16Mmio_regs 0x30 (by decide), exec_write16Mmio_regs 0x32 (by decide), exec_write16Mmio_regs 0x34 (by decide),
        exec_write16Mmio_regs 0x36 (by decide)⟩

/-- Settles O26: each address names its register (`regAt`), none of them a reference point (`exec_write16Mmio_regs`). -/
theorem writeEffectRegisters : Obligations.WriteEffectRegisters := by
  intro s a v
  exact ⟨exec_write16Mmio_regs 0x40 (by decide), exec_write16Mmio_regs 0x42 (by decide), exec_write16Mmio_regs 0x44 (by decide),
    exec_write16Mmio_regs 0x46 (by decide), exec_write16Mmio_regs 0x48 (by decide), exec_write16Mmio_regs 0x4A (by decide),
    exec_write16Mmio_regs 0x4C (by decide), exec_write16Mmio_regs 0x50 (by decide), exec_write16Mmio_regs 0x52 (by decide),
    exec_write16Mmio_regs 0x54 (by decide)⟩

/-! ### Byte writes -/

/-- A byte written to a register just written makes what the byte merged with the halfword written makes: the bits a register does not store count in
neither (R202, R203). -/
theorem State.regWriteHalf_mergeByte_stored (s : State) (h : RegHalf) (m : Half) (o : Nat) (b : Byte) :
    (s.regWriteHalf h m).regWriteHalf h (mergeByte ((s.regWriteHalf h m).regs.stored h) o b) = s.regWriteHalf h (mergeByte m o b) := by
  rw [State.regWriteHalf_regWriteHalf]
  exact s.regWriteHalf_congr (mergeByte_and_congr (s.regs.stored_written_and_mask h m) o b)

/-- Two byte writes of a halfword store the two merges, one after the other (R203). -/
theorem State.store_write8Mmio_write8Mmio (u : State) {a a' : Word} (ha : alignHalf (mmioOffset a') = alignHalf (mmioOffset a)) (b b' : Byte) :
    (u.store (.write8Mmio a b)).store (.write8Mmio a' b') =
      u.regWrite16 (alignHalf (mmioOffset a))
        (mergeByte (mergeByte (u.regs.s16 (alignHalf (mmioOffset a))) (mmioOffset a) b) (mmioOffset a') b') := by
  simp only [State.store, ha]
  exact u.regWriteHalf_mergeByte_stored _ _ _ _

/-- Two byte writes of a halfword are the halfword write of what their bytes merge into, when that does not depend on the halfword stored. -/
theorem exec_write16Mmio_of_bytes {a a' w : Word} (ha : Space.mmio.holds a = true ∧ alignHalf (mmioOffset a) = alignHalf (mmioOffset w))
    (ha' : Space.mmio.holds a' = true ∧ alignHalf (mmioOffset a') = alignHalf (mmioOffset w)) (hw : Space.mmio.holds w = true) {b b' : Byte}
    {v : Half} (hmerge : ∀ c, mergeByte (mergeByte c (mmioOffset a) b) (mmioOffset a') b' = v) (s : State) :
    ∃ t u, exec (.write8Mmio a b) s = .next t ∧ exec (.write8Mmio a' b') t = .next u ∧ exec (.write16Mmio w v) s = .next u := by
  refine exec_word_of_store (word := .write16Mmio w v) (lo := .write8Mmio a b) (hi := .write8Mmio a' b')
    ⟨rfl, hw⟩ ⟨rfl, ha.1⟩ ⟨rfl, ha'.1⟩ (fun u => ?_) s
  rw [u.store_write8Mmio_write8Mmio (ha'.2.trans ha.2.symm), hmerge, ha.2]
  rfl

/-- The two bytes of a halfword merged, in either order, are the halfword (R203). -/
theorem mergeByte_lo_hi {o : Nat} (ho : o % 2 = 0) (c : Half) (lo hi : Byte) : mergeByte (mergeByte c o lo) (o + 1) hi = hi ++ lo := by
  rw [mergeByte, mergeByte, if_pos (by omega), if_neg (by omega), loByte, extract_append_lo]

theorem mergeByte_hi_lo {o : Nat} (ho : o % 2 = 0) (c : Half) (lo hi : Byte) : mergeByte (mergeByte c (o + 1) hi) o lo = hi ++ lo := by
  rw [mergeByte, mergeByte, if_neg (by omega), if_pos (by omega), hiByte, extract_append_hi]

/-- Settles O27: a byte write merges with the stored halfword, which the catch-up leaves alone; two of them are the halfword write
(`exec_write16Mmio_of_bytes`), in either order (`mergeByte_lo_hi`, `mergeByte_hi_lo`). -/
theorem registerByteWrites : Obligations.RegisterByteWrites := by
  refine ⟨fun s o a b ho ha => ?_, fun s o a a' lo hi heven ho ha ha' => ?_⟩
  · obtain ⟨hlegal, hoff⟩ := mmioOffset_of_toNat (by omega) ha
    rw [exec_write (i := .write8Mmio a b) rfl hlegal, exec_write (i := .write16Mmio a _) rfl hlegal]
    simp only [State.store, hoff, State.catchUp_regs]
    rfl
  · obtain ⟨hlegal, hoff⟩ := mmioOffset_of_toNat (by omega) ha
    obtain ⟨hlegal', hoff'⟩ := mmioOffset_of_toNat (a := a') (o := o + 1) (by omega) (by omega)
    have halign : alignHalf (mmioOffset a') = alignHalf (mmioOffset a) := by
      rw [hoff, hoff', alignHalf, alignHalf]
      omega
    obtain ⟨t, u, hlo, hhi, hhalf⟩ := exec_write16Mmio_of_bytes ⟨hlegal, rfl⟩ ⟨hlegal', halign⟩ hlegal
      (fun c => by rw [hoff, hoff', mergeByte_lo_hi heven c lo hi]) s
    obtain ⟨t', u', hhi', hlo', hhalf'⟩ := exec_write16Mmio_of_bytes ⟨hlegal', halign⟩ ⟨hlegal, rfl⟩ hlegal
      (fun c => by rw [hoff, hoff', mergeByte_hi_lo heven c lo hi]) s
    cases hhalf.symm.trans hhalf'
    exact ⟨t, t', u, hlo, hhi, hhi', hlo', hhalf⟩

end Sys2Proof.Machine
end

section
/-! SUPPORT. The statements of 42_scanline_timing.md: the PPU's pending event and the blank flags under every step (R31, R246, R372), the two scanline
callbacks with no response of the host (R240 to R243, R247, R248), and the end of time (R244, R330, R331). -/

namespace Sys2Proof.Machine

/-! ### Steps that leave the timeline alone -/

/-- What a step, or a part of one, that is no scanline callback keeps of the timeline: the PPU's events, the position and the flags; time may go on,
and other events come and go. -/
structure State.SameTimeline (s t : State) : Prop where
  capacity : s.sched.n ≤ s.params.schedCapacity → t.sched.n ≤ s.params.schedCapacity
  ppuEvents : ∀ h ts tag, tag.isPpu = true → (t.sched.due h = some (ts, tag) ↔ s.sched.due h = some (ts, tag))
  now : s.sched.now ≤ t.sched.now
  params : t.params = s.params
  vcount : t.ppu.vcount = s.ppu.vcount
  phase : t.ppu.phase = s.ppu.phase
  ls : t.ppu.ls = s.ppu.ls
  ppuEv : t.ppu.ppuEv = s.ppu.ppuEv
  status : t.regs.dispstat.extractLsb' 0 3 = s.regs.dispstat.extractLsb' 0 3
  produced : s.params.cyclesPerDot * s.line.nextX ≤ s.sched.now.toNat - s.ppu.ls.toNat →
    s.params.cyclesPerDot * t.line.nextX ≤ t.sched.now.toNat - s.ppu.ls.toNat

theorem State.Commanded.sameTimeline {s t : State} (h : s.Commanded t) : s.SameTimeline t :=
  { h with
    now := h.now ▸ BitVec.le_refl _
    produced := by rw [h.now]; exact h.produced }

/-- The clock moved on, and no event, register or part of the picture touched. -/
theorem State.sameTimeline_of_events {s t : State} (heap : t.sched.heap = s.sched.heap) (events : t.sched.events = s.sched.events)
    (now : s.sched.now ≤ t.sched.now) (params : t.params = s.params) (ppu : t.ppu = s.ppu) (regs : t.regs = s.regs)
    (line : t.line = s.line) : s.SameTimeline t where
  capacity := by rw [Sched.n, Sched.n, heap]; exact id
  ppuEvents := fun h ts tag _ => by rw [Sched.due, Sched.due, Sched.event, Sched.event, events]
  now := now
  params := params
  vcount := by rw [ppu]
  phase := by rw [ppu]
  ls := by rw [ppu]
  ppuEv := by rw [ppu]
  status := by rw [regs]
  produced := fun h => by
    rw [line]
    exact h.trans (Nat.sub_le_sub_right now _)

theorem Phase.tag_isPpu (p : Phase) : p.tag.isPpu = true := by
  cases p <;> rfl

theorem State.Timeline.same {s t : State} (h : s.Timeline) (k : s.SameTimeline t) : t.Timeline where
  pending := by
    obtain ⟨e, he, htag, hts⟩ := h.pending
    have hdue := (k.ppuEvents _ _ _ (htag ▸ s.ppu.phase.tag_isPpu)).2 (Sched.due_of_event he)
    obtain ⟨f, hf, hfts, hftag⟩ := Sched.event_of_due hdue
    rw [k.ppuEv, k.phase, k.ls, k.params]
    exact ⟨f, hf, hftag.trans htag, hfts ▸ hts⟩
  only := fun x e he htag => by
    obtain ⟨f, hf, -, hftag⟩ := Sched.event_of_due ((k.ppuEvents x _ _ htag).1 (Sched.due_of_event he))
    rw [k.ppuEv]
    exact h.only x f hf (hftag ▸ htag)
  begun := k.ls ▸ BitVec.le_trans h.begun k.now
  frame := by rw [k.ls, k.params, k.vcount]; exact h.frame
  hblank := by
    rw [k.phase, Regs.hblank, bit_of_status (by omega), k.status, ← bit_of_status (by omega)]
    exact h.hblank
  vblank := by
    rw [k.vcount, k.params, Regs.vblank, bit_of_status (by omega), k.status, ← bit_of_status (by omega)]
    exact h.vblank
  produced := by rw [k.params, k.ls]; exact k.produced h.produced

/-- The parts of `State.Inv` that `step_basic` and `advances_of_step` say nothing of: the heap's bound, and the timeline while no fatal error
stands. -/
structure State.OnTime (s : State) : Prop where
  capacity : s.sched.n ≤ s.params.schedCapacity
  timeline : s.fatal = none → s.Timeline

theorem State.Inv.onTime {s : State} (hs : s.Inv) : s.OnTime := ⟨hs.capacity, hs.timeline⟩

theorem State.OnTime.same {s t : State} (hs : s.OnTime) (k : s.SameTimeline t) (hf : t.fatal = none → s.fatal = none) : t.OnTime :=
  ⟨k.params ▸ k.capacity hs.capacity, fun ht => (hs.timeline (hf ht)).same k⟩

/-- Taking the host's next command off its stream. -/
theorem State.OnTime.took {s : State} (hs : s.OnTime) : s.took.OnTime :=
  hs.same (State.sameTimeline_of_events rfl rfl (BitVec.le_refl _) rfl rfl rfl rfl) id

/-! ### While an event is fired -/

/-- What `Timeline` says beside the PPU's events: the line start on the frame's grid, the flags, and no pixel before its time (R31, R246, R261). -/
structure State.OnGrid (s : State) : Prop where
  begun : s.ppu.ls ≤ s.sched.now
  frame : s.ppu.ls.toNat % s.params.cyclesFrame = s.params.cyclesLine * s.ppu.vcount
  hblank : s.regs.hblank = true ↔ s.ppu.phase = .hblank
  vblank : s.regs.vblank = true ↔ s.params.vVisible ≤ s.ppu.vcount ∧ s.ppu.vcount + 1 < s.params.vTotal
  produced : s.params.cyclesPerDot * s.line.nextX ≤ s.sched.now.toNat - s.ppu.ls.toNat

/-- The timeline once the callback of the event `h` has run and before Fire removes the event: `Timeline`, with `h` left out of account
(R156, R246). -/
structure State.TimelineBut (s : State) (h : Nat) : Prop extends s.OnGrid where
  other : s.ppu.ppuEv ≠ h
  pending : ∃ e, s.sched.event s.ppu.ppuEv = some e ∧ e.tag = s.ppu.phase.tag ∧
    e.ts.toNat = s.ppu.ls.toNat + s.ppu.phase.due s.params
  only : ∀ k e, k ≠ h → s.sched.event k = some e → e.tag.isPpu = true → k = s.ppu.ppuEv

theorem State.Timeline.but {s : State} (hs : s.Timeline) {h : Nat} (hh : s.ppu.ppuEv ≠ h) : s.TimelineBut h :=
  { hs with
    other := hh
    only := fun k e _ => hs.only k e }

/-- The end of Fire takes the event out, and the timeline is whole again. -/
theorem State.TimelineBut.removed {s : State} {h : Nat} {c : Sched} (hs : s.TimelineBut h)
    (hr : Sched.Removed { s.sched with firing := none } h c) : State.Timeline { s with sched := c } :=
  { hs with
    pending := by
      obtain ⟨e, he, htag, hts⟩ := hs.pending
      obtain ⟨f, hf, hfts, hftag⟩ := Sched.event_of_due ((hr.old _ hs.other).trans (Sched.due_of_event he))
      exact ⟨f, hf, hftag.trans htag, hfts ▸ hts⟩
    only := fun k e he htag => by
      have hk : k ≠ h := by
        rintro rfl
        exact absurd (hr.gone.symm.trans he) (by simp)
      obtain ⟨f, hf, -, hftag⟩ := Sched.event_of_due_eq (hr.old k hk) he
      exact hs.only k f hk hf (hftag ▸ htag)
    begun := by
      show s.ppu.ls ≤ c.now
      rw [hr.clock.now]
      exact hs.begun
    produced := by
      show _ ≤ c.now.toNat - _
      rw [hr.clock.now]
      exact hs.produced }

theorem Phase.tag_injective : Function.Injective Phase.tag := by
  intro p q
  cases p <;> cases q <;> decide

/-- A PPU event that is being fired is the pending one, so its tag tells the phase, and `now` is its fixed time (R246). -/
theorem State.Timeline.fired {s : State} (hs : s.Timeline) (hi : s.SchedInv) {h : Nat} {e : Event} {p : Phase} (hf : s.sched.firing = some h)
    (he : s.sched.event h = some e) (htag : e.tag = p.tag) :
    s.ppu.ppuEv = h ∧ s.ppu.phase = p ∧ s.sched.now.toNat = s.ppu.ls.toNat + p.due s.params := by
  obtain ⟨-, -, e', he', hnow⟩ := hi.firing h hf
  obtain ⟨f, hpending, hftag, hfts⟩ := hs.pending
  obtain rfl := hs.only h e he (htag ▸ p.tag_isPpu)
  cases he.symm.trans hpending
  cases he.symm.trans he'
  obtain rfl := Phase.tag_injective (htag.symm.trans hftag)
  exact ⟨rfl, rfl, hnow ▸ hfts⟩

/-- The Insert that ends a scanline callback begun in `s`: beside the event being fired, the one it inserts is the PPU's only event
(R240, R241, R246). -/
theorem State.OnGrid.inserted {s u : State} {delay : Timestamp} {tag : Tag} (hu : u.OnGrid) (hs : s.Timeline) (hi : s.SchedInv)
    (hsched : u.sched = s.sched) (htag : tag = u.ppu.phase.tag)
    (hts : (s.sched.now + delay).toNat = u.ppu.ls.toNat + u.ppu.phase.due u.params) :
    State.TimelineBut ((u.setSched (s.sched.push (s.sched.now + delay) tag)).setPpu { u.ppu with ppuEv := s.sched.nextHandle })
      s.ppu.ppuEv := by
  have hp := hi.push_spec (s.sched.now + delay) tag
  obtain ⟨e, he, hets, hetag⟩ := Sched.event_of_due hp.new
  have hnow : (s.sched.push (s.sched.now + delay) tag).now = u.sched.now := hp.clock.now.trans (by rw [hsched])
  refine
    { hu with
      other := fun heq => ?_
      pending := ⟨e, he, hetag.trans htag, hets ▸ hts⟩
      only := fun k f hk hf hftag => ?_
      begun := hnow ▸ hu.begun
      produced := hnow ▸ hu.produced }
  · obtain ⟨f, hf, -⟩ := hs.pending
    exact absurd (hi.fresh.symm.trans (heq ▸ hf)) (by simp)
  · by_contra hne
    obtain ⟨g, hg, -, hgtag⟩ := Sched.event_of_due_eq (hp.old k hne) hf
    exact hk (hs.only k g hg (hgtag ▸ hftag))

/-! ### The scanline callbacks on the frame's grid -/

/-- The time a scanline callback's Insert computes, as a number. -/
theorem toNat_add_cycles {p : Params} {now : Timestamp} {n : Nat} (hp : p.Legal) (hn : n ≤ p.cyclesLine)
    (hsum : now.toNat + (BitVec.ofNat 64 n).toNat < p.tsMax.toNat) : (now + BitVec.ofNat 64 n).toNat = now.toNat + n := by
  have hline := hp.line
  rw [← tsMax_toNat hp.bits] at hline
  have := p.tsMax.isLt
  rw [toNat_ofNat_of_lt_tsMax (p := p) (by omega)] at hsum
  rw [BitVec.toNat_add, toNat_ofNat_of_lt_tsMax (p := p) (by omega), Nat.mod_eq_of_lt (by omega)]

/-- A line start a line later lies on the frame's grid, at the next line of this frame or the first of the next (R246). -/
theorem nextLine_onGrid {p : Params} {ls v : Nat} (h : ls % p.cyclesFrame = p.cyclesLine * v) :
    (ls + p.cyclesLine) % p.cyclesFrame = p.cyclesLine * ((v + 1) % p.vTotal) := by
  rw [← Nat.mod_add_mod, h, ← Nat.mul_succ, Params.cyclesFrame, Nat.mul_mod_mul_left]

/-- DISPSTAT.VBLANK follows the line number, given how HBLANK_END leaves it at the start of the line after `v` (R31, R241, R243). -/
theorem vblank_nextLine {p : Params} {v : Nat} {old new : Bool} (hp : p.Legal) (hv : v < p.vTotal)
    (hold : old = true ↔ p.vVisible ≤ v ∧ v + 1 < p.vTotal)
    (hnew : new = if (v + 1) % p.vTotal + 1 = p.vTotal then false else if (v + 1) % p.vTotal = p.vVisible then true else old) :
    new = true ↔ p.vVisible ≤ (v + 1) % p.vTotal ∧ (v + 1) % p.vTotal + 1 < p.vTotal := by
  have hvisible := hp.visible
  have hblank := hp.blank
  have hy : (v + 1) % p.vTotal = if v + 1 = p.vTotal then 0 else v + 1 := by
    split_ifs with h
    · rw [h, Nat.mod_self]
    · exact Nat.mod_eq_of_lt (by omega)
  rw [hnew, hy]
  split_ifs <;> simp [hold] <;> omega

/-- An external callback leaves the timeline alone (R163, R245), and the event being fired is not the PPU's. -/
theorem external_timelineBut {s t : State} {h : Nat} {e : Event} {k : Word} (hs : s.Inv) (hfatal : s.fatal = none)
    (he : s.sched.event h = some e) (htag : e.tag = .external k) (ht : exec (.external k) s = .next t) : t.TimelineBut h := by
  have hT := hs.timeline hfatal
  obtain ⟨u, hu, hc⟩ := runAll_commanded (s.host.actionOf k) hs.sched
  cases hu.symm.trans ht
  refine (hT.same hc.sameTimeline).but fun heq => ?_
  obtain ⟨f, hpending, hftag, -⟩ := hT.pending
  rw [← hc.ppuEv, heq] at hpending
  cases he.symm.trans hpending
  have hppu := s.ppu.phase.tag_isPpu
  rw [← hftag, htag] at hppu
  cases hppu

section
variable {s t : State} {h : Nat} {e : Event} (hs : s.Inv) (hfatal : s.fatal = none) (hf : s.sched.firing = some h)
  (he : s.sched.event h = some e)
include hs hfatal hf he

/-- DRAW_END moves the timeline on to the blank of its line (R240, R246). -/
theorem drawEnd_timelineBut (htag : e.tag = .drawEnd) (ht : exec .drawEnd s = .next t) (hreturned : t.fatal = none) : t.TimelineBut h := by
  have hT := hs.timeline hfatal
  obtain ⟨rfl, -, hnow⟩ := hT.fired (p := .draw) hs.sched hf he htag
  obtain ⟨u, hu, hphase, hvcount, hls, hline, -, hstatus, ⟨r, hx⟩ | ⟨-, hsum, hx⟩⟩ := execDrawEnd_cases hfatal hs.sched <;>
    cases hx.symm.trans ht
  · simp at hreturned
  have hbit : ∀ i, i < 3 → bit u.regs.dispstat i = (bit s.regs.dispstat i || (2#3).getLsbD i) := fun i hi => by
    rw [bit_of_status hi, bit_of_status hi, hstatus, BitVec.getLsbD_or]
  have hgrid : u.OnGrid :=
    { begun := by rw [hls, hu.sched]; exact hT.begun
      frame := by rw [hls, hu.params, hvcount]; exact hT.frame
      hblank := by simp [Regs.hblank, hbit, hphase]
      vblank := by
        rw [Regs.vblank, hbit 0 (by omega), hu.params, hvcount, show (2#3).getLsbD 0 = false from rfl, Bool.or_false]
        exact hT.vblank
      produced := by rw [hline, hu.params, hu.sched, hls]; exact s.kept_catchUp.produced hT.produced }
  refine hgrid.inserted hT hs.sched hu.sched (by rw [hphase]; rfl) ?_
  rw [toNat_add_cycles hs.params (Nat.le_add_left ..) hsum, hnow, hphase, hls, hu.params]
  exact Nat.add_assoc ..

/-- HBLANK_END moves the timeline on to the draw phase of the next line (R241, R246). -/
theorem hblankEnd_timelineBut (htag : e.tag = .hblankEnd) (ht : exec .hblankEnd s = .next t) (hreturned : t.fatal = none) :
    t.TimelineBut h := by
  have hT := hs.timeline hfatal
  obtain ⟨rfl, -, hnow⟩ := hT.fired (p := .hblank) hs.sched hf he htag
  obtain ⟨u, hu, ⟨r, hx⟩ | ⟨-, hsum, hphase, hvcount, hls, hnextX, -, hflag, hvblank, hx⟩⟩ := execHblankEnd_cases hfatal hs.sched <;>
    cases hx.symm.trans ht
  · simp at hreturned
  have hgrid : u.OnGrid :=
    { begun := by rw [hls, hu.sched]; exact BitVec.le_refl _
      frame := by rw [hls, hnow, hu.params, hvcount]; exact nextLine_onGrid hT.frame
      hblank := by simp [Regs.hblank, hflag, hphase]
      vblank := by rw [hu.params, hvcount]; exact vblank_nextLine hs.params hs.vcount hT.vblank hvblank
      produced := by simp [hnextX] }
  refine hgrid.inserted hT hs.sched hu.sched (by rw [hphase]; rfl) ?_
  rw [toNat_add_cycles hs.params (Nat.le_add_right ..) hsum, hphase, hls, hu.params]
  rfl

/-- Each callback leaves the timeline whole but for the event being fired; the sentinel is never fired (R156). -/
theorem callback_timelineBut (ht : exec e.tag.instr s = .next t) (hreturned : t.fatal = none) : t.TimelineBut h := by
  cases htag : e.tag with
  | drawEnd => exact drawEnd_timelineBut hs hfatal hf he htag (by rwa [htag] at ht) hreturned
  | hblankEnd => exact hblankEnd_timelineBut hs hfatal hf he htag (by rwa [htag] at ht) hreturned
  | external k => exact external_timelineBut hs hfatal he htag (by rwa [htag] at ht)
  | endOfTime =>
    obtain ⟨-, h0, -⟩ := hs.sched.firing h hf
    exact absurd htag (hs.sched.oneSentinel h e he h0).1

end

/-! ### Every step -/

/-- No instruction leaves more than SCHED_CAPACITY events (R23, R153). -/
theorem exec_capacity (i : Instr) {s t : State} (hfatal : s.fatal = none) (hi : s.SchedInv) (hcap : s.sched.n ≤ s.params.schedCapacity)
    (ht : exec i s = .next t) : t.sched.n ≤ s.params.schedCapacity := by
  cases he : i.isEvent with
  | false =>
    obtain ⟨u, hu, hc⟩ := exec_commanded he hi
    cases hu.symm.trans ht
    exact hc.capacity hcap
  | true =>
    cases i <;> simp only [Instr.isEvent, Bool.false_eq_true] at he
    case drawEnd =>
      obtain ⟨u, hu, -, -, -, -, -, -, ⟨r, hx⟩ | ⟨hn, -, hx⟩⟩ := execDrawEnd_cases hfatal hi <;> cases hx.symm.trans ht
      · exact hu.sched.symm ▸ hcap
      · exact (hi.push_spec _ _).n.trans_le hn
    case hblankEnd =>
      obtain ⟨u, hu, ⟨r, hx⟩ | ⟨hn, -, -, -, -, -, -, -, -, hx⟩⟩ := execHblankEnd_cases hfatal hi <;> cases hx.symm.trans ht
      · exact hu.sched.symm ▸ hcap
      · exact (hi.push_spec _ _).n.trans_le hn
    case endOfTime =>
      cases ht
      exact hcap
    case external k =>
      obtain ⟨u, hu, hc⟩ := runAll_commanded (s.host.actionOf k) hi
      cases hu.symm.trans ht
      exact hc.capacity hcap

section
variable {s t : State} (hs : s.Inv) (hfatal : s.fatal = none)
include hs hfatal

/-- The callback of the event being fired, and the end of Fire, which takes the event out (R156). -/
theorem callbackTurn_onTime {h : Nat} (hf : s.sched.firing = some h) (ht : callbackTurn h s = .next t) : t.OnTime := by
  obtain ⟨-, -, e, he, -⟩ := hs.sched.firing h hf
  obtain ⟨u, hu, hadvances, hstill⟩ := exec_advances e.tag.instr hfatal hs.sched
  have hcap : u.sched.n ≤ u.params.schedCapacity := by
    rw [(exec_basic _ s u hu).params]
    exact exec_capacity _ hfatal hs.sched hs.capacity hu
  rw [callbackTurn_of_exec he hu] at ht
  by_cases hreturned : u.fatal = none
  · obtain ⟨c, hfinish, hr⟩ := finishFire_removes hadvances.inv (hstill.trans hf)
    rw [andThen_of_none hreturned, hfinish] at ht
    cases ht
    have hn : c.n + 1 = u.sched.n := hr.n
    exact ⟨by show c.n ≤ u.params.schedCapacity; omega, fun _ => (callback_timelineBut hs hfatal hf he hu hreturned).removed hr⟩
  · rw [andThen_of_some hreturned] at ht
    cases ht
    exact ⟨hcap, fun h => absurd h hreturned⟩

/-- A turn of the ADVANCE loop only moves `now` on, to the target or to a live event (R155, R159). -/
theorem loopTurn_onTime (hadv : s.sched.inAdvance = true) (ht : loopTurn s = .next t) : t.OnTime := by
  refine hs.onTime.same ?_ fun _ => hfatal
  obtain ⟨root, rest, hheap⟩ := List.exists_cons_of_ne_nil hs.sched.heap_ne
  rw [loopTurn_of_root hheap] at ht
  split_ifs at ht with hlate
  · cases ht
    exact State.sameTimeline_of_events rfl rfl (hs.sched.target hadv) rfl rfl rfl rfl
  · obtain ⟨⟨e, he, -⟩, -, n, hdrew⟩ := State.chooseDue_spec hs.sched hheap
    have hnow : s.sched.now ≤ e.ts := hs.sched.notPast _ e he
    rw [hdrew, beginFire_spec (s := s.drew n) he] at ht
    split_ifs at ht <;> cases ht <;> exact State.sameTimeline_of_events rfl rfl hnow rfl rfl rfl rfl

/-- A host's command leaves the timeline alone: an EVENT is refused (R118, R246). -/
theorem hostTurn_onTime (ht : hostTurn s = .next t) : t.OnTime := by
  have hrefused : (s.took.refuse .badCommand).OnTime :=
    hs.onTime.took.same (State.sameTimeline_of_events rfl rfl (BitVec.le_refl _) rfl rfl rfl rfl) id
  unfold hostTurn issueWith at ht
  split at ht
  · cases ht
    exact hs.onTime
  · split at ht
    · cases ht
      exact hrefused
    · split_ifs at ht with he
      · cases ht
        exact hrefused
      · obtain ⟨u, hu, hc⟩ := exec_commanded (s := s.took) (Bool.eq_false_iff.2 he) hs.sched
        cases hu.symm.trans ht
        exact hs.onTime.took.same hc.sameTimeline fun _ => hfatal

end

/-- Every step keeps the timeline and the heap's bound. -/
theorem step_onTime {s t : State} (hs : s.Inv) (ht : step s = .next t) : t.OnTime := by
  by_cases hfatal : s.fatal = none
  · cases hf : s.sched.firing with
    | some h => exact callbackTurn_onTime hs hfatal hf (step_of_firing hfatal hf ▸ ht)
    | none =>
      cases hadv : s.sched.inAdvance with
      | true => exact loopTurn_onTime hs hfatal hadv (step_of_advancing hfatal hf hadv ▸ ht)
      | false => exact hostTurn_onTime hs hfatal (step_of_ready hfatal hf hadv ▸ ht)
  · rw [step_of_fatal hfatal] at ht
    cases ht
    exact hs.onTime.took

/-- Settles O55: the timeline and the heap's bound by `step_onTime`, the other parts by what every step keeps (`step_basic`, `advances_of_step`). -/
theorem timelineInvariant : Obligations.TimelineInvariant := by
  intro s t hs ht
  obtain ⟨hparams, -, hvcount, hregs, hmem⟩ := step_basic s t ht
  obtain ⟨hcapacity, htimeline⟩ := step_onTime hs ht
  exact
    { mem := hmem hs.mem
      regs := hregs hs.regs
      params := hparams ▸ hs.params
      vcount := hvcount hs.vcount
      sched := (advances_of_step hs.sched ht).inv
      capacity := hcapacity
      timeline := htimeline }

/-! ### Calls the host does not answer -/

/-- A call that the host has no response to, or that is not made, only appends its output, and the handler goes on (R6, R247). -/
theorem andThen_calls_of_unanswered {s : State} {b : Bool} (hf : s.fatal = none) (h : s.host.responses = [] ∨ b = false) (o : Output)
    (f : State → Result) : andThen (s.calls b o) f = f { s with trace := s.trace ++ if b then [o] else [] } := by
  have hcalls : s.calls b o = .next { s with trace := s.trace ++ if b then [o] else [] } := by
    cases b with
    | false => simp [State.calls]
    | true => simp [State.calls, h.resolve_right (by simp)]
  rw [hcalls]
  exact andThen_of_none (by exact hf) f

/-! ### DRAW_END -/

/-- Settles O46: the sequence of DRAW_END (`drawEnd_sequence`) with both its calls unanswered. -/
theorem drawEndEffect : Obligations.DrawEndEffect := by
  intro s hf hi hbits hn hsum hunanswered
  rw [← tsMax_toNat hbits] at hsum
  refine ⟨_, hi.push_spec _ _, ?_⟩
  rw [drawEnd_sequence hf hi hn hsum, State.drawEnded_eq, andThen_calls_of_unanswered, andThen_calls_of_unanswered]
  · simp only [decide_eq_true_eq]
    rfl
  · exact hf
  · exact hunanswered.imp_right fun h => decide_eq_false (Nat.not_lt.2 h.1)
  · exact hf
  · exact hunanswered.imp_right And.right

/-! ### HBLANK_END -/

/-- The status bits at the start of a line, from the assignments of R241, R243 and R242 in turn, `m` being the line compare's. -/
theorem lineStatus_eq (d m : Half) (first last : Prop) [Decidable first] [Decidable last] :
    (((if last then ((d &&& 0xFFFD#16) ||| (if first then 1#16 else 0#16)) &&& 0xFFFE#16
        else (d &&& 0xFFFD#16) ||| (if first then 1#16 else 0#16)) &&& 0xFFFB#16) ||| m) =
      ((d &&& 0xFFF8#16) ||| (if last then 0#16 else if first then 1#16 else d &&& 1#16) ||| m) := by
  congr 1
  split_ifs <;> ext i hi <;> interval_cases i <;> simp

/-- The state HBLANK_END comes to before the line's start, its calls unanswered (R241 to R243). -/
def State.atLineStart (s : State) (y : Nat) : State :=
  { s with
    line := { s.line with nextX := 0 }
    regs :=
      { s.regs with
        dispstat :=
          (s.regs.dispstat &&& 0xFFF8#16) |||
            (if y + 1 = s.params.vTotal then 0#16
              else if y = s.params.vVisible then 1#16 else s.regs.dispstat &&& 1#16) |||
            (if y = s.regs.dispstat.toNat / 256 then 4#16 else 0#16) }
    ppu :=
      { s.ppu with
        vcount := y
        phase := .draw
        ls := s.sched.now
        ix := if y = s.params.vVisible then s.regs.refX else s.ppu.ix
        iy := if y = s.params.vVisible then s.regs.refY else s.ppu.iy }
    trace := s.trace ++
      (if y = s.params.vVisible then
        (if bit s.regs.dispstat 3 then [.irqRequest .vblank s.sched.now] else []) ++ [.dmaNotify .vblank s.sched.now]
        else []) ++
      (if y = 0 then [.present s.fb s.sched.now] else []) ++
      (if y = s.regs.dispstat.toNat / 256 ∧ bit s.regs.dispstat 5 = true then [.irqRequest .vcount s.sched.now] else []) }

/-- HBLANK_END with its calls unanswered, `finish` being the line's start and the Insert (R241 to R243). -/
theorem hblankEnd_of_unanswered {s : State} {y : Nat} {finish : State → Result} (hf : s.fatal = none) (hh : s.sched.heap ≠ [])
    (hy : y = (s.ppu.vcount + 1) % s.params.vTotal)
    (hunanswered : s.host.responses = [] ∨
      y ≠ s.params.vVisible ∧ y ≠ 0 ∧ ¬ (y = s.regs.dispstat.toNat / 256 ∧ bit s.regs.dispstat 5 = true))
    (hfinish : ∀ w, s.AtStart w → w.lineStarted.insertPpu (BitVec.ofNat 64 s.params.cyclesDraw) .drawEnd = finish w) :
    exec .hblankEnd s = finish (s.atLineStart y) := by
  obtain ⟨hlyc, henable⟩ := s.sameCompare_lineBegun
  rw [State.vblankEnded_eq, State.lineBegun_eq hy] at hlyc henable
  dsimp only at hlyc henable
  rw [hblankEnd_sequence hf hh hy hfinish, State.lineBegun_eq hy,
    andThen_calls_of_unanswered, andThen_calls_of_unanswered, andThen_calls_of_unanswered, andThen_calls_of_unanswered]
  · dsimp only
    rw [hlyc, henable, lineStatus_eq]
    by_cases hv : y = s.params.vVisible <;> simp [State.atLineStart, hv]
  · exact hf
  · dsimp only
    rw [hlyc, henable]
    exact hunanswered.imp_right fun ⟨_, _, hcompare⟩ => by simpa using hcompare
  · exact hf
  · exact hunanswered.imp_right fun ⟨_, hpresent, _⟩ => decide_eq_false hpresent
  · exact hf
  · exact hunanswered.imp_right fun ⟨hvblank, _⟩ => decide_eq_false hvblank
  · exact hf
  · exact hunanswered.imp_right fun ⟨hvblank, _⟩ => by simp [hvblank]

/-- Settles O47: HBLANK_END reaches the line's start with its calls unanswered (`hblankEnd_of_unanswered`), and ends as
`State.AtStart.lineStarted_insertPpu` says; the references it latches on a visible line are not reloaded, since line V_VISIBLE is none. -/
theorem hblankEndEffect : Obligations.HblankEndEffect := by
  intro s y hf hi hbits hn hsum hy hunanswered
  rw [← tsMax_toNat hbits] at hsum
  refine ⟨_, hi.push_spec _ _, ?_⟩
  rw [hblankEnd_of_unanswered hf hi.heap_ne hy hunanswered fun w hw => hw.lineStarted_insertPpu hf hn hsum hy]
  by_cases hv : y < s.params.vVisible
  · simp [State.atLineStart, hv, hv.ne]
  · simp [State.atLineStart, hv]

/-! ### The end of time -/

/-- Settles O50: the callback is the raise itself, which keeps all but the mark and the trace. -/
theorem endOfTimeFatal : Obligations.EndOfTimeFatal :=
  fun _ => rfl

end Sys2Proof.Machine
end

section
/-! SUPPORT. The statements of 43_renderer.md: the pixels in time (R260 to R262, R264), what a produced pixel stores (R309 to R311), when a layer shows
its sample (R265, R266, R268), the bitmap samples (R271 to R273), and the object shown at a pixel (R274, R280, R281). -/

namespace Sys2Proof.Machine

/-! ### Pixels produced one after the other -/

@[simp] theorem State.producePixel_regs (s : State) : s.producePixel.regs = s.regs := rfl
@[simp] theorem State.producePixel_ppu (s : State) : s.producePixel.ppu = s.ppu := rfl
@[simp] theorem State.producePixel_params (s : State) : s.producePixel.params = s.params := rfl

@[simp] theorem State.producePixels_zero (s : State) : s.producePixels 0 = s := rfl

theorem State.producePixels_succ (n : Nat) (s : State) : s.producePixels (n + 1) = s.producePixel.producePixels n := rfl

@[simp] theorem State.producePixels_params (n : Nat) (s : State) : (s.producePixels n).params = s.params := by
  rw [(s.sameButLine_producePixels n).eq]

/-- Producing a pixel stores its colour at its place in the frame, and nothing elsewhere (R310). -/
theorem State.producePixel_pixel {s : State} (hnext : s.line.nextX < s.params.hVisible) {x : Nat} (hx : x < s.params.hVisible) (y : Nat) :
    s.producePixel.pixel x y =
      if x = s.line.nextX ∧ y = s.ppu.vcount then s.pixelColour s.line.nextX s.ppu.vcount else s.pixel x y := by
  have hplace := fbIndex_inj (y := y) (y' := s.ppu.vcount) hx hnext
  split_ifs with h
  · obtain ⟨rfl, rfl⟩ := h
    exact Sparse.get_set_same ..
  · exact Sparse.get_set_ne _ _ _ (mt hplace.1 h)

/-- A run of pixels inside the line leaves every other pixel of the frame (R260). -/
theorem State.producePixels_pixel_other {s : State} {n x y : Nat} (hn : n ≤ s.params.hVisible - s.line.nextX) (hx : x < s.params.hVisible)
    (hother : y ≠ s.ppu.vcount ∨ x < s.line.nextX ∨ s.line.nextX + n ≤ x) : (s.producePixels n).pixel x y = s.pixel x y := by
  rw [State.pixel, State.producePixels_params]
  refine State.producePixels_fb n s fun x' hlow hhigh heq => ?_
  have hplace := (fbIndex_inj hx (by omega)).1 heq
  omega

/-- A pixel of a run has the colour of the state in which its turn comes: the pixels after it leave it (R260, R262). -/
theorem State.producePixels_pixel_produced (n : Nat) (s : State) {x : Nat} (hn : n ≤ s.params.hVisible - s.line.nextX) (hlow : s.line.nextX ≤ x)
    (hhigh : x < s.line.nextX + n) :
    (s.producePixels n).pixel x s.ppu.vcount = (s.producePixels (x - s.line.nextX)).pixelColour x s.ppu.vcount := by
  induction n generalizing s with
  | zero => omega
  | succ n ih =>
    have hrest : n ≤ s.producePixel.params.hVisible - s.producePixel.line.nextX := by
      rw [State.producePixel_params, State.producePixel_nextX]
      omega
    rw [State.producePixels_succ]
    rcases Nat.eq_or_lt_of_le hlow with rfl | hlater
    · rw [State.producePixels_pixel_other hrest (by rw [State.producePixel_params]; omega) (.inr (.inl (Nat.lt_succ_self _))),
        State.producePixel_pixel (by omega) (by omega), if_pos ⟨rfl, rfl⟩, Nat.sub_self, State.producePixels_zero]
    · have hturn : x - s.line.nextX = x - (s.line.nextX + 1) + 1 := by omega
      rw [hturn, State.producePixels_succ]
      exact ih s.producePixel hrest hlater (by rw [State.producePixel_nextX]; omega)

/-- Settles O30: an engaged catch-up is `producePixels`, whose pixels are those of `producePixels_pixel_produced` and
`producePixels_pixel_other`; the frame is `catchUp_frame`. -/
theorem catchUpProduces : Obligations.CatchUpProduces := by
  intro s due hdue
  replace hdue : due = s.pixelsDue := hdue
  subst hdue
  have hn : s.pixelsDue - s.line.nextX ≤ s.params.hVisible - s.line.nextX := Nat.sub_le_sub_right s.pixelsDue_le _
  refine ⟨s.catchUp_frame, fun hoff => State.catchUp_of_disengaged (hoff.imp_right fun h => by simp [h]), fun hvis hdraw => ?_⟩
  rw [State.catchUp_nextX hvis hdraw, State.catchUp_of_engaged hvis hdraw]
  refine ⟨rfl, rfl, fun x hlow hhigh => ?_, fun x y hx hother => ?_⟩
  · exact State.producePixels_pixel_produced _ s hn hlow (by omega)
  · exact State.producePixels_pixel_other hn hx (by omega)

/-! ### The accumulators -/

/-- One slope and `n` slopes are `n + 1` slopes, 32-bit wrapping. -/
theorem add_slope_add_slopes (a v : Word) (n : Nat) : a + v + BitVec.ofNat 32 n * v = a + BitVec.ofNat 32 (n + 1) * v := by
  rw [BitVec.ofNat_add, BitVec.add_mul, BitVec.one_mul, BitVec.add_assoc, BitVec.add_comm v]

/-- A produced pixel steps both sets (R264). -/
theorem State.producePixel_accumulators (s : State) (k : Aff) :
    s.producePixel.line.ax.get k = s.line.ax.get k + sextCoef (s.regs.pa.get k) ∧
      s.producePixel.line.ay.get k = s.line.ay.get k + sextCoef (s.regs.pc.get k) := by
  cases k <;> exact ⟨rfl, rfl⟩

theorem State.producePixels_accumulators (n : Nat) (s : State) (k : Aff) :
    (s.producePixels n).line.ax.get k = s.line.ax.get k + BitVec.ofNat 32 n * sextCoef (s.regs.pa.get k) ∧
      (s.producePixels n).line.ay.get k = s.line.ay.get k + BitVec.ofNat 32 n * sextCoef (s.regs.pc.get k) := by
  induction n generalizing s with
  | zero => simp
  | succ n ih =>
    obtain ⟨hx, hy⟩ := s.producePixel_accumulators k
    obtain ⟨ihx, ihy⟩ := ih s.producePixel
    rw [State.producePixels_succ, ihx, ihy, hx, hy, State.producePixel_regs]
    exact ⟨add_slope_add_slopes .., add_slope_add_slopes ..⟩

/-- Settles O32: `producePixels_accumulators` for each of the two sets. -/
theorem accumulatorsStep : Obligations.AccumulatorsStep := by
  intro n s
  obtain ⟨hx2, hy2⟩ := s.producePixels_accumulators n .k2
  obtain ⟨hx3, hy3⟩ := s.producePixels_accumulators n .k3
  exact ⟨hx2, hx3, hy2, hy3⟩

/-! ### What a produced pixel stores -/

/-- A read after a write, at any index. -/
theorem Sparse.get_set {α : Type} [DecidableEq α] (d : α) (m : Sparse α) (i j : Nat) (v : α) :
    Sparse.get d (Sparse.set d m i v) j = if j = i then v else Sparse.get d m j := by
  split_ifs with h
  · subst h
    exact Sparse.get_set_same ..
  · exact Sparse.get_set_ne _ _ _ h

/-- The holds after a pixel are those its four layers leave (R262, R268). -/
theorem State.producePixel_hold (s : State) (i : Bg) :
    s.producePixel.line.hold.get i = (s.bgPixel i s.line.nextX s.ppu.vcount).2 := by
  cases i <;> rfl

theorem State.bgSamples_get (s : State) (i : Bg) (x y : Nat) : (s.bgSamples x y).get i = (s.bgPixel i x y).1 := by
  cases i <;> rfl

theorem PerBg.ext_get {α : Type} {p q : PerBg α} (h : ∀ i, p.get i = q.get i) : p = q := by
  obtain ⟨p0, p1, p2, p3⟩ := p
  obtain ⟨q0, q1, q2, q3⟩ := q
  rw [PerBg.mk.injEq]
  exact ⟨h .bg0, h .bg1, h .bg2, h .bg3⟩

/-- Under forced blank a pixel is white (R311). -/
theorem State.pixelColour_of_blank {s : State} (hblank : bit s.regs.dispcnt 7 = true) (x y : Nat) : s.pixelColour x y = 0x7FFF#15 :=
  if_pos hblank

/-- Otherwise the pixel's own object, samples and window tests are composed (R310). -/
theorem State.pixelColour_of_shown {s : State} (hshown : bit s.regs.dispcnt 7 = false) (x y : Nat) :
    s.pixelColour x y =
      s.regs.effect s.params (bit (windowMask s.regs (s.evaluated x y) x) 5) (s.objPixel x y).1.semi
        (topTwo (byPriority (candidates s.regs (windowMask s.regs (s.evaluated x y) x) (s.bgSamples x y) (s.objPixel x y).1)) (s.bgpal 0)) := by
  have hobj : Sparse.get ObjEntry.clear (s.evaluated x y).objbuf x = (s.objPixel x y).1 := Sparse.get_set_same ..
  rw [State.pixelColour, State.compose, State.setLine_regs, Regs.forcedBlank, hshown, State.setLine_line, hobj]
  rfl

/-- The window mask of a pixel is read from its own window tests, which the line keeps (R301). -/
theorem State.windowMask_producePixel (s : State) (x : Nat) :
    windowMask s.regs s.producePixel.line x = windowMask s.regs (s.evaluated s.line.nextX s.ppu.vcount) x := rfl

/-- Settles O33: the buffers are written at the pixel (`Sparse.get_set`), and the framebuffer holds its colour (`producePixel_pixel`), which is
`pixelColour_of_blank` or `pixelColour_of_shown`. -/
theorem pixelStored : Obligations.PixelStored := by
  rintro s x y rfl hx rfl
  have hcolour : s.producePixel.pixel s.line.nextX s.ppu.vcount = s.pixelColour s.line.nextX s.ppu.vcount := by
    rw [State.producePixel_pixel hx hx, if_pos ⟨rfl, rfl⟩]
  refine ⟨rfl, fun j => ⟨Sparse.get_set .., Sparse.get_set .., Sparse.get_set .., Sparse.get_set ..⟩, s.producePixel_hold,
    fun hblank => ?_, fun mask samples hshown hmask hsamples => ?_, fun x' y' hx' hother => ?_⟩
  · rw [hcolour, State.pixelColour_of_blank hblank]
  · obtain rfl : samples = s.bgSamples s.line.nextX s.ppu.vcount :=
      PerBg.ext_get fun i => (hsamples i).trans (s.bgSamples_get ..).symm
    rw [hcolour, State.pixelColour_of_shown hshown, hmask, State.windowMask_producePixel]
    rfl
  · rw [State.producePixel_pixel hx hx', if_neg (by omega)]

/-! ### When a layer shows its sample -/

theorem Regs.bgMosaicW_eq (r : Regs) : r.bgMosaicW = r.mosaic.toNat % 16 + 1 := by
  rw [Regs.bgMosaicW, field_eq, Nat.pow_zero, Nat.div_one]
  rfl

/-- The layers a mode does not have (R265). -/
theorem layerKind_eq_none {mode : Nat} {i : Bg} (h : 6 ≤ mode ∨ 2 ≤ mode ∧ i.index ≤ 1 ∨ mode ≠ 0 ∧ mode ≠ 2 ∧ i = .bg3) :
    layerKind mode i = none := by
  cases i <;> simp only [layerKind, Bg.index, reduceCtorEq, and_false, and_true, or_false] at h ⊢
  case bg0 | bg1 => exact if_neg (by omega)
  case bg2 => rw [if_neg (by omega), if_neg (by omega), if_neg (by omega)]
  case bg3 => rw [if_neg (by omega), if_neg (by omega)]

/-- The layers a mode has, each with its kind (R265). -/
theorem layerKind_eq_some {mode : Nat} {i : Bg} {kind : LayerKind}
    (h : (mode = 0 ∨ mode = 1 ∧ i.index ≤ 1) ∧ kind = .text ∨ (mode = 1 ∨ mode = 2) ∧ i = .bg2 ∧ kind = .affine .k2 ∨
      mode = 2 ∧ i = .bg3 ∧ kind = .affine .k3 ∨ 3 ≤ mode ∧ mode ≤ 5 ∧ i = .bg2 ∧ kind = .bitmap) :
    layerKind mode i = some kind := by
  rcases h with ⟨rfl | ⟨rfl, hi⟩, rfl⟩ | ⟨rfl | rfl, rfl, rfl⟩ | ⟨rfl, rfl, rfl⟩ | ⟨hlow, hhigh, rfl, rfl⟩
  case inl.inl => cases i <;> rfl
  case inl.inr => cases i <;> simp [Bg.index] at hi <;> rfl
  case inr.inr.inr => interval_cases mode <;> rfl
  all_goals rfl

/-- A layer that is not in the mode, or not enabled (R266). -/
theorem State.bgPixel_of_hidden {s : State} {i : Bg} (h : layerKind s.mode i = none ∨ bit s.regs.dispcnt (8 + i.index) = false) (x y : Nat) :
    s.bgPixel i x y = (none, s.line.hold.get i) := by
  rw [State.bgPixel, bgMode_eq]
  split
  · rfl
  · next hkind => exact if_pos (h.resolve_left fun hnone => nomatch hkind.symm.trans hnone)

/-- An enabled layer of the mode (R266, R268). -/
theorem State.bgPixel_of_shown {s : State} {i : Bg} {kind : LayerKind} (hkind : layerKind s.mode i = some kind)
    (hen : bit s.regs.dispcnt (8 + i.index) = true) (x y : Nat) :
    s.bgPixel i x y =
      if bit (s.regs.bgcnt.get i) 6 = true then
        if x % (s.regs.mosaic.toNat % 16 + 1) ≠ 0 then (s.line.hold.get i, s.line.hold.get i)
        else (s.freshSample i kind x y, s.freshSample i kind x y)
      else (s.freshSample i kind x y, s.line.hold.get i) := by
  have hmode : layerKind s.regs.bgMode i = some kind := by rwa [bgMode_eq]
  have hshown : s.regs.bgEn i ≠ false := by simp [Regs.bgEn, hen]
  rw [State.bgPixel, hmode]
  simp only [if_neg hshown, Regs.bgMosaicW_eq]
  rfl

/-- Settles O34: which layers there are is `layerKind_eq_none` and `layerKind_eq_some`, and what they show is `bgPixel_of_hidden` and
`bgPixel_of_shown`. -/
theorem layerVisibility : Obligations.LayerVisibility := by
  intro s i x y
  refine ⟨fun hhidden => ?_, fun fresh hen hfresh => ?_⟩
  · refine State.bgPixel_of_hidden ?_ x y
    rcases hhidden with h | h | h | h
    · exact .inl (layerKind_eq_none (.inl h))
    · exact .inl (layerKind_eq_none (.inr (.inl h)))
    · exact .inl (layerKind_eq_none (.inr (.inr h)))
    · exact .inr h
  · obtain ⟨kind, hkind, rfl⟩ : ∃ kind, layerKind s.mode i = some kind ∧ fresh = s.freshSample i kind x y := by
      rcases hfresh with ⟨h, rfl⟩ | ⟨h, hi, rfl⟩ | ⟨h, hi, rfl⟩ | ⟨hlow, hhigh, hi, rfl⟩
      · exact ⟨.text, layerKind_eq_some (.inl ⟨h, rfl⟩), rfl⟩
      · exact ⟨.affine .k2, layerKind_eq_some (.inr (.inl ⟨h, hi, rfl⟩)), rfl⟩
      · exact ⟨.affine .k3, layerKind_eq_some (.inr (.inr (.inl ⟨h, hi, rfl⟩))), rfl⟩
      · exact ⟨.bitmap, layerKind_eq_some (.inr (.inr (.inr ⟨hlow, hhigh, hi, rfl⟩))), rfl⟩
    rw [State.bgPixel_of_shown hkind hen]
    refine ⟨fun hmos => ?_, fun hmos hfirst => ?_, fun hmos hinside => ?_⟩
    · rw [if_neg (by simp [hmos])]
    · rw [if_pos hmos, if_neg (not_not.2 hfirst)]
    · rw [if_pos hmos, if_pos hinside]

/-! ### The bitmap samples -/

section
variable {s : State} {x y : Int} (hx : s.line.ax.k2.toInt / 256 = x) (hy : s.line.ay.k2.toInt / 256 = y)
include hx hy

/-- The bitmap sample by the mode, at a texel inside the bitmap (R271 to R273). -/
theorem State.bitmapSample_eq :
    s.bitmapSample =
      if s.mode = 3 ∧ 0 ≤ x ∧ x < 240 ∧ 0 ≤ y ∧ y < 160 then some ((s.vram.read16 (2 * (240 * y.toNat + x.toNat))).extractLsb' 0 15)
      else if s.mode = 4 ∧ 0 ≤ x ∧ x < 240 ∧ 0 ≤ y ∧ y < 160 then
        opaqueIndex (s.vram.read8 (s.regs.frameBase + (240 * y.toNat + x.toNat))).toNat s.bgpal
      else if s.mode = 5 ∧ 0 ≤ x ∧ x < 160 ∧ 0 ≤ y ∧ y < 128 then
        some ((s.vram.read16 (s.regs.frameBase + 2 * (160 * y.toNat + x.toNat))).extractLsb' 0 15)
      else none := by
  have hmode : s.regs.bgMode = s.mode := bgMode_eq _
  simp only [State.bitmapSample, hmode, texelOf_eq, hx, hy, decide_eq_true_eq]
  split
  case h_1 h | h_2 h | h_3 h => simp [h]
  case h_4 h3 h4 h5 => rw [if_neg (mt And.left h3), if_neg (mt And.left h4), if_neg (mt And.left h5)]

end

/-- Settles O37: `bitmapSample_eq` at a texel inside the bitmap, and outside. -/
theorem bitmapSamples : Obligations.BitmapSamples := by
  intro s u v x y hx hy
  rw [State.bitmapSample_eq hx hy]
  refine ⟨?_, ?_, ?_, fun hout => ?_⟩
  · rintro hmode rfl rfl hu hv
    rw [if_pos (by omega), Int.toNat_natCast, Int.toNat_natCast]
  · rintro hmode rfl rfl hu hv
    rw [if_neg (by omega), if_pos (by omega), Int.toNat_natCast, Int.toNat_natCast, ← Nat.add_assoc]
    rfl
  · rintro hmode rfl rfl hu hv
    rw [if_neg (by omega), if_neg (by omega), if_pos (by omega), Int.toNat_natCast, Int.toNat_natCast]
    rfl
  · rw [if_neg, if_neg, if_neg] <;> split_ifs at hout <;> omega

/-! ### The colour of one object at a pixel -/

theorem ObjAttr.displayed_iff (o : ObjAttr) (p : Params) :
    o.displayed p = true ↔ (o.affine = true ∨ o.bit9 = false) ∧ (o.mode = 3 → p.objMode3Policy = .normal) := by
  unfold ObjAttr.displayed
  cases o.affine <;> cases o.bit9 <;> cases p.objMode3Policy <;> simp

/-- An object has a colour at a pixel when it is displayed, covers it, and has an opaque texel there (R274). -/
theorem State.objAt_eq_some_iff (s : State) (o : ObjAttr) (x y : Nat) (c : Colour) :
    s.objAt o x y = some c ↔
      o.displayed s.params = true ∧
        ∃ lx ly tx ty, s.regs.footprint o x y = some (lx, ly) ∧ s.objTexel o lx ly = some (tx, ty) ∧ s.objColor o tx ty = some c := by
  have hbind : s.objAt o x y =
      if o.displayed s.params then
        (s.regs.footprint o x y).bind fun p => (s.objTexel o p.1 p.2).bind fun q => s.objColor o q.1 q.2
      else none := by
    unfold State.objAt
    cases s.regs.footprint o x y with
    | none => rfl
    | some p =>
      dsimp only [Option.bind_some]
      cases s.objTexel o p.1 p.2 <;> rfl
  rw [hbind, Option.ite_none_right_eq_some]
  simp only [Option.bind_eq_some_iff, Prod.exists, exists_and_left]

/-! ### The merge of the objects at a pixel -/

/-- The key of object `i` is not above that of object `j` in the order of R280. -/
def State.objBefore (s : State) (i j : Nat) : Prop :=
  (s.objAttr i).prio.toNat < (s.objAttr j).prio.toNat ∨ (s.objAttr i).prio = (s.objAttr j).prio ∧ i ≤ j

theorem State.objBefore_iff (s : State) (i j : Nat) :
    s.objBefore i j ↔
      (s.objAttr i).prio.toNat < (s.objAttr j).prio.toNat ∨ (s.objAttr i).prio.toNat = (s.objAttr j).prio.toNat ∧ i ≤ j := by
  rw [State.objBefore, BitVec.toNat_inj]

/-- The object-buffer entry of object `i` with colour `c` (R280). -/
def State.objShown (s : State) (i : Nat) (c : Colour) : ObjEntry :=
  ⟨true, c, (s.objAttr i).prio, decide ((s.objAttr i).mode = 1)⟩

/-- Only a strictly lesser priority takes the pixel from an object already shown (R280). -/
theorem State.objShown_merge (s : State) (i n : Nat) (c d : Colour) :
    (s.objShown i c).merge d (s.objAttr n).prio ((s.objAttr n).mode == 1) =
      if (s.objAttr n).prio.toNat < (s.objAttr i).prio.toNat then s.objShown n d else s.objShown i c := by
  simp only [ObjEntry.merge, State.objShown, BitVec.lt_def, Bool.true_eq_false, false_or]
  rfl

section
variable (s : State) (x y n : Nat)

/-- An entry of the object buffer shows the winner among the first `n` objects, or is clear with none of them to show (R280). -/
def State.ObjMerged (e : ObjEntry) : Prop :=
  (e = ObjEntry.clear ∧ ∀ i < n, ∀ c, ¬ s.objDraws x y i c) ∨
    ∃ i < n, ∃ c, s.objDraws x y i c ∧ e = s.objShown i c ∧ ∀ j < n, ∀ d, s.objDraws x y j d → s.objBefore i j

/-- One of the first `n` objects is an object-window object with an opaque texel at the pixel (R281). -/
def State.ObjWindowed : Prop :=
  ∃ i < n, ∃ c, s.objAt (s.objAttr i) x y = some c ∧ (s.objAttr i).mode = 2

variable {s x y n} {e : ObjEntry} (h : s.ObjMerged x y n e)
include h

/-- An object that does not draw at the pixel leaves the winner. -/
theorem State.ObjMerged.succ_of_not_draws (hn : ∀ c, ¬ s.objDraws x y n c) : s.ObjMerged x y (n + 1) e := by
  rcases h with ⟨rfl, hnone⟩ | ⟨i, hi, c, hdraws, rfl, hleast⟩
  · exact .inl ⟨rfl, Nat.forall_lt_succ_right.2 ⟨hnone, hn⟩⟩
  · exact .inr ⟨i, Nat.lt_succ_of_lt hi, c, hdraws, rfl, Nat.forall_lt_succ_right.2 ⟨hleast, fun d hd => absurd hd (hn d)⟩⟩

/-- An object that draws there takes part in the merge. -/
theorem State.ObjMerged.succ_of_draws {d : Colour} (hn : s.objDraws x y n d) :
    s.ObjMerged x y (n + 1) (e.merge d (s.objAttr n).prio ((s.objAttr n).mode == 1)) := by
  simp only [State.ObjMerged, State.objBefore_iff] at h ⊢
  right
  rcases h with ⟨rfl, hnone⟩ | ⟨i, hi, c, hdraws, rfl, hleast⟩
  · refine ⟨n, Nat.lt_succ_self n, d, hn, rfl, Nat.forall_lt_succ_right.2 ⟨fun j hj c hc => absurd hc (hnone j hj c), fun _ _ => ?_⟩⟩
    exact .inr ⟨rfl, Nat.le_refl n⟩
  · rw [State.objShown_merge]
    split_ifs with hless
    · refine ⟨n, Nat.lt_succ_self n, d, hn, rfl, Nat.forall_lt_succ_right.2 ⟨fun j hj c hc => ?_, fun _ _ => .inr ⟨rfl, Nat.le_refl n⟩⟩⟩
      have := hleast j hj c hc
      omega
    · exact ⟨i, Nat.lt_succ_of_lt hi, c, hdraws, rfl, Nat.forall_lt_succ_right.2 ⟨hleast, fun _ _ => by omega⟩⟩

end

theorem State.objWindowed_succ (s : State) (x y n : Nat) :
    s.ObjWindowed x y (n + 1) ↔ s.ObjWindowed x y n ∨ ∃ c, s.objAt (s.objAttr n) x y = some c ∧ (s.objAttr n).mode = 2 :=
  Nat.exists_lt_succ_right

section
variable {s : State} {x y n : Nat} {acc : ObjEntry × Bool}

theorem State.objTurn_of_transparent (hat : s.objAt (s.objAttr n) x y = none) : s.objTurn x y acc n = acc := by
  simp only [State.objTurn, hat]

/-- An object-window object only sets the flag (R281). -/
theorem State.objTurn_of_window {c : Colour} (hat : s.objAt (s.objAttr n) x y = some c) (hmode : (s.objAttr n).mode = 2) :
    s.objTurn x y acc n = (acc.1, true) := by
  simp only [State.objTurn, hat, if_pos hmode]

theorem State.objTurn_of_draws {c : Colour} (hat : s.objAt (s.objAttr n) x y = some c) (hmode : (s.objAttr n).mode ≠ 2) :
    s.objTurn x y acc n = (acc.1.merge c (s.objAttr n).prio ((s.objAttr n).mode == 1), acc.2) := by
  simp only [State.objTurn, hat, if_neg hmode]

/-- One object's turn (R274): the winner and the window flag of the first `n` objects become those of the first `n + 1`. -/
theorem State.objTurn_spec (hn : n < 128)
    (h : s.ObjMerged x y n acc.1 ∧ (acc.2 = true ↔ s.ObjWindowed x y n)) :
    s.ObjMerged x y (n + 1) (s.objTurn x y acc n).1 ∧ ((s.objTurn x y acc n).2 = true ↔ s.ObjWindowed x y (n + 1)) := by
  obtain ⟨hentry, hwindow⟩ := h
  rw [State.objWindowed_succ, ← hwindow]
  cases hat : s.objAt (s.objAttr n) x y with
  | none =>
    rw [State.objTurn_of_transparent hat]
    exact ⟨hentry.succ_of_not_draws (by simp [State.objDraws, hat]), by simp⟩
  | some c =>
    by_cases hmode : (s.objAttr n).mode = 2
    · rw [State.objTurn_of_window hat hmode]
      exact ⟨hentry.succ_of_not_draws (by simp [State.objDraws, hmode]), by simp [hmode]⟩
    · rw [State.objTurn_of_draws hat hmode]
      exact ⟨hentry.succ_of_draws ⟨hn, hat, hmode⟩, by simp [hmode]⟩

end

/-- The turns of the first `n` objects, in increasing index. -/
theorem State.foldl_objTurn_spec (s : State) (x y : Nat) {n : Nat} (hn : n ≤ 128) :
    s.ObjMerged x y n ((List.range n).foldl (s.objTurn x y) (ObjEntry.clear, false)).1 ∧
      (((List.range n).foldl (s.objTurn x y) (ObjEntry.clear, false)).2 = true ↔ s.ObjWindowed x y n) := by
  induction n with
  | zero => exact ⟨.inl ⟨rfl, by simp⟩, by simp [State.ObjWindowed]⟩
  | succ n ih =>
    rw [List.range_succ, List.foldl_concat]
    exact State.objTurn_spec hn (ih (Nat.le_of_succ_le hn))

/-- An object that draws and is before every other is the winner shown (R280). -/
theorem State.ObjMerged.eq_objShown {s : State} {x y i : Nat} {e : ObjEntry} {c : Colour} (h : s.ObjMerged x y 128 e) (hi : s.objDraws x y i c)
    (hleast : ∀ j d, s.objDraws x y j d → s.objBefore i j) : e = s.objShown i c := by
  rcases h with ⟨-, hnone⟩ | ⟨k, hk, d, hdraws, rfl, hbefore⟩
  · exact absurd hi (hnone i hi.1 c)
  · have hik := (s.objBefore_iff i k).1 (hleast k d hdraws)
    have hki := (s.objBefore_iff k i).1 (hbefore i hi.1 c hi)
    obtain rfl : k = i := by omega
    rw [Option.some.inj (hi.2.1.symm.trans hdraws.2.1)]

/-- With no object drawing at the pixel the entry is clear. -/
theorem State.ObjMerged.eq_clear {s : State} {x y n : Nat} {e : ObjEntry} (h : s.ObjMerged x y n e) (hnone : ∀ i c, ¬ s.objDraws x y i c) :
    e = ObjEntry.clear := by
  rcases h with ⟨he, -⟩ | ⟨i, -, c, hdraws, -⟩
  · exact he
  · exact absurd hdraws (hnone i c)

/-- Settles O38: one object's colour is `objAt_eq_some_iff`; the turns of the 128 objects leave the winner and the window flag
(`foldl_objTurn_spec`), read off by `eq_objShown` and `eq_clear`. -/
theorem objectWinner : Obligations.ObjectWinner := by
  intro s x y
  refine ⟨fun o c => ?_, fun hoff => ?_, fun hon => ?_⟩
  · rw [State.objAt_eq_some_iff, ObjAttr.displayed_iff, and_assoc]
  · exact if_neg (by simp [Regs.objEn, hoff])
  · have hpixel : s.objPixel x y = (List.range 128).foldl (s.objTurn x y) (ObjEntry.clear, false) := if_pos hon
    obtain ⟨hentry, hwindow⟩ := s.foldl_objTurn_spec x y (Nat.le_refl 128)
    rw [hpixel]
    refine ⟨fun i c hdraws hleast => hentry.eq_objShown hdraws hleast, hentry.eq_clear, hwindow.trans ?_⟩
    simp only [State.ObjWindowed, exists_and_left]

end Sys2Proof.Machine
end

section
/-! SUPPORT. The statements of 44_composer.md: the windows and the mask in force (R300, R301), the two front layers (R302, R303), the channels of the
colour effects (R305 to R307), and which effect a pixel gets (R304, R308). -/

namespace Sys2Proof.Machine

/-! ### The windows -/

/-- A field at bit 0 is a remainder. -/
theorem field_low {n : Nat} (v : BitVec n) (len : Nat) : field v 0 len = v.toNat % 2 ^ len := by
  rw [field_eq, pow_zero, Nat.div_one]

theorem inSpan_iff (lo hi v : Nat) : inSpan lo hi v = true ↔ if lo ≤ hi then lo ≤ v ∧ v < hi else lo ≤ v ∨ v < hi := by
  unfold inSpan
  split_ifs <;> exact decide_eq_true_iff

theorem inSpan_self (lo v : Nat) : inSpan lo lo v = false := by
  rw [inSpan, if_pos (Nat.le_refl lo), decide_eq_false_iff_not]
  omega

/-- The start of a window's rectangle register, its high byte (R300). -/
theorem field_start (h : Half) : field h 8 8 = h.toNat / 256 := by
  have := h.isLt
  rw [field_eq]
  omega

/-- The end of a window's rectangle register, its low byte (R300). -/
theorem field_end (h : Half) : field h 0 8 = h.toNat % 256 := field_low h 8

theorem winInside_disabled (h v : Half) (x y : Nat) : winInside false h v x y = false := rfl

/-- An enabled window holds the pixels of both its spans (R300). -/
theorem winInside_enabled (h v : Half) (x y : Nat) :
    winInside true h v x y = (inSpan (h.toNat / 256) (h.toNat % 256) x && inSpan (v.toNat / 256) (v.toNat % 256) y) := by
  rw [winInside, Bool.true_and, field_start, field_end, field_start, field_end]

/-! ### The mask in force -/

/-- No window is enabled when bits 15:13 of DISPCNT are 0 (R30, R301). -/
theorem Regs.noWindow_iff (r : Regs) : (!r.win0En && !r.win1En && !r.objwinEn) = true ↔ r.dispcnt.toNat / 0x2000 = 0 := by
  have := r.dispcnt.isLt
  simp only [Regs.win0En, Regs.win1En, Regs.objwinEn, bit_eq, Bool.and_eq_true, Bool.not_eq_true', decide_eq_false_iff_not]
  omega

theorem windowMask_of_noWindow {r : Regs} (h : r.dispcnt.toNat / 0x2000 = 0) (l : Line) (x : Nat) : windowMask r l x = 0x3F#6 :=
  if_pos (r.noWindow_iff.2 h)

/-- With a window enabled, the first region in R301's order that holds the pixel gives the mask. -/
theorem windowMask_of_window {r : Regs} (h : r.dispcnt.toNat / 0x2000 ≠ 0) (l : Line) (x : Nat) :
    (windowMask r l x).toNat =
      if Sparse.get false l.win0 x = true then r.winin.toNat % 64
      else if Sparse.get false l.win1 x = true then r.winin.toNat / 256 % 64
      else if bit r.dispcnt 15 = true ∧ Sparse.get false l.objwin x = true then r.winout.toNat / 256 % 64
      else r.winout.toNat % 64 := by
  have hlow (v : Half) : (v.extractLsb' 0 6).toNat = v.toNat % 64 := field_low v 6
  have hhigh (v : Half) : (v.extractLsb' 8 6).toNat = v.toNat / 256 % 64 := field_eq v 8 6
  rw [windowMask, if_neg (mt r.noWindow_iff.1 h)]
  simp only [apply_ite BitVec.toNat, hlow, hhigh, Regs.objwinEn, Bool.and_eq_true]

/-- Settles O42: a window is its two spans (`winInside_enabled`, `inSpan_iff`), empty where they are (`inSpan_self`), and the mask is that of the first
region that holds the pixel (`windowMask_of_window`). -/
theorem windowRules : Obligations.WindowRules := by
  refine ⟨fun h v x y => ⟨winInside_disabled h v x y, ?_, fun hempty => ?_⟩,
    fun r l x => ⟨fun hoff => windowMask_of_noWindow hoff l x, fun hon => ?_⟩⟩
  · rw [winInside_enabled, Bool.and_eq_true, inSpan_iff, inSpan_iff]
  · rw [winInside_enabled, hempty, inSpan_self, Bool.false_and]
  · rw [windowMask_of_window hon]
    refine ⟨fun h0 => if_pos h0, fun h0 h1 => by simp [h0, h1], fun h0 h1 => ⟨fun hobj => by simp [h0, h1, hobj], fun hout => ?_⟩⟩
    rcases hout with hout | hout <;> simp [h0, h1, hout]

/-! ### The candidates in the order of their rank -/

/-- The rank of a layer among those of equal priority (R303). -/
def Layer.rank : Layer → Nat
  | .obj => 0
  | .bg i => 1 + i.index
  | .backdrop => 7

theorem Candidate.key_eq (c : Candidate) : c.key = 8 * c.prio.toNat + c.layer.rank := by
  unfold Candidate.key
  cases c.layer <;> rfl

theorem Layer.rank_lt (l : Layer) : l.rank < 8 := by
  rcases l with (_ | _ | _ | _) | _ | _ <;> decide

/-- The candidate of a layer other than the backdrop, if it is one (R302). -/
def candidateOf (r : Regs) (mask : BitVec 6) (bg : PerBg (Option Colour)) (e : ObjEntry) : Layer → Option Candidate
  | .obj => objCandidate mask e
  | .bg i => bgCandidate r mask bg i
  | .backdrop => none

/-- The layers other than the backdrop, in the order of their rank (R303). -/
def rankedLayers : List Layer := [.obj, .bg .bg0, .bg .bg1, .bg .bg2, .bg .bg3]

theorem rankedLayers_pairwise : rankedLayers.Pairwise fun l l' => l.rank < l'.rank := by decide

section
variable (r : Regs) (mask : BitVec 6) (bg : PerBg (Option Colour)) (e : ObjEntry)

theorem candidates_eq_filterMap : candidates r mask bg e = rankedLayers.filterMap (candidateOf r mask bg e) := by
  simp [List.filterMap_eq_flatMap_toList, candidates, rankedLayers, candidateOf]

theorem objCandidate_eq_some_iff (c : Candidate) :
    objCandidate mask e = some c ↔ e.opaque_ = true ∧ mask.getLsbD 4 = true ∧ c = ⟨.obj, e.prio, e.color⟩ := by
  rw [objCandidate, Option.ite_none_right_eq_some, Bool.and_eq_true, Option.some_inj, and_assoc, eq_comm (a := c)]
  rfl

theorem bgCandidate_eq_some_iff (i : Bg) (c : Candidate) :
    bgCandidate r mask bg i = some c ↔
      ∃ col, bg.get i = some col ∧ mask.getLsbD i.index = true ∧ c = ⟨.bg i, (r.bgcnt.get i).extractLsb' 0 2, col⟩ := by
  unfold bgCandidate
  cases bg.get i with
  | none => simp
  | some col =>
    dsimp only
    rw [Option.ite_none_right_eq_some, Option.some_inj]
    simp [bit, Regs.bgPriority, eq_comm (b := c)]

variable {r mask bg e} in
theorem layer_of_candidateOf {l : Layer} {c : Candidate} (h : candidateOf r mask bg e l = some c) : c.layer = l := by
  cases l with
  | obj =>
    obtain ⟨-, -, rfl⟩ := (objCandidate_eq_some_iff mask e c).1 h
    rfl
  | bg i =>
    obtain ⟨col, -, -, rfl⟩ := (bgCandidate_eq_some_iff r mask bg i c).1 h
    rfl
  | backdrop => cases h

theorem mem_candidates_iff (c : Candidate) :
    c ∈ candidates r mask bg e ↔
      (e.opaque_ = true ∧ mask.getLsbD 4 = true ∧ c = ⟨.obj, e.prio, e.color⟩) ∨
      ∃ i col, bg.get i = some col ∧ mask.getLsbD i.index = true ∧ c = ⟨.bg i, (r.bgcnt.get i).extractLsb' 0 2, col⟩ := by
  simp only [← objCandidate_eq_some_iff, ← bgCandidate_eq_some_iff, candidates, List.mem_append, Option.mem_toList, or_assoc]
  refine or_congr_right ⟨?_, ?_⟩
  · rintro (h | h | h | h) <;> exact ⟨_, h⟩
  · rintro ⟨_ | _ | _ | _, h⟩ <;> simp [h]

theorem candidates_pairwise_rank : (candidates r mask bg e).Pairwise fun c c' => c.layer.rank < c'.layer.rank := by
  rw [candidates_eq_filterMap]
  refine rankedLayers_pairwise.filterMap _ fun l l' hlt c hc c' hc' => ?_
  rw [layer_of_candidateOf hc, layer_of_candidateOf hc']
  exact hlt

end

/-! ### Sorting by priority -/

/-- The priorities, front to back. -/
def priorities : List (BitVec 2) := [0#2, 1#2, 2#2, 3#2]

theorem mem_priorities (p : BitVec 2) : p ∈ priorities := by
  revert p
  decide

theorem byPriority_eq_flatMap (l : List Candidate) : byPriority l = priorities.flatMap fun p => l.filter fun c => c.prio = p := by
  simp [byPriority, priorities]

theorem mem_byPriority (l : List Candidate) (c : Candidate) : c ∈ byPriority l ↔ c ∈ l := by
  simp [byPriority_eq_flatMap, List.mem_flatMap, mem_priorities]

/-- A list in rank order is sorted by `(priority, rank)` (R303). -/
theorem byPriority_pairwise_key {l : List Candidate} (h : l.Pairwise fun c c' => c.layer.rank < c'.layer.rank) :
    (byPriority l).Pairwise fun c c' => c.key < c'.key := by
  simp only [Candidate.key_eq]
  rw [byPriority_eq_flatMap, List.pairwise_flatMap]
  constructor
  · intro p _
    refine (h.filter _).imp_of_mem fun hc hc' hlt => ?_
    have hp := of_decide_eq_true (List.mem_filter.1 hc).2
    have hp' := of_decide_eq_true (List.mem_filter.1 hc').2
    rw [hp, hp']
    exact Nat.add_lt_add_left hlt _
  · have hsorted : priorities.Pairwise fun p p' => p.toNat < p'.toNat := by decide
    refine hsorted.imp fun hlt c hc c' hc' => ?_
    have hp := of_decide_eq_true (List.mem_filter.1 hc).2
    have hp' := of_decide_eq_true (List.mem_filter.1 hc').2
    have := c.layer.rank_lt
    rw [hp, hp']
    omega

/-! ### The two front layers -/

/-- The head of a list sorted by a key is its element of least key. -/
theorem head_of_least {α : Type} {key : α → Nat} {a a' : α} {l : List α} (hsorted : (a' :: l).Pairwise fun c c' => key c < key c')
    (ha : a ∈ a' :: l) (hleast : ∀ c ∈ a' :: l, c ≠ a → key a < key c) : a = a' := by
  by_contra hne
  have hlater := List.rel_of_pairwise_cons hsorted ((List.mem_cons.1 ha).resolve_left hne)
  have := hleast a' List.mem_cons_self (Ne.symm hne)
  omega

/-- The top layer is the candidate of least key, in front of whatever the others show. -/
theorem topTwo_of_head {l : List Candidate} {a : Candidate} (bd : Colour) (hsorted : l.Pairwise fun c c' => c.key < c'.key)
    (ha : a ∈ l) (hleast : ∀ c ∈ l, c ≠ a → a.key < c.key) :
    ∃ rest, l = a :: rest ∧ (topTwo l bd).top = a.layer ∧ (topTwo l bd).colorA = a.color := by
  cases l with
  | nil => cases ha
  | cons a' rest =>
    obtain rfl := head_of_least hsorted ha hleast
    refine ⟨rest, rfl, ?_⟩
    cases rest <;> exact ⟨rfl, rfl⟩

section
variable {a : Candidate} {rest : List Candidate} (hsorted : (a :: rest).Pairwise fun c c' => c.key < c'.key)
include hsorted

theorem ne_head_of_mem_tail {c : Candidate} (hc : c ∈ rest) : c ≠ a := by
  rintro rfl
  exact Nat.lt_irrefl _ (List.rel_of_pairwise_cons hsorted hc)

/-- With no other candidate the backdrop is second (R303). -/
theorem topTwo_second_of_alone (bd : Colour) (halone : ∀ c ∈ a :: rest, c = a) :
    (topTwo (a :: rest) bd).second = some (.backdrop, bd) := by
  cases rest with
  | nil => rfl
  | cons c _ => exact absurd (halone c (by simp)) (ne_head_of_mem_tail hsorted List.mem_cons_self)

/-- The second layer is the candidate of least key among the others (R303). -/
theorem topTwo_second_of_least {b : Candidate} (bd : Colour) (hb : b ∈ a :: rest) (hne : b ≠ a)
    (hleast : ∀ c ∈ a :: rest, c ≠ a → c ≠ b → b.key < c.key) : (topTwo (a :: rest) bd).second = some (b.layer, b.color) := by
  have hmem : b ∈ rest := (List.mem_cons.1 hb).resolve_left hne
  cases rest with
  | nil => cases hmem
  | cons b' rest' =>
    have hbefore : ∀ c ∈ b' :: rest', c ≠ b → b.key < c.key := fun c hc =>
      hleast c (List.mem_cons_of_mem a hc) (ne_head_of_mem_tail hsorted hc)
    obtain rfl := head_of_least hsorted.of_cons hmem hbefore
    rfl

end

/-- Settles O43: sorting keeps the candidates (`mem_byPriority`) and puts them in the order of their keys (`byPriority_pairwise_key`), so the first two are
the least and the least of the others. -/
theorem topTwoLayers : Obligations.TopTwoLayers := by
  intro r mask bg e bd
  refine ⟨mem_candidates_iff r mask bg e, fun hnone => by rw [hnone]; rfl, ?_⟩
  have hsorted := byPriority_pairwise_key (candidates_pairwise_rank r mask bg e)
  simp only [← mem_byPriority (candidates r mask bg e)]
  intro a ha hleast
  obtain ⟨rest, hl, htop, hcolour⟩ := topTwo_of_head bd hsorted ha hleast
  refine ⟨htop, hcolour, ?_⟩
  rw [hl] at hsorted ⊢
  exact ⟨topTwo_second_of_alone hsorted bd, fun b => topTwo_second_of_least hsorted bd⟩

/-! ### The channels of a colour -/

theorem rgb_toNat (x y z : Nat) : (rgb x y z).toNat = (z % 32 * 32 + y % 32) * 32 + x % 32 := by
  have hy : y % 32 < 2 ^ 5 := Nat.mod_lt _ (by decide)
  have hx : x % 32 < 2 ^ 5 := Nat.mod_lt _ (by decide)
  rw [rgb, BitVec.toNat_append, BitVec.toNat_append, BitVec.toNat_ofNat, BitVec.toNat_ofNat, BitVec.toNat_ofNat,
    ← Nat.shiftLeft_add_eq_or_of_lt hy, ← Nat.shiftLeft_add_eq_or_of_lt hx, Nat.shiftLeft_eq, Nat.shiftLeft_eq]

theorem red_eq (c : Colour) : red c = c.toNat % 32 := field_low c 5

theorem green_eq (c : Colour) : green c = c.toNat / 32 % 32 := field_eq c 5 5

theorem blue_eq (c : Colour) : blue c = c.toNat / 1024 := by
  have := c.isLt
  rw [blue, field_eq]
  omega

/-- The three channels of a colour (R13). -/
def IsChannel (ch : Colour → Nat) : Prop := ch = red ∨ ch = green ∨ ch = blue

theorem isChannel_iff (ch : Colour → Nat) :
    IsChannel ch ↔ ch = (fun c => c.toNat % 32) ∨ ch = (fun c => c.toNat / 32 % 32) ∨ ch = (fun c => c.toNat / 1024) := by
  rw [IsChannel, funext red_eq, funext green_eq, funext blue_eq]

theorem IsChannel.lt {ch : Colour → Nat} (h : IsChannel ch) (c : Colour) : ch c < 32 := by
  rcases h with rfl | rfl | rfl <;> exact BitVec.isLt _

/-- An effect that works channel by channel does so on each of the three. -/
theorem IsChannel.rgb_map {ch : Colour → Nat} (h : IsChannel ch) (f : Nat → Nat → Nat) (a b : Colour)
    (hf : ∀ m n, m < 32 → n < 32 → f m n < 32) :
    ch (rgb (f (red a) (red b)) (f (green a) (green b)) (f (blue a) (blue b))) = f (ch a) (ch b) := by
  have hlt {g : Colour → Nat} (hg : IsChannel g) : f (g a) (g b) < 32 := hf _ _ (hg.lt a) (hg.lt b)
  have hred := hlt (.inl rfl)
  have hgreen := hlt (.inr (.inl rfl))
  have hblue := hlt (.inr (.inr rfl))
  rcases h with rfl | rfl | rfl
  · rw [red_eq (rgb ..), rgb_toNat]
    omega
  · rw [green_eq (rgb ..), rgb_toNat]
    omega
  · rw [blue_eq (rgb ..), rgb_toNat]
    omega

/-! ### The effects, channel by channel -/

theorem alphaChannel_lt (eva evb m n : Nat) : alphaChannel eva evb m n < 32 := by
  unfold alphaChannel
  omega

/-- A fade to white adds at most what is missing to 31 (R306). -/
theorem brightenChannel_lt {evy m : Nat} (hevy : evy ≤ 16) (hm : m < 32) : brightenChannel evy m < 32 := by
  have : (31 - m) * evy / 16 ≤ 31 - m := Nat.div_le_of_le_mul (Nat.mul_comm .. ▸ Nat.mul_le_mul_right _ hevy)
  unfold brightenChannel
  omega

theorem darkenChannel_lt (evy : Nat) {m : Nat} (hm : m < 32) : darkenChannel evy m < 32 :=
  Nat.lt_of_le_of_lt (Nat.sub_le ..) hm

/-- The weight of a coefficient in the low five bits (R42, R43). -/
theorem weight_low (v : Half) : weight (field v 0 5) = min 16 (v.toNat % 32) := congrArg weight (field_low v 5)

/-- The weight of a coefficient in the low five bits of the high byte (R42). -/
theorem weight_high (v : Half) : weight (field v 8 5) = min 16 (v.toNat / 256 % 32) := congrArg weight (field_eq v 8 5)

/-- Settles O44: each effect works channel by channel (`IsChannel.rgb_map`), and no channel leaves its five bits. -/
theorem blendChannels : Obligations.BlendChannels := by
  intro r a b ch hch
  rw [← isChannel_iff] at hch
  rw [← weight_low, ← weight_high, ← weight_low]
  refine ⟨hch.rgb_map (alphaChannel _ _) a b fun _ _ _ _ => alphaChannel_lt .., ?_, ?_⟩
  · exact hch.rgb_map (fun m _ => brightenChannel _ m) a a fun _ _ hm _ => brightenChannel_lt (Nat.min_le_left ..) hm
  · exact hch.rgb_map (fun m _ => darkenChannel _ m) a a fun _ _ hm _ => darkenChannel_lt _ hm

/-! ### Which effect a pixel gets -/

/-- The forced blend of a semi-transparent object over a second target (R308). -/
def Regs.ForcesBlend (r : Regs) (p : Params) (eff semi : Bool) (t : TopTwo) : Prop :=
  t.top = .obj ∧ semi = true ∧ r.secondTarget t.second = true ∧ (eff = true ∨ p.semiObjWindowGated = false)

section
variable {r : Regs} {p : Params} {eff semi : Bool} {t : TopTwo}

theorem Regs.forcesBlend_iff :
    r.ForcesBlend p eff semi t ↔ t.top = .obj ∧ semi = true ∧ r.secondTarget t.second = true ∧ (eff || !p.semiObjWindowGated) = true := by
  rw [Regs.ForcesBlend, Bool.or_eq_true, Bool.not_eq_true']

theorem Regs.effect_of_forced {u : Layer} {b : Colour} (h : r.ForcesBlend p eff semi t) (hsecond : t.second = some (u, b)) :
    r.effect p eff semi t = r.alpha t.colorA b := by
  rw [Regs.effect, if_pos (Regs.forcesBlend_iff.1 h), hsecond]

variable (h : ¬ r.ForcesBlend p eff semi t)
include h

/-- No effect where the window stops it, or the top layer is no first target (R308). -/
theorem Regs.effect_of_stopped (hstop : eff = false ∨ r.firstTarget t.top = false) : r.effect p eff semi t = t.colorA := by
  rw [Regs.effect, if_neg (mt Regs.forcesBlend_iff.2 h), if_pos hstop]

/-- The effect of the mode (R308); the alpha blend wants a second target. -/
theorem Regs.effect_of_mode (heff : eff = true) (hfirst : r.firstTarget t.top = true) :
    r.effect p eff semi t =
      if r.bldcnt.toNat / 64 % 4 = 1 then t.second.elim t.colorA fun s => if bit r.bldcnt (8 + s.1.index) = true then r.alpha t.colorA s.2 else t.colorA
      else if r.bldcnt.toNat / 64 % 4 = 2 then r.brighten t.colorA
      else if r.bldcnt.toNat / 64 % 4 = 3 then r.darken t.colorA
      else t.colorA := by
  have hmode : r.bldcnt.toNat / 64 % 4 = field r.bldcnt 6 2 := (field_eq r.bldcnt 6 2).symm
  have hgo : ¬ (eff = false ∨ r.firstTarget t.top = false) := by simp [heff, hfirst]
  rw [Regs.effect, if_neg (mt Regs.forcesBlend_iff.2 h), if_neg hgo, hmode]
  split
  next hm =>
    rw [if_pos hm]
    cases t.second <;> rfl
  next hm =>
    rw [hm]
    rfl
  next hm =>
    rw [hm]
    rfl
  next h1 h2 h3 => rw [if_neg h1, if_neg h2, if_neg h3]

end

/-- Settles O45: the forced blend (`effect_of_forced`), no effect (`effect_of_stopped`), or the mode's (`effect_of_mode`). -/
theorem effectSelection : Obligations.EffectSelection := by
  intro r p eff semi t a u b
  refine ⟨fun ht hsemi hsecond hwin => ?_, fun hother => ?_, ?_⟩
  · exact Regs.effect_of_forced ⟨ht, hsemi, hsecond, hwin⟩ rfl
  · have hforced : ¬ r.ForcesBlend p eff semi ⟨t, a, some (u, b)⟩ := by
      rintro ⟨ht, hsemi, hsecond, hwin⟩
      rcases hother with h | h | h | ⟨heff, hgated⟩
      · exact h ht
      · exact Bool.false_ne_true (h.symm.trans hsemi)
      · exact Bool.false_ne_true (h.symm.trans hsecond)
      · simp [heff, hgated] at hwin
    refine ⟨Regs.effect_of_stopped hforced, fun heff hfirst => ?_⟩
    rw [Regs.effect_of_mode hforced heff hfirst]
    refine ⟨fun hm => ?_, fun hm => ?_, fun hm => ?_, fun hm => ?_⟩ <;> simp [hm]
  · have hforced : ¬ r.ForcesBlend p eff semi ⟨.backdrop, a, none⟩ := fun h => Layer.noConfusion h.1
    by_cases hgo : eff = true ∧ r.firstTarget .backdrop = true
    · rw [Regs.effect_of_mode hforced hgo.1 hgo.2]
      refine Eq.trans ?_ (if_pos hgo).symm
      by_cases hm : r.bldcnt.toNat / 64 % 4 = 1
      · simp [hm]
      · rw [if_neg hm]
    · have hstop : eff = false ∨ r.firstTarget .backdrop = false := by simpa [imp_iff_not_or] using hgo
      exact (Regs.effect_of_stopped hforced hstop).trans (if_neg hgo).symm

end Sys2Proof.Machine
end

section
/-! SUPPORT. The statements of 60_exceptions.md: the stuck block (R331), and the outcomes of CANCEL (R158, R334, R335, R337). -/

namespace Sys2Proof.Machine

/-- Settles O8: a stuck block only takes the host's next command from its stream (`step_of_fatal`). -/
theorem stuckIgnoresCommands : Obligations.StuckIgnoresCommands :=
  fun _ => step_of_fatal

/-! ### CANCEL -/

theorem exec_cancel_of_stale {s : State} {a : BitVec 64} (h : s.sched.event a.toNat = none) : exec (.cancel a) s = .next s := by
  simp only [exec, execCancel, h]

/-- The sentinel and the PPU's events are not the host's to cancel (R158, R334). -/
theorem exec_cancel_of_internal {s : State} {a : BitVec 64} {e : Event} (he : s.sched.event a.toNat = some e)
    (htag : ∀ k, e.tag ≠ .external k) : exec (.cancel a) s = .next (s.refuse .badHandle) := by
  obtain ⟨ts, tag, slot⟩ := e
  cases tag with
  | external k => exact absurd rfl (htag k)
  | drawEnd | hblankEnd | endOfTime => simp only [exec, execCancel, he]

/-- An external event is removed from its slot, unless its callback is running (R158, R335). -/
theorem exec_cancel_of_external {s : State} {a : BitVec 64} {e : Event} {k : Word} (he : s.sched.event a.toNat = some e)
    (htag : e.tag = .external k) :
    exec (.cancel a) s =
      if s.sched.firing = some a.toNat then .next (s.raise (.cancelWhileFiring a.toNat))
      else .next (s.setSched (s.sched.removeAt e.slot)) := by
  obtain ⟨ts, tag, slot⟩ := e
  cases htag
  simp only [exec, execCancel, he]

/-- Settles O13: the four cases of CANCEL in R337's order; the event that is removed stands in the heap at its slot (`Sched.Linked`), and
`Sched.removeAt_spec` says what its removal leaves. -/
theorem cancelOutcomes : Obligations.CancelOutcomes := by
  intro s a hi
  refine ⟨exec_cancel_of_stale, fun e he htag => exec_cancel_of_internal he htag, fun e k he htag hfiring => ?_,
    fun e k he htag hidle => ⟨s.sched.removeAt e.slot, ?_, ?_⟩⟩
  · exact (exec_cancel_of_external he htag).trans (if_pos hfiring)
  · exact (exec_cancel_of_external he htag).trans (if_neg hidle)
  · exact Sched.removeAt_spec hi.linked hi.ordered (hi.linked.slot _ e he)

end Sys2Proof.Machine
end

section
/-! SUPPORT. The statement of 70_reset_and_hazards.md: the reset procedure (R360), in its order: LineStart(0), then the Insert of the first DRAW_END. -/

namespace Sys2Proof.Machine

/-! ### LineStart(0) -/

/-- Line 0 latches the mosaic references under any block height (R47, R263). -/
theorem Ppu.mosaicLatched_zero (p : Ppu) (r : Regs) : p.mosaicLatched r 0 = { p with mx := p.ix, my := p.iy } :=
  if_pos (Nat.zero_mod _)

/-- Mosaic or not, accumulators start at the internal references where the mosaic ones agree with them. -/
theorem lineStartAcc_self (r : Regs) (ref : PerAff Word) : lineStartAcc r ref ref = ref := by
  simp only [lineStartAcc, ite_self]

/-- LineStart(0) whole, in any state: line 0 starts from the internal references (R263). -/
theorem State.lineStart_zero (s : State) :
    s.lineStart 0 =
      (s.setPpu { s.ppu with mx := s.ppu.ix, my := s.ppu.iy }).setLine
        { Line.zero with nextX := s.line.nextX, ax := s.ppu.ix, ay := s.ppu.iy } := by
  simp only [State.lineStart, Ppu.mosaicLatched_zero, lineStartAcc_self]

/-! ### The first Insert -/

/-- An event before the sentinel alone takes the root: SiftUp exchanges the two entries (R150, R153). -/
theorem Sched.push_cleared {last ts : Timestamp} (h : ts < last) (tag : Tag) :
    (Sched.cleared last).push ts tag =
      { Sched.cleared last with
        events := [(0, some ⟨last, .endOfTime, 1⟩), (1, some ⟨ts, tag, 0⟩)]
        heap := [1, 0]
        nextHandle := 2 } := by
  have hup : ∀ c : Sched, c.tsAt 1 < c.tsAt 0 → c.siftUp 1 = c.swap 1 0 := fun _ hlt => if_pos ⟨Nat.one_pos, hlt⟩
  exact hup _ h

/-- The first draw phase ends before the sentinel, as timestamps (R25). -/
theorem ofNat_cyclesDraw_lt_tsMax {p : Params} (hp : p.Legal) : BitVec.ofNat 64 p.cyclesDraw < p.tsMax := by
  rw [BitVec.lt_def, toNat_ofNat_of_lt_tsMax (cyclesDraw_lt_tsMax hp)]
  exact cyclesDraw_lt_tsMax hp

/-- Beside the sentinel alone, at time 0, Insert of the first draw phase's end finds room and does not overflow: the new event is handle 1, at the
root (R153). -/
theorem State.insert_of_cleared {s : State} (hp : s.params.Legal) (hs : s.sched = Sched.cleared s.params.tsMax) (tag : Tag) :
    s.insert (BitVec.ofNat 64 s.params.cyclesDraw) tag =
      s.setSched
        { Sched.cleared s.params.tsMax with
          events := [(0, some ⟨s.params.tsMax, .endOfTime, 1⟩), (1, some ⟨BitVec.ofNat 64 s.params.cyclesDraw, tag, 0⟩)]
          heap := [1, 0]
          nextHandle := 2 } := by
  have hn : s.sched.n = 1 := congrArg Sched.n hs
  have hnow : s.sched.now = 0#64 := congrArg Sched.now hs
  have hcap := hp.capacity
  have hlt := ofNat_cyclesDraw_lt_tsMax hp
  rcases s.insert_cases (BitVec.ofNat 64 s.params.cyclesDraw) tag with ⟨hfull, -⟩ | ⟨-, hover, -⟩ | ⟨-, -, hpushed⟩
  · omega
  · rw [hnow, BitVec.toNat_zero, Nat.zero_add] at hover
    exact absurd hover (Nat.not_le_of_lt hlt)
  · rw [hpushed, hnow, BitVec.zero_add, hs, Sched.push_cleared hlt]

/-- Settles O59: LineStart(0) leaves the line at 0 (`State.lineStart_zero`), and the first DRAW_END, due before the sentinel, becomes the heap's root as
handle 1 (`State.insert_of_cleared`). -/
theorem resetProcedure_eq_resetWith : Obligations.ResetProcedure := by
  intro p host pram oam vram fb hp
  have hline : (State.cleared p host pram oam vram fb).lineStart 0 = (State.cleared p host pram oam vram fb).setLine Line.zero :=
    State.lineStart_zero _
  have hinsert := State.insert_of_cleared (s := (State.cleared p host pram oam vram fb).setLine Line.zero) hp rfl .drawEnd
  unfold resetProcedure
  rw [hline]
  exact congrArg (fun s => s.setPpu { s.ppu with ppuEv := 1 }) hinsert

end Sys2Proof.Machine
end
